-- ==== Sys2Proof/Word.lean ====
section
/-! DEFINITION. The widths of bcpu CORE: bytes, 16-bit and 32-bit words, bus addresses, and the width-tagged value
`RegVal` that flows between operand decode, the ALU and write-back (00_scope.md R11, R14). -/

namespace Sys2Proof

/-- The smallest unit of the bus and of an instruction (R63). -/
abbrev Byte := BitVec 8

/-- A 16-bit value: a word view, a segment offset, a 16-bit immediate. -/
abbrev Word16 := BitVec 16

/-- A 32-bit value: a full register. -/
abbrev Word32 := BitVec 32

/-- A bus address: 32 bits (R62). -/
abbrev Addr := BitVec 32

/-- The three operand widths (R9, R11). -/
inductive Width where
  | w8
  | w16
  | w32
  deriving DecidableEq, Repr

/-- The number `N` of bits of a width. -/
def Width.bits : Width → Nat
  | .w8 => 8
  | .w16 => 16
  | .w32 => 32

/-- A width-tagged value, the source's tags `Byte`, `Word`, `Dword` (R11). -/
inductive RegVal where
  | byte (v : Byte)
  | word (v : Word16)
  | dword (v : Word32)
  deriving DecidableEq, Repr

/-- The width `N` of a value `(N, v)` (R11). -/
def RegVal.width : RegVal → Width
  | .byte _ => .w8
  | .word _ => .w16
  | .dword _ => .w32

/-- The unsigned number `v` of a value `(N, v)` (R11). -/
def RegVal.toNat : RegVal → Nat
  | .byte v => v.toNat
  | .word v => v.toNat
  | .dword v => v.toNat

end Sys2Proof
end

