-- ==== Sys2Proof/Machine/Numeric.lean ====
section
/-! DEFINITION. The numeric helpers of 00_scope.md R12: pure functions on `N`-bit values. -/

namespace Sys2Proof.Machine

/-- `top_N(v)` (R12). -/
def topBit {n : Nat} (v : BitVec n) : Bool := v.msb

/-- `signed_N(v)`, the two's-complement reading (R12). -/
def signedVal {n : Nat} (v : BitVec n) : Int := v.toInt

/-- `zext_M(v)` (R12). -/
def zext {n : Nat} (m : Nat) (v : BitVec n) : BitVec m := v.setWidth m

/-- `sext_M(v)` (R12). -/
def sext {n : Nat} (m : Nat) (v : BitVec n) : BitVec m := v.signExtend m

/-- `trunc_M(v)` (R12). -/
def trunc {n : Nat} (m : Nat) (v : BitVec n) : BitVec m := v.setWidth m

/-- `merge_N(lo, hi) = hi * 2^N + lo` (R12). -/
def mergeHalves {n : Nat} (lo hi : BitVec n) : BitVec (2 * n) :=
  BitVec.ofNat (2 * n) (hi.toNat * 2 ^ n + lo.toNat)

/-- `split_N(w) = (w[N-1:0], w[2N-1:N])` (R12). -/
def splitHalves {n : Nat} (w : BitVec (2 * n)) : BitVec n × BitVec n :=
  (w.extractLsb' 0 n, w.extractLsb' n n)

/-- Two bytes as a little-endian pair: the first is bits 7 to 0 (20_memory.md R76). -/
def wordLE (lo hi : Byte) : Word16 := BitVec.ofNat 16 (lo.toNat + 256 * hi.toNat)

/-- The low byte of a 16-bit value (R71, R76). -/
def lowByte (v : Word16) : Byte := v.extractLsb' 0 8

/-- The high byte of a 16-bit value (R71, R76). -/
def highByte (v : Word16) : Byte := v.extractLsb' 8 8

end Sys2Proof.Machine
end

