-- ==== Sys2Proof/Syntax.lean ====
section
/-! DEFINITION. The syntax of bcpu CORE: backing registers and their views (10_state.md R20 to R34), operands
(00_scope.md R13) and the ten instructions, one constructor per row of spec/opcode_table.json (30_encoding.md R97). -/

namespace Sys2Proof

/-- The 18 backing registers (R25). -/
inductive Backing where
  | a | b | c | d
  | sp | bp | si | di | rp
  | rop
  | codeOfs | dataOfs | extraOfs | stackOfs
  | idtp | idtl | pc | flags
  deriving DecidableEq, Repr

/-- The class of a register and its index `k` within the class (R28). -/
inductive Slot where
  | gpr (k : Fin 4)
  | ptr (k : Fin 5)
  | seg (k : Fin 4)
  | spc (k : Fin 4)
  deriving DecidableEq, Repr

/-- The bit span a view exposes (R28): `[31:0]`, `[15:0]`, `[7:0]`, `[15:8]`. -/
inductive Span where
  | dword
  | word
  | lowByte
  | highByte
  deriving DecidableEq, Repr

/-- The width of a span. -/
def Span.width : Span → Width
  | .dword => .w32
  | .word => .w16
  | .lowByte => .w8
  | .highByte => .w8

/-- What a register id resolves to: `(class, k, span)` (R28). -/
structure Selector where
  slot : Slot
  span : Span
  deriving DecidableEq, Repr

/-- A view: a backing register and the span of it that a register id names (R28). -/
structure View where
  reg : Backing
  span : Span
  deriving DecidableEq, Repr

/-- An operand: an immediate of 8 or 16 bits, or a register id byte (R13, R91). -/
inductive Operand where
  | imm8 (v : Byte)
  | imm16 (v : Word16)
  | reg (id : Byte)
  deriving DecidableEq, Repr

/-- The instructions, operands in byte order (R97, R98). A destination may be written as an immediate: the
instruction then exists and raises (R98, R191 cause 3). -/
inductive Instr where
  | mov (src dest : Operand)
  | movsx (src dest : Operand)
  | add (src dest : Operand)
  | adc (src dest : Operand)
  | sub (src dest : Operand)
  | sbb (src dest : Operand)
  | mul (src dlo dhi : Operand)
  | imul (src dlo dhi : Operand)
  | div (src dlo dhi : Operand)
  | idiv (src dlo dhi : Operand)
  deriving DecidableEq, Repr

/-- The ten mnemonics, the domain of the opcode map `OPC` (R97). -/
inductive Mnemonic where
  | mov | movsx | add | adc | sub | sbb | mul | imul | div | idiv
  deriving DecidableEq, Repr

/-- The mnemonic of an instruction. -/
def Instr.mnemonic : Instr → Mnemonic
  | .mov _ _ => .mov
  | .movsx _ _ => .movsx
  | .add _ _ => .add
  | .adc _ _ => .adc
  | .sub _ _ => .sub
  | .sbb _ _ => .sbb
  | .mul _ _ _ => .mul
  | .imul _ _ _ => .imul
  | .div _ _ _ => .div
  | .idiv _ _ _ => .idiv

/-- The operands of an instruction, in byte order (R98). -/
def Instr.operands : Instr → List Operand
  | .mov s d => [s, d]
  | .movsx s d => [s, d]
  | .add s d => [s, d]
  | .adc s d => [s, d]
  | .sub s d => [s, d]
  | .sbb s d => [s, d]
  | .mul s l h => [s, l, h]
  | .imul s l h => [s, l, h]
  | .div s l h => [s, l, h]
  | .idiv s l h => [s, l, h]

/-- The destination operands of an instruction: all but the first (R98). -/
def Instr.destinations (i : Instr) : List Operand := i.operands.tail

end Sys2Proof
end

