-- ==== Sys2Proof/Machine/Registers.lean ====
section
/-! DEFINITION. The register file: the 18 backing registers as plain data (10_state.md R20 to R25). -/

namespace Sys2Proof.Machine

/-- The register file, 488 bits (R25). -/
structure Regs where
  /-- `A`, general purpose (R20). -/
  a : Word32
  /-- `B`, general purpose (R20). -/
  b : Word32
  /-- `C`, general purpose (R20). -/
  c : Word32
  /-- `D`, general purpose (R20). -/
  d : Word32
  /-- `SP`, pointer class, no behaviour of its own (R21). -/
  sp : Word32
  /-- `BP`, pointer class (R21). -/
  bp : Word32
  /-- `SI`, pointer class (R21). -/
  si : Word32
  /-- `DI`, pointer class (R21). -/
  di : Word32
  /-- `RP`, the return pointer, written by trap entry (R21, R199). -/
  rp : Word32
  /-- `ROP`, the return offset, 8 bits, no register id (R22, R35). -/
  rop : Byte
  /-- `CO`, the code offset (R23, R60). -/
  codeOfs : Word16
  /-- `DO`, the data offset, plain storage (R23). -/
  dataOfs : Word16
  /-- `EO`, the extra offset, plain storage (R23). -/
  extraOfs : Word16
  /-- `SO`, the stack offset, plain storage (R23). -/
  stackOfs : Word16
  /-- `IDTP`, plain storage (R24, R46). -/
  idtp : Word32
  /-- `IDTL`, plain storage (R24, R46). -/
  idtl : Word32
  /-- `PC`, the program counter (R24, R45). -/
  pc : Word32
  /-- `FLAGS` (R24, R40): C 0, N 1, V 2, Z 3, T 4, DS 5, PRIV 7:6, M32 8. -/
  flags : Word32
  deriving DecidableEq, Repr, Inhabited

/-- The two exception kinds (60_exceptions.md R190). -/
inductive ExceptionKind where
  /-- Unknown register id, width mismatch, immediate destination, absent division, bad opcode or count (R191). -/
  | invalidOperation
  /-- The capability check refused a register access (R192). -/
  | illegalOperation
  deriving DecidableEq, Repr

/-- What a device's `clock()` returns (20_memory.md R74). -/
inductive ClockResult where
  | none
  | irq
  | nmi
  deriving DecidableEq, Repr, Inhabited

/-- What the core tells upstream about one cycle: the exception, if it raised (R201), and the `clock()` results
(R204). The model's own field, read by no instruction (log 11). -/
structure Report where
  raised : Option ExceptionKind
  clock : List ClockResult
  deriving DecidableEq, Repr

end Sys2Proof.Machine
end

