-- ==== Sys2Proof/Config.lean ====
section
/-! DEFINITION. The model arguments of 00_scope.md R9 and the decisions that R17 wants as configuration, as plain data,
and the free values: what a device outside the core does, what an upstream other than the default does, what trap entry
saves under another decision than D6, and the upper byte of a past-the-end 16-bit read. -/

namespace Sys2Proof

/-- The opcode map `OPC`: one byte for each mnemonic (30_encoding.md R97). -/
structure OpcodeMap where
  mov : Byte
  movsx : Byte
  add : Byte
  adc : Byte
  sub : Byte
  sbb : Byte
  mul : Byte
  imul : Byte
  div : Byte
  idiv : Byte
  deriving DecidableEq, Repr

/-- The kind of a register access, as the capability policy sees it (60_exceptions.md R207). -/
inductive AccessKind where
  | read
  | write
  deriving DecidableEq, Repr

/-- One access a capability policy refuses: a level, a register id and a kind (R207). -/
structure Denial where
  level : BitVec 2
  id : Byte
  kind : AccessKind
  deriving DecidableEq, Repr

/-- The hook that receives exceptions and `clock()` results (R9, R201, R204). -/
inductive Upstream where
  /-- The default: does nothing (R201). -/
  | quiet
  /-- Some other upstream, of which nothing is assumed (log 10). -/
  | external (model : Nat)
  deriving DecidableEq, Repr

/-- What trap entry saves: decision D6 of 92_eei_decisions.md as a configuration field (R17; log 18). -/
inductive TrapSave where
  /-- Decision D6: `RP <- PC`, `ROP <- CO[7:0]` (60_exceptions.md R199). -/
  | pcAndOffset
  /-- Some other reading of "the current flat PC components", of which nothing is assumed. -/
  | other (model : Nat)
  deriving DecidableEq, Repr

/-- The register order inside each class: decision D4 of 92_eei_decisions.md as a configuration field (R17; log 18). At
index `k` of a class stands the register whose place in the source's listing of that class is the `k`-th number
(10_state.md R27). -/
structure RegOrder where
  gpr : Vector (Fin 4) 4
  ptr : Vector (Fin 5) 5
  seg : Vector (Fin 4) 4
  spc : Vector (Fin 4) 4
  deriving DecidableEq, Repr

/-- Decision D4: the listing order (10_state.md R27). -/
def RegOrder.listing : RegOrder :=
  { gpr := #v[0, 1, 2, 3], ptr := #v[0, 1, 2, 3, 4], seg := #v[0, 1, 2, 3], spc := #v[0, 1, 2, 3] }

/-- The arguments of the model that no step changes (R9), and the decisions D1, D4 and D6 beside them (R17; log 18). -/
structure Params where
  /-- `OPC` (R97). -/
  opc : OpcodeMap
  /-- `can_access`, as the list of what it refuses (R207; log 3). -/
  denied : List Denial
  /-- `TESTMODE_GATES_FLAGS` (43_arith.md R172). -/
  testModeGatesFlags : Bool
  /-- `upstream` (R201). -/
  upstream : Upstream
  /-- `SEG_SHIFT` (R9), decision D1: the left shift of `CO` in the flat address (20_memory.md R60). -/
  segShift : Nat
  /-- Decision D6: what trap entry saves in `RP` and `ROP` (60_exceptions.md R199). -/
  trapSave : TrapSave
  /-- Decision D4: which register of its class an index selects (10_state.md R27). -/
  regOrder : RegOrder
  deriving DecidableEq, Repr

/-- `read(offset, range_index)` of an external device: the byte and the device's state after (20_memory.md R74).
A free value: any device (log 7). -/
opaque Config.devRead (model state offset range : Nat) : Byte × Nat

/-- `read16(offset, range_index)` of an external device (R74). A free value (log 7). -/
opaque Config.devRead16 (model state offset range : Nat) : Word16 × Nat

/-- `write(byte, offset, range_index)` of an external device: its state after (R74). A free value (log 7). -/
opaque Config.devWrite (model state : Nat) (v : Byte) (offset range : Nat) : Nat

/-- `write16(two_bytes_le, offset, range_index)` of an external device (R74). A free value (log 7). -/
opaque Config.devWrite16 (model state : Nat) (v : Word16) (offset range : Nat) : Nat

/-- `clock()` of an external device (R74). A free value (log 7). -/
opaque Config.devClock (model state : Nat) : Machine.ClockResult × Nat

/-- The upper byte of a 16-bit read at the last byte of a plain-memory range, applied to the device's counter and
the address (20_memory.md R73 (a), 93_implementation_defined.md S12). A free value (log 6). -/
opaque Config.pastEndByte (count addr : Nat) : Byte

/-- What an external upstream does with the report of a cycle: its own state and the register file after
(60_exceptions.md R201). A free value (log 10). -/
opaque Config.upstreamStep (model state : Nat) (report : Machine.Report) (regs : Machine.Regs) : Nat × Machine.Regs

/-- What trap entry saves in `RP` and `ROP` under another decision than D6, from `PC` and `CO`. A free value
(log 18). -/
opaque Config.otherSave (model : Nat) (pc : Word32) (co : Word16) : Word32 × Byte

end Sys2Proof
end

