-- ==== Sys2Proof/Machine/RegId.lean ====
section
/-! DEFINITION. The register ids: the pure function `resolve` from a byte to class, index and span (10_state.md R28 to
R34), and the register that an index names (R27, decision D4). -/

namespace Sys2Proof.Machine

/-- The general-purpose registers in the source's listing order (R20, R27). -/
def gprReg (place : Fin 4) : Backing :=
  match place with
  | 0 => .a
  | 1 => .b
  | 2 => .c
  | 3 => .d

/-- The pointer registers in the source's listing order (R21, R27). -/
def ptrReg (place : Fin 5) : Backing :=
  match place with
  | 0 => .sp
  | 1 => .bp
  | 2 => .si
  | 3 => .di
  | 4 => .rp

/-- The segment-offset registers in the source's listing order (R23, R27). -/
def segReg (place : Fin 4) : Backing :=
  match place with
  | 0 => .codeOfs
  | 1 => .dataOfs
  | 2 => .extraOfs
  | 3 => .stackOfs

/-- The special registers in the source's listing order (R24, R27). -/
def spcReg (place : Fin 4) : Backing :=
  match place with
  | 0 => .idtp
  | 1 => .idtl
  | 2 => .pc
  | 3 => .flags

/-- The backing register at an index of its class, in an order of the classes (R27, decision D4). -/
def slotReg (o : RegOrder) (slot : Slot) : Backing :=
  match slot with
  | .gpr k => gprReg (o.gpr.get k)
  | .ptr k => ptrReg (o.ptr.get k)
  | .seg k => segReg (o.seg.get k)
  | .spc k => spcReg (o.spc.get k)

/-- The general-purpose width selector `id[1:0]` (R29; 90_conflicts.md C1). -/
def gprSpan (sel : BitVec 2) : Span :=
  match sel.toNat with
  | 0 => .dword
  | 1 => .word
  | 2 => .lowByte
  | _ => .highByte

/-- The pointer-class and special-class width selector `id[0]` (R30, R32). -/
def wideSpan (sel : Bool) : Span := if sel then .dword else .word

/-- `resolve(id)` (R28): the four classes by their ranges (R29 to R32), every other byte invalid (R33). It reads no
state and no argument of the model. -/
def resolve (id : Byte) : Option Selector :=
  if id < 0x10 then some ⟨.gpr (id.extractLsb' 2 2).toFin, gprSpan (id.extractLsb' 0 2)⟩
  else if id < 0x1a then some ⟨.ptr (Fin.ofNat 5 (id.extractLsb' 1 3).toNat), wideSpan (id.getLsbD 0)⟩
  else if 0x20 ≤ id ∧ id < 0x24 then some ⟨.seg (id.extractLsb' 0 2).toFin, .word⟩
  else if 0x28 ≤ id ∧ id < 0x30 then some ⟨.spc (id.extractLsb' 1 2).toFin, wideSpan (id.getLsbD 0)⟩
  else none

/-- The view a register id names, in an order of the classes (R27, R28). -/
def viewAt (o : RegOrder) (id : Byte) : Option View := (resolve id).map (fun x => ⟨slotReg o x.slot, x.span⟩)

end Sys2Proof.Machine
end

