-- ==== Sys2Proof/WellFormed.lean ====
section
/-! DEFINITION. What the spec asks of an instruction term (register ids are valid: 30_encoding.md R91, R94) and of an
opcode map (injective, every byte with bit 7 set: R96, R97) and of the model arguments. -/

namespace Sys2Proof

/-- A register operand names a valid id (R91); an immediate may have any value (R93). -/
def Operand.wf : Operand → Bool
  | .imm8 _ => true
  | .imm16 _ => true
  | .reg id => (Machine.resolve id).isSome

/-- Every operand of the instruction is one the encoding admits. -/
def Instr.wf (i : Instr) : Bool := i.operands.all Operand.wf

/-- The ten opcode bytes in the table's order (R97). -/
def OpcodeMap.bytes (o : OpcodeMap) : List Byte :=
  [o.mov, o.movsx, o.add, o.adc, o.sub, o.sbb, o.mul, o.imul, o.div, o.idiv]

/-- `OPC` is an injective map into `0x80` to `0xff` (R96, R97). -/
def OpcodeMap.wf (o : OpcodeMap) : Bool := o.bytes.all BitVec.msb && decide o.bytes.Nodup

/-- Every register of each class stands at one index (10_state.md R27, decision D4). -/
def RegOrder.wf (o : RegOrder) : Bool :=
  decide o.gpr.toList.Nodup && decide o.ptr.toList.Nodup && decide o.seg.toList.Nodup && decide o.spc.toList.Nodup

/-- The model arguments meet R96 and R97, no register of a class is without an index (D4), and the code offset is shifted
by 16: "the shift of 8 is not admitted" (20_memory.md R60, decision D1). -/
def Params.wf (p : Params) : Bool := p.opc.wf && p.regOrder.wf && decide (p.segShift = 16)

end Sys2Proof
end

