-- ==== Sys2Proof/Decode.lean ====
section
/-! DEFINITION. Decoding and encoding (30_encoding.md R90 to R103). The decoder is total on any bytes and rejects by
name; the encoder writes the bytes of an instruction from the same tables. -/

namespace Sys2Proof

/-- The default opcode map (R97, D11). -/
def OpcodeMap.default : OpcodeMap :=
  { mov := 0x80, movsx := 0x81, add := 0x82, adc := 0x83, sub := 0x84, sbb := 0x85, mul := 0x86, imul := 0x87,
    div := 0x88, idiv := 0x89 }

/-- The opcode byte of a mnemonic (R97). -/
def OpcodeMap.byteOf (o : OpcodeMap) : Mnemonic → Byte
  | .mov => o.mov
  | .movsx => o.movsx
  | .add => o.add
  | .adc => o.adc
  | .sub => o.sub
  | .sbb => o.sbb
  | .mul => o.mul
  | .imul => o.imul
  | .div => o.div
  | .idiv => o.idiv

/-- The ten mnemonics in the table's order (R97). -/
def allMnemonics : List Mnemonic := [.mov, .movsx, .add, .adc, .sub, .sbb, .mul, .imul, .div, .idiv]

/-- The mnemonic an opcode byte stands for, or none when it is unassigned (R97, R99). -/
def OpcodeMap.lookup (o : OpcodeMap) (op : Byte) : Option Mnemonic :=
  allMnemonics.find? (fun m => o.byteOf m == op)

/-- The number of operands an opcode takes (R98). -/
def operandCount : Mnemonic → Nat
  | .mov | .movsx | .add | .adc | .sub | .sbb => 2
  | .mul | .imul | .div | .idiv => 3

/-- What a byte at an operand-item boundary is (R103). -/
inductive ByteClass where
  /-- Bit 7 set: ends the instruction and is not consumed (R92). -/
  | terminator
  /-- `0x70`: one data byte follows (R91). -/
  | imm8
  /-- `0x71`: two data bytes follow, little-endian (R91). -/
  | imm16
  /-- A valid register id (R94). -/
  | reg
  /-- Everything else (R102). -/
  | invalid
  deriving DecidableEq, Repr

/-- The classification of R103, the tests in its order. -/
def classify (b : Byte) : ByteClass :=
  if b.msb then .terminator
  else if b = 0x70 then .imm8
  else if b = 0x71 then .imm16
  else if (Machine.resolve b).isSome then .reg
  else .invalid

/-- Why bytes are no instruction. -/
inductive DecodeError where
  /-- The bytes end before the terminator: more must be read to decide (R90, R95). -/
  | truncated
  /-- An operand byte that is no valid register id: `InvalidOperation` at decode (R94, R102). -/
  | invalidRegister (b : Byte)
  /-- An unassigned opcode byte: `InvalidOperation` at dispatch (R99, R100). -/
  | unassignedOpcode (op : Byte)
  /-- The wrong number of operand items for the opcode: `InvalidOperation` at dispatch (R101). -/
  | operandCount (op : Byte) (found : Nat)
  deriving DecidableEq, Repr

/-- The operand items up to the terminator, and the bytes from the terminator on (R91 to R94). -/
def decodeOperands : List Byte → Except DecodeError (List Operand × List Byte)
  | [] => .error .truncated
  | b :: rest =>
    match classify b with
    | .terminator => .ok ([], b :: rest)
    | .imm8 =>
      match rest with
      | ib :: rest' =>
        match decodeOperands rest' with
        | .ok (ops, tail) => .ok (.imm8 ib :: ops, tail)
        | .error e => .error e
      | [] => .error .truncated
    | .imm16 =>
      match rest with
      | lo :: hi :: rest' =>
        match decodeOperands rest' with
        | .ok (ops, tail) => .ok (.imm16 (Machine.wordLE lo hi) :: ops, tail)
        | .error e => .error e
      | _ => .error .truncated
    | .reg =>
      match decodeOperands rest with
      | .ok (ops, tail) => .ok (.reg b :: ops, tail)
      | .error e => .error e
    | .invalid => .error (.invalidRegister b)

/-- The instruction of a mnemonic and its operands, when their number is the one R98 gives. -/
def assemble : Mnemonic → List Operand → Option Instr
  | .mov, [s, d] => some (.mov s d)
  | .movsx, [s, d] => some (.movsx s d)
  | .add, [s, d] => some (.add s d)
  | .adc, [s, d] => some (.adc s d)
  | .sub, [s, d] => some (.sub s d)
  | .sbb, [s, d] => some (.sbb s d)
  | .mul, [s, l, h] => some (.mul s l h)
  | .imul, [s, l, h] => some (.imul s l h)
  | .div, [s, l, h] => some (.div s l h)
  | .idiv, [s, l, h] => some (.idiv s l h)
  | _, _ => none

/-- Dispatch (41_fetch_decode.md R148): the opcode is looked up first, then the operand count is checked. -/
def dispatch (o : OpcodeMap) (op : Byte) (ops : List Operand) : Except DecodeError Instr :=
  match o.lookup op with
  | none => .error (.unassignedOpcode op)
  | some m =>
    match assemble m ops with
    | none => .error (.operandCount op ops.length)
    | some i => .ok i

/-- The instruction at the head of a list of bytes, and the bytes from its terminator on (R90). -/
def decode (o : OpcodeMap) : List Byte → Except DecodeError (Instr × List Byte)
  | [] => .error .truncated
  | op :: rest =>
    match decodeOperands rest with
    | .error e => .error e
    | .ok (ops, tail) =>
      match dispatch o op ops with
      | .error e => .error e
      | .ok i => .ok (i, tail)

/-- The bytes of one operand item (R91). -/
def encodeOperand : Operand → List Byte
  | .imm8 v => [0x70, v]
  | .imm16 v => [0x71, Machine.lowByte v, Machine.highByte v]
  | .reg id => [id]

/-- The bytes of an instruction, without the terminator that must follow it (R90, R97, R98). -/
def encode (o : OpcodeMap) (i : Instr) : List Byte :=
  o.byteOf i.mnemonic :: i.operands.flatMap encodeOperand

/-- The low `n` bytes of a number, least significant first. -/
def bytesOfNat : Nat → Nat → List Byte
  | 0, _ => []
  | n + 1, w => BitVec.ofNat 8 w :: bytesOfNat n (w / 256)

/-- Bytes, then `k` operand bytes of zero, then a terminator. -/
def padded (bytes : List Byte) (k : Nat) : List Byte := bytes ++ List.replicate k 0x00 ++ [0x80]

/-- The bytes of an instruction given by its low `nbits` bits, the bits above them zero: the least number of zero
bytes (up to nine, three items of three bytes) that makes an instruction, then a terminator; with no such number, the
bytes and a terminator (log 16). -/
def layout (o : OpcodeMap) (nbits w : Nat) : List Byte :=
  let bytes := bytesOfNat ((nbits + 7) / 8) w
  match (List.range 10).find? (fun k => (decode o (padded bytes k)).isOk) with
  | some k => padded bytes k
  | none => padded bytes 0

/-- The instruction the decoder reads from an instruction whose bits are `w` (log 16). -/
def decodeTableWord (nbits w : Nat) : Option Instr :=
  match decode .default (layout .default nbits w) with
  | .ok (i, _) => some i
  | .error _ => none

end Sys2Proof
end

