-- ==== Sys2Proof/Machine/State.lean ====
section
/-! DEFINITION. The state of the machine: the register file, the bus with its devices and memory, the model arguments
and what the last cycle told upstream. Plain data. -/

namespace Sys2Proof.Machine

/-- A half-open range of bus addresses `[start, stop)` (20_memory.md R65). -/
structure Range where
  start : Nat
  stop : Nat
  deriving DecidableEq, Repr

/-- What a device is: a plain byte array, or a device of which only the interface is known (R6, R74). -/
inductive DeviceKind where
  /-- A byte array: `read` gives the stored byte and has no side effect, `clock()` gives None
  (95_test_vectors.md, conventions; log 5). -/
  | memory
  /-- Any other device: its entry points are uninterpreted functions (log 7). -/
  | external (model : Nat)
  deriving DecidableEq, Repr

/-- An entry of the device table: one device instance and its ordered ranges (R65). `state` is the device's own. -/
structure Device where
  kind : DeviceKind
  ranges : List Range
  state : Nat
  deriving DecidableEq, Repr

/-- The contents of the plain-memory devices, keyed by flat address, in canonical form (log 5). -/
abbrev Memory := List Host.Cell

/-- The bus side: the device table in order, and the bytes its plain-memory devices hold (R65, R66). -/
structure Bus where
  devices : List Device
  mem : Memory
  deriving DecidableEq, Repr

/-- The whole machine between two cycles. -/
structure State where
  /-- The 18 backing registers (10_state.md R25). -/
  regs : Regs
  /-- The devices and their contents (20_memory.md R65). -/
  bus : Bus
  /-- The model arguments that no step changes (00_scope.md R9). -/
  params : Params
  /-- What the last cycle told upstream (60_exceptions.md R201, R204; log 11). -/
  report : Report
  /-- The state of an upstream other than the default (log 10). -/
  upstreamState : Nat
  deriving DecidableEq, Repr

/-- Why a step has no next state. -/
inductive Fault where
  /-- The operand loop took `operandFuel` items without an end: stuck, undecided (70_reset_and_hazards.md R228).
  Raised by `step` alone. Safe: the hardware hangs, or goes on where the model says nothing. -/
  | stuck
  deriving DecidableEq, Repr

/-- Why a step has no meaning. -/
inductive Refusal where
  /-- An instruction without a meaning yet, by its mnemonic. Raised by no arm of `exec`. Safe. -/
  | notModelled (mnemonic : String)
  deriving DecidableEq, Repr

/-- The register file after reset: every register zero, the default of `RESET` (10_state.md R50, D9). -/
def Regs.zero : Regs :=
  { a := 0, b := 0, c := 0, d := 0, sp := 0, bp := 0, si := 0, di := 0, rp := 0, rop := 0, codeOfs := 0, dataOfs := 0,
    extraOfs := 0, stackOfs := 0, idtp := 0, idtl := 0, pc := 0, flags := 0 }

/-- The default model arguments (00_scope.md R9), decisions D1, D4 and D6 as the spec takes them. -/
def defaultParams : Params :=
  { opc := .default, denied := [], testModeGatesFlags := false, upstream := .quiet, segShift := 16,
    trapSave := .pcAndOffset, regOrder := .listing }

/-- The machine before its first cycle, from the arguments `RESET`, `DEVTAB` with its contents, and the others, which
`State.construct` checks first: reset is construction (70_reset_and_hazards.md R220, R221). -/
def State.initial (regs : Regs) (bus : Bus) (params : Params) : State :=
  { regs, bus, params, report := { raised := none, clock := [] }, upstreamState := 0 }

/-- The machine right after reset, every argument at its default (R9, R50, R220). -/
def State.reset : State := State.initial .zero { devices := [], mem := [] } defaultParams

end Sys2Proof.Machine
end

