-- ==== Sys2Proof/Machine/Memory.lean ====
section
/-! DEFINITION. The byte store of the plain-memory devices: an ordered list of (address, byte) pairs in one canonical
form (log 5). -/

namespace Sys2Proof.Machine

/-- What a byte that nothing has written reads as (log 5). -/
def unlistedByte : Byte := 0x00

/-- The byte at an address. -/
def memGet : Memory → Nat → Byte
  | [], _ => unlistedByte
  | (b, v) :: rest, a => if b = a then v else memGet rest a

/-- The store without any entry for `a`. -/
def memErase : Memory → Nat → Memory
  | [], _ => []
  | (b, v) :: rest, a => if b = a then rest else (b, v) :: memErase rest a

/-- The store with the entry `(a, v)` in its place. -/
def memInsert : Memory → Nat → Byte → Memory
  | [], a, v => [(a, v)]
  | (b, w) :: rest, a, v =>
    if a < b then (a, v) :: (b, w) :: rest
    else if b = a then (a, v) :: rest
    else (b, w) :: memInsert rest a v

/-- Reads one byte of the store. -/
def Memory.read (m : Memory) (a : Addr) : Byte := memGet m a.toNat

/-- Writes one byte of the store and keeps the canonical form: writing what an unlisted byte reads as removes the entry. -/
def Memory.write (m : Memory) (a : Addr) (v : Byte) : Memory :=
  if v = unlistedByte then memErase m a.toNat else memInsert m a.toNat v

/-- The canonical form: addresses strictly rising and below `2^32`, and no entry equal to an unlisted byte. -/
abbrev Memory.wf (m : Memory) : Prop :=
  m.Pairwise (fun x y => x.1 < y.1) ∧ ∀ x ∈ m, x.1 < 2 ^ 32 ∧ x.2 ≠ unlistedByte

end Sys2Proof.Machine
end

