-- ==== Sys2Proof/Machine/Bus.lean ====
section
/-! DEFINITION. The address bus: device lookup, the five device entry points, the four bus operations and the `clock()`
poll (20_memory.md R65 to R74, 60_exceptions.md R204), and the check of the device table when it is given (R66). -/

namespace Sys2Proof.Machine

/-- Whether a half-open range contains an address (R65). -/
def Range.contains (r : Range) (a : Nat) : Bool := decide (r.start ≤ a) && decide (a < r.stop)

/-- What `find_device` answers (R67): the device and its place in the table, the matching range, its index within the
device's ranges, and the offset into it. -/
structure Hit where
  index : Nat
  device : Device
  range : Nat
  span : Range
  offset : Nat
  deriving DecidableEq, Repr

/-- The first range of a device that contains the address, with its index (R67). -/
def findRange : List Range → Nat → Nat → Option (Nat × Range)
  | [], _, _ => none
  | r :: rest, a, k => if r.contains a then some (k, r) else findRange rest a (k + 1)

/-- The linear scan of R67 from the `i`-th entry on. -/
def findFrom : List Device → Nat → Nat → Option Hit
  | [], _, _ => none
  | d :: rest, a, i =>
    match findRange d.ranges a 0 with
    | some (k, r) => some { index := i, device := d, range := k, span := r, offset := a - r.start }
    | none => findFrom rest a (i + 1)

/-- `find_device(addr)` (R67). -/
def Bus.findDevice (b : Bus) (a : Addr) : Option Hit := findFrom b.devices a.toNat 0

/-- The flat address of a hit, where a plain-memory device keeps the byte. -/
def Hit.flat (h : Hit) : Addr := BitVec.ofNat 32 (h.span.start + h.offset)

/-- The bus with the device of a hit in a new state of its own. -/
def Bus.setDeviceState (b : Bus) (h : Hit) (state : Nat) : Bus :=
  { b with devices := b.devices.set h.index { h.device with state } }

/-- The device entry point `read` (R74). -/
def Bus.devRead (b : Bus) (h : Hit) : Byte × Bus :=
  match h.device.kind with
  | .memory => (b.mem.read h.flat, b)
  | .external m =>
    let r := Config.devRead m h.device.state h.offset h.range
    (r.1, b.setDeviceState h r.2)

/-- The device entry point `write` (R74). -/
def Bus.devWrite (b : Bus) (h : Hit) (v : Byte) : Bus :=
  match h.device.kind with
  | .memory => { b with mem := b.mem.write h.flat v }
  | .external m => b.setDeviceState h (Config.devWrite m h.device.state v h.offset h.range)

/-- Whether the byte after the offset of a hit is still in its range (R73 (a)). -/
def Hit.hasNext (h : Hit) : Bool := decide (h.span.start + h.offset + 1 < h.span.stop)

/-- The device entry point `read16` (R74). A plain-memory device asked for a byte past the end of its range answers a
free value for it (R73 (a), S12; log 6). -/
def Bus.devRead16 (b : Bus) (h : Hit) : Word16 × Bus :=
  match h.device.kind with
  | .memory =>
    if h.hasNext then (wordLE (b.mem.read h.flat) (b.mem.read (h.flat + 1)), b)
    else (wordLE (b.mem.read h.flat) (Config.pastEndByte h.device.state h.flat.toNat),
          b.setDeviceState h (h.device.state + 1))
  | .external m =>
    let r := Config.devRead16 m h.device.state h.offset h.range
    (r.1, b.setDeviceState h r.2)

/-- The device entry point `write16` (R74). A plain-memory device drops a byte past the end of its range (log 6). -/
def Bus.devWrite16 (b : Bus) (h : Hit) (v : Word16) : Bus :=
  match h.device.kind with
  | .memory =>
    let low := b.mem.write h.flat (lowByte v)
    { b with mem := if h.hasNext then low.write (h.flat + 1) (highByte v) else low }
  | .external m => b.setDeviceState h (Config.devWrite16 m h.device.state v h.offset h.range)

/-- `MemRead(addr, 1)` (R68): unmapped addresses read zero. -/
def Bus.read8 (b : Bus) (a : Addr) : Byte × Bus :=
  match b.findDevice a with
  | some h => b.devRead h
  | none => (0x00, b)

/-- `MemWrite(addr, 1, v)` (R69): unmapped writes are dropped. -/
def Bus.write8 (b : Bus) (a : Addr) (v : Byte) : Bus :=
  match b.findDevice a with
  | some h => b.devWrite h v
  | none => b

/-- `MemRead(addr, 2)` (R70): an odd address is split into two byte reads, the lower first; an even one is a single
call to the owning device. -/
def Bus.read16 (b : Bus) (a : Addr) : Word16 × Bus :=
  if a.getLsbD 0 then
    let r0 := b.read8 a
    let r1 := r0.2.read8 (a + 1)
    (wordLE r0.1 r1.1, r1.2)
  else
    match b.findDevice a with
    | some h => b.devRead16 h
    | none => (0x0000, b)

/-- `MemWrite(addr, 2, v)` (R71). -/
def Bus.write16 (b : Bus) (a : Addr) (v : Word16) : Bus :=
  if a.getLsbD 0 then (b.write8 a (lowByte v)).write8 (a + 1) (highByte v)
  else
    match b.findDevice a with
    | some h => b.devWrite16 h v
    | none => b

/-- The device entry point `clock` (R74): plain memory answers None. -/
def Device.clock (d : Device) : ClockResult × Device :=
  match d.kind with
  | .memory => (.none, d)
  | .external m =>
    let r := Config.devClock m d.state
    (r.1, { d with state := r.2 })

/-- Every device's `clock()` once, in table order (R204). -/
def Bus.clockAll (b : Bus) : List ClockResult × Bus :=
  (b.devices.map (fun d => d.clock.1), { b with devices := b.devices.map (fun d => d.clock.2) })

/-- What construction fixes of a device: its kind and its ranges (R65). -/
def Device.shape (d : Device) : DeviceKind × List Range := (d.kind, d.ranges)

/-- The device table without the devices' own states: what does not change at run time (R65). -/
def Bus.shape (b : Bus) : List (DeviceKind × List Range) := b.devices.map Device.shape

/-- Two ranges share no address (R66 (b)). -/
def Range.disjoint (r q : Range) : Bool := decide (r.stop ≤ q.start) || decide (q.stop ≤ r.start)

/-- A range is not empty, lies in the address space and starts at an even address (R66 (a), (c)). -/
def Range.wf (r : Range) : Bool :=
  decide (r.start < r.stop) && decide (r.stop ≤ 2 ^ 32) && decide (r.start % 2 = 0)

/-- The well-formedness conditions of a device table (R66). -/
abbrev tableWf (t : List (DeviceKind × List Range)) : Prop :=
  (∀ r ∈ t.flatMap Prod.snd, r.wf = true) ∧ (t.flatMap Prod.snd).Pairwise (fun r q => r.disjoint q = true)

/-- Construction of the machine from its arguments (70_reset_and_hazards.md R220), with the check of R66 made when the
table is given: an ill-formed table, opcode map or shift, or memory that is not canonical, gives no machine. -/
def State.construct (regs : Regs) (bus : Bus) (params : Params) : Option State :=
  if bus.mem.wf ∧ tableWf bus.shape ∧ params.wf = true then some (State.initial regs bus params) else none

/-- What is left of a range beside another: the part below it and the part above it, where they are not empty. -/
def Range.without (w r : Range) : List Range :=
  [{ start := r.start, stop := min r.stop w.start }, { start := max r.start w.stop, stop := r.stop }].filter
    (fun p => decide (p.start < p.stop))

/-- The device with the addresses of a range taken out of its own ranges. -/
def Device.without (w : Range) (d : Device) : Device := { d with ranges := d.ranges.flatMap (Range.without w) }

/-- The device table with a plain-memory device in front that holds a range, which the others give up, so that no two
ranges overlap (R66 (b); log 4). -/
def Bus.withWindow (b : Bus) (w : Range) : Bus :=
  { b with devices := { kind := .memory, ranges := [w], state := 0 } :: b.devices.map (Device.without w) }

/-- Every device of the table is a plain byte array. -/
def Bus.plain (b : Bus) : Bool := b.devices.all (fun d => decide (d.kind = .memory))

end Sys2Proof.Machine
end

