-- ==== Sys2Proof/Machine/Operands.lean ====
section
/-! DEFINITION. Reading and writing registers through ids, with the capability check and the alias merge
(10_state.md R36 to R39, R44), operand values (00_scope.md R13, R14) and width conversion (42_mov.md R164). -/

namespace Sys2Proof.Machine

/-- The contents of a backing register, zero-extended to 32 bits. -/
def Regs.get (g : Regs) : Backing → Word32
  | .a => g.a
  | .b => g.b
  | .c => g.c
  | .d => g.d
  | .sp => g.sp
  | .bp => g.bp
  | .si => g.si
  | .di => g.di
  | .rp => g.rp
  | .rop => g.rop.setWidth 32
  | .codeOfs => g.codeOfs.setWidth 32
  | .dataOfs => g.dataOfs.setWidth 32
  | .extraOfs => g.extraOfs.setWidth 32
  | .stackOfs => g.stackOfs.setWidth 32
  | .idtp => g.idtp
  | .idtl => g.idtl
  | .pc => g.pc
  | .flags => g.flags

/-- The register file with one backing register replaced by the low bits of a value. -/
def Regs.set (g : Regs) (r : Backing) (v : Word32) : Regs :=
  match r with
  | .a => { g with a := v }
  | .b => { g with b := v }
  | .c => { g with c := v }
  | .d => { g with d := v }
  | .sp => { g with sp := v }
  | .bp => { g with bp := v }
  | .si => { g with si := v }
  | .di => { g with di := v }
  | .rp => { g with rp := v }
  | .rop => { g with rop := v.setWidth 8 }
  | .codeOfs => { g with codeOfs := v.setWidth 16 }
  | .dataOfs => { g with dataOfs := v.setWidth 16 }
  | .extraOfs => { g with extraOfs := v.setWidth 16 }
  | .stackOfs => { g with stackOfs := v.setWidth 16 }
  | .idtp => { g with idtp := v }
  | .idtl => { g with idtl := v }
  | .pc => { g with pc := v }
  | .flags => { g with flags := v }

/-- The carry flag `FLAGS[0]` (10_state.md R40). -/
def State.carry (s : State) : Bool := s.regs.flags.getLsbD 0

/-- The test-mode bit `FLAGS[4]` (R40, R42). -/
def State.testMode (s : State) : Bool := s.regs.flags.getLsbD 4

/-- The privilege level `FLAGS[7:6]` (R40, R44). -/
def State.privilege (s : State) : BitVec 2 := s.regs.flags.extractLsb' 6 2

/-- `can_access(FLAGS[7:6], id, kind)` (R39, 60_exceptions.md R207). -/
def State.canAccess (s : State) (id : Byte) (kind : AccessKind) : Bool :=
  !(s.params.denied.contains { level := s.privilege, id, kind })

/-- The span of a backing register's contents as a tagged value (R36 step 3). -/
def readSpan (old : Word32) : Span → RegVal
  | .dword => .dword old
  | .word => .word (old.extractLsb' 0 16)
  | .lowByte => .byte (old.extractLsb' 0 8)
  | .highByte => .byte (old.extractLsb' 8 8)

/-- The alias merge (R37 steps 3 and 4): the masks of the rule, and none when the widths differ. -/
def mergeSpan (old : Word32) : Span → RegVal → Option Word32
  | .dword, .dword v => some v
  | .word, .word v => some ((old &&& 0xffff0000#32) ||| v.setWidth 32)
  | .lowByte, .byte v => some ((old &&& 0xffffff00#32) ||| v.setWidth 32)
  | .highByte, .byte v => some ((old &&& 0xffff00ff#32) ||| (v.setWidth 32 <<< 8))
  | _, _ => none

/-- The value of a view. -/
def Regs.readView (g : Regs) (w : View) : RegVal := readSpan (g.get w.reg) w.span

/-- The register file with a view replaced, or none when the widths differ (R37 steps 3 and 4). -/
def Regs.writeView (g : Regs) (w : View) (x : RegVal) : Option Regs :=
  (mergeSpan (g.get w.reg) w.span x).map (g.set w.reg)

/-- The view an id names on this machine (R27, R28). -/
def State.view (s : State) (id : Byte) : Option View := viewAt s.params.regOrder id

/-- The register read `x[id]` (R36): capability check, then `resolve`, then the value. -/
def readReg (id : Byte) (s : State) : Except ExceptionKind RegVal :=
  if s.canAccess id .read then
    match s.view id with
    | none => .error .invalidOperation
    | some w => .ok (s.regs.readView w)
  else .error .illegalOperation

/-- Steps 2 to 4 of a register write (R37): `resolve`, width check, merge. -/
def storeReg (id : Byte) (x : RegVal) (s : State) : Except ExceptionKind State :=
  match s.view id with
  | none => .error .invalidOperation
  | some w =>
    match s.regs.writeView w x with
    | none => .error .invalidOperation
    | some g => .ok { s with regs := g }

/-- The register write `x[id] <- v` (R37): the capability check first (R39). -/
def writeReg (id : Byte) (x : RegVal) (s : State) : Except ExceptionKind State :=
  if s.canAccess id .write then storeReg id x s else .error .illegalOperation

/-- `val(o)` (R14): an immediate's value, or a register read. -/
def readOperand (o : Operand) (s : State) : Except ExceptionKind RegVal :=
  match o with
  | .imm8 v => .ok (.byte v)
  | .imm16 v => .ok (.word v)
  | .reg id => readReg id s

/-- The width of the view an id names, found without reading state (42_mov.md R166). -/
def viewWidth (id : Byte) : Option Width := (resolve id).map (fun x => x.span.width)

/-- `extend(x, M, sx)` (40_regval_alu.md R112): identity at equal width, absent to a narrower width. -/
def extendVal (x : RegVal) (m : Width) (sx : Bool) : Option RegVal :=
  match x, m with
  | .byte v, .w8 => some (.byte v)
  | .byte v, .w16 => some (.word (if sx then sext 16 v else zext 16 v))
  | .byte v, .w32 => some (.dword (if sx then sext 32 v else zext 32 v))
  | .word _, .w8 => none
  | .word v, .w16 => some (.word v)
  | .word v, .w32 => some (.dword (if sx then sext 32 v else zext 32 v))
  | .dword _, .w8 => none
  | .dword _, .w16 => none
  | .dword v, .w32 => some (.dword v)

/-- The low bits of a value at a width not wider than its own (42_mov.md R164). -/
def truncVal (x : RegVal) (m : Width) : RegVal :=
  match x, m with
  | .word v, .w8 => .byte (trunc 8 v)
  | .dword v, .w8 => .byte (trunc 8 v)
  | .dword v, .w16 => .word (trunc 16 v)
  | x, _ => x

/-- `conv(x, M, sx)` (42_mov.md R164): extends where `extend` has a value, truncates where it is absent. -/
def convVal (x : RegVal) (m : Width) (sx : Bool) : RegVal :=
  match extendVal x m sx with
  | some y => y
  | none => truncVal x m

end Sys2Proof.Machine
end

