-- ==== Sys2Proof/Machine/Flags.lean ====
section
/-! DEFINITION. Flag updates and the ALU: `add_N`, `sub_N`, `mul_N`, `imul_N`, `div_N`, `idiv_N` with their flags
(40_regval_alu.md R110 to R128), and the flag merge (00_scope.md R15, 10_state.md R41). -/

namespace Sys2Proof.Machine

/-- A flag update `{C, N, V, Z}` (R15). -/
structure FlagUpdate where
  carry : Bool
  negative : Bool
  overflow : Bool
  zero : Bool
  deriving DecidableEq, Repr

/-- `nib(fl) = C + 2 N + 4 V + 8 Z` (R15). -/
def FlagUpdate.nib (f : FlagUpdate) : BitVec 4 :=
  BitVec.ofNat 4 (f.carry.toNat + 2 * f.negative.toNat + 4 * f.overflow.toNat + 8 * f.zero.toNat)

/-- The flag merge `FLAGS[3:0] <- nib(fl)` (R15, R41): bits 4 to 31 keep their values. -/
def mergeNib (flags : Word32) (f : FlagUpdate) : Word32 := (flags &&& 0xfffffff0#32) ||| f.nib.setWidth 32

/-- The flag merge on the state (R41). -/
def mergeFlags (f : FlagUpdate) (s : State) : State :=
  { s with regs := { s.regs with flags := mergeNib s.regs.flags f } }

/-- Whether an exact signed result lies outside the `n`-bit range (R114, R115). -/
def outOfRange (n : Nat) (x : Int) : Bool :=
  decide (x < -(2 : Int) ^ (n - 1)) || decide ((2 : Int) ^ (n - 1) - 1 < x)

/-- `add_N(a, b, cin)` (R114). -/
def addN {n : Nat} (a b : BitVec n) (cin : Bool) : BitVec n × FlagUpdate :=
  let s := a.toNat + b.toNat + cin.toNat
  let r := BitVec.ofNat n s
  (r, { carry := decide (2 ^ n ≤ s), negative := topBit r,
        overflow := outOfRange n (signedVal a + signedVal b + cin.toNat), zero := decide (r = 0) })

/-- `sub_N(a, b, bin)` (R115). -/
def subN {n : Nat} (a b : BitVec n) (bin : Bool) : BitVec n × FlagUpdate :=
  let d : Int := (a.toNat : Int) - b.toNat - bin.toNat
  let r := BitVec.ofInt n d
  (r, { carry := decide (d < 0), negative := topBit r,
        overflow := outOfRange n (signedVal a - signedVal b - bin.toNat), zero := decide (r = 0) })

/-- The flag update of both multiplies (R120). -/
def mulFlags {n : Nat} (lo hi : BitVec n) : FlagUpdate :=
  { carry := false, negative := topBit hi, overflow := decide (hi ≠ 0), zero := decide (lo = 0) && decide (hi = 0) }

/-- `mul_N(a, b)`: low half, high half, flags (R118, R120). -/
def mulN {n : Nat} (a b : BitVec n) : BitVec n × BitVec n × FlagUpdate :=
  let h := splitHalves (BitVec.ofNat (2 * n) (a.toNat * b.toNat))
  (h.1, h.2, mulFlags h.1 h.2)

/-- `imul_N(a, b)` (R119, R120). -/
def imulN {n : Nat} (a b : BitVec n) : BitVec n × BitVec n × FlagUpdate :=
  let h := splitHalves (BitVec.ofInt (2 * n) (signedVal a * signedVal b))
  (h.1, h.2, mulFlags h.1 h.2)

/-- The flag update of both divides (R125). -/
def divFlags {n : Nat} (q r : BitVec n) : FlagUpdate :=
  { carry := false, negative := topBit q, overflow := false, zero := decide (r = 0) }

/-- `div_N(lo, hi, rhs)`: quotient, remainder, flags; absent for a zero divisor (R121 to R123, R125). -/
def divN {n : Nat} (lo hi rhs : BitVec n) : Option (BitVec n × BitVec n × FlagUpdate) :=
  if rhs = 0 then none
  else
    let dividend := (mergeHalves lo hi).toNat
    let q := BitVec.ofNat n (dividend / rhs.toNat)
    let r := BitVec.ofNat n (dividend % rhs.toNat)
    some (q, r, divFlags q r)

/-- `idiv_N(lo, hi, rhs)`: the quotient is rounded toward zero and the remainder follows the dividend; absent for a
zero divisor and for `-2^(2N-1)` by `-1` (R121, R123 to R126). -/
def idivN {n : Nat} (lo hi rhs : BitVec n) : Option (BitVec n × BitVec n × FlagUpdate) :=
  let dividend := signedVal (mergeHalves lo hi)
  let divisor := signedVal rhs
  if rhs = 0 then none
  else if dividend = -(2 : Int) ^ (2 * n - 1) ∧ divisor = -1 then none
  else
    let q := BitVec.ofInt n (dividend.tdiv divisor)
    let r := BitVec.ofInt n (dividend.tmod divisor)
    some (q, r, divFlags q r)

/-- A function of two values and a carry on tagged values: absent unless the widths are equal (R110, R111). -/
def lift2 (f : {n : Nat} → BitVec n → BitVec n → Bool → BitVec n × FlagUpdate) (a b : RegVal) (c : Bool) :
    Option (RegVal × FlagUpdate) :=
  match a, b with
  | .byte x, .byte y => let r := f x y c; some (.byte r.1, r.2)
  | .word x, .word y => let r := f x y c; some (.word r.1, r.2)
  | .dword x, .dword y => let r := f x y c; some (.dword r.1, r.2)
  | _, _ => none

/-- `add` on tagged values (R114). -/
def addVal (a b : RegVal) (c : Bool) : Option (RegVal × FlagUpdate) := lift2 addN a b c

/-- `sub` on tagged values (R115). -/
def subVal (a b : RegVal) (c : Bool) : Option (RegVal × FlagUpdate) := lift2 subN a b c

/-- A multiply on tagged values (R110, R118, R119). -/
def liftMul (f : {n : Nat} → BitVec n → BitVec n → BitVec n × BitVec n × FlagUpdate) (a b : RegVal) :
    Option (RegVal × RegVal × FlagUpdate) :=
  match a, b with
  | .byte x, .byte y => let r := f x y; some (.byte r.1, .byte r.2.1, r.2.2)
  | .word x, .word y => let r := f x y; some (.word r.1, .word r.2.1, r.2.2)
  | .dword x, .dword y => let r := f x y; some (.dword r.1, .dword r.2.1, r.2.2)
  | _, _ => none

/-- `mul` on tagged values (R118). -/
def mulVal (a b : RegVal) : Option (RegVal × RegVal × FlagUpdate) := liftMul mulN a b

/-- `imul` on tagged values (R119). -/
def imulVal (a b : RegVal) : Option (RegVal × RegVal × FlagUpdate) := liftMul imulN a b

/-- A divide on tagged values (R110, R121): absent also where the function is. -/
def liftDiv (f : {n : Nat} → BitVec n → BitVec n → BitVec n → Option (BitVec n × BitVec n × FlagUpdate))
    (lo hi rhs : RegVal) : Option (RegVal × RegVal × FlagUpdate) :=
  match lo, hi, rhs with
  | .byte x, .byte y, .byte z => (f x y z).map (fun r => (.byte r.1, .byte r.2.1, r.2.2))
  | .word x, .word y, .word z => (f x y z).map (fun r => (.word r.1, .word r.2.1, r.2.2))
  | .dword x, .dword y, .dword z => (f x y z).map (fun r => (.dword r.1, .dword r.2.1, r.2.2))
  | _, _, _ => none

/-- `div` on tagged values: low half, high half, divisor (R122). -/
def divVal (lo hi rhs : RegVal) : Option (RegVal × RegVal × FlagUpdate) := liftDiv divN lo hi rhs

/-- `idiv` on tagged values (R124). -/
def idivVal (lo hi rhs : RegVal) : Option (RegVal × RegVal × FlagUpdate) := liftDiv idivN lo hi rhs

end Sys2Proof.Machine
end

