-- ==== Sys2Proof/Machine/Ops.lean ====
section
/-! DEFINITION. The shared operations of the instructions: trap entry (60_exceptions.md R198, R199), the move primitive
(42_mov.md R166), the arithmetic bindings (43_arith.md R178, R183), and the end of a cycle (R149, R201, R204).
There is no return-from-trap operation: a handler returns with `MOV RP.w, PC.w` (R202). -/

namespace Sys2Proof.Machine

/-- The flat `PC` components that trap entry saves, for `RP` and for `ROP` (R199): `PC` and `CO[7:0]` by decision D6,
a free value under any other (log 18). -/
def savedComponents (save : TrapSave) (pc : Word32) (co : Word16) : Word32 × Byte :=
  match save with
  | .pcAndOffset => (pc, co.setWidth 8)
  | .other m => Config.otherSave m pc co

/-- `trap_entry(kind)` (R198): saves the flat `PC` components in `RP` and `ROP` (R199), tells upstream the kind (R201),
and changes nothing else. No capability check, not suppressed by test mode. -/
def trapEntry (kind : ExceptionKind) (s : State) : State :=
  let saved := savedComponents s.params.trapSave s.regs.pc s.regs.codeOfs
  { s with
    regs := { s.regs with rp := saved.1, rop := saved.2 }
    report := { s.report with raised := some kind } }

/-- The end of an execute stage: the state it commits, or trap entry from the state before it (R196, R200). -/
def finish (s : State) (r : Except ExceptionKind State) : Host.Outcome State Fault Refusal :=
  match r with
  | .ok t => .next t
  | .error kind => .next (trapEntry kind s)

/-- `mov_common(src, dest, sx)` (R166), the checks in its order; test mode suppresses the write (R162). -/
def movCommon (src dest : Operand) (sx : Bool) (s : State) : Except ExceptionKind State :=
  match dest with
  | .imm8 _ | .imm16 _ => .error .invalidOperation
  | .reg id => do
    let x ← readOperand src s
    match viewWidth id with
    | none => .error .invalidOperation
    | some m => if s.testMode then .ok s else writeReg id (convVal x m sx) s

/-- The flag merge of phase 4 (R172, R173). `testMode` is the bit as it stood when the instruction began (log 12). -/
def mergeUnlessGated (testMode : Bool) (f : FlagUpdate) (s : State) : State :=
  if testMode && s.params.testModeGatesFlags then s else mergeFlags f s

/-- Phase 4 of a two-operand instruction (R178). -/
def commit2 (id : Byte) (r : RegVal) (f : FlagUpdate) (s : State) : Except ExceptionKind State :=
  if s.testMode then .ok (mergeUnlessGated true f s)
  else do
    let t ← writeReg id r s
    .ok (mergeUnlessGated false f t)

/-- `arith2(src, dest, f, cin)` (R178). -/
def arith2 (f : RegVal → RegVal → Bool → Option (RegVal × FlagUpdate)) (cin : Bool) (src dest : Operand) (s : State) :
    Except ExceptionKind State :=
  match dest with
  | .imm8 _ | .imm16 _ => .error .invalidOperation
  | .reg id => do
    let b ← readOperand src s
    let a ← readReg id s
    if a.width = b.width then
      match f a b cin with
      | none => .error .invalidOperation
      | some (r, fl) => commit2 id r fl s
    else .error .invalidOperation

/-- `commit3` (R183): both capability checks come before the first write (R170; log 13), the low destination is written
before the high one, the flag merge is last (R173). The destinations may be `PC.w` and `CO`, so that one instruction
changes both: DEDUCED from R183, against a sentence of 42_mov.md R165 (log 19). -/
def commit3 (lo hi : Byte) (vlo vhi : RegVal) (f : FlagUpdate) (s : State) : Except ExceptionKind State :=
  if s.testMode then .ok (mergeUnlessGated true f s)
  else if !s.canAccess lo .write then .error .illegalOperation
  else if !s.canAccess hi .write then .error .illegalOperation
  else do
    let t ← storeReg lo vlo s
    let u ← storeReg hi vhi t
    .ok (mergeUnlessGated false f u)

/-- `arith3_mul(src, dlo, dhi, m)` (R183): `dhi` is written and not read. -/
def arith3Mul (m : RegVal → RegVal → Option (RegVal × RegVal × FlagUpdate)) (src dlo dhi : Operand) (s : State) :
    Except ExceptionKind State :=
  match dlo, dhi with
  | .reg lo, .reg hi => do
    let b ← readOperand src s
    let a ← readReg lo s
    if a.width = b.width ∧ viewWidth hi = some a.width then
      match m a b with
      | none => .error .invalidOperation
      | some (vlo, vhi, fl) => commit3 lo hi vlo vhi fl s
    else .error .invalidOperation
  | _, _ => .error .invalidOperation

/-- `arith3_div(src, dlo, dhi, d)` (R183): an absent result is `InvalidOperation` (R123, R126). -/
def arith3Div (d : RegVal → RegVal → RegVal → Option (RegVal × RegVal × FlagUpdate)) (src dlo dhi : Operand)
    (s : State) : Except ExceptionKind State :=
  match dlo, dhi with
  | .reg lo, .reg hi => do
    let b ← readOperand src s
    let vl ← readReg lo s
    let vh ← readReg hi s
    if vl.width = b.width ∧ vh.width = b.width then
      match d vl vh b with
      | none => .error .invalidOperation
      | some (q, r, fl) => commit3 lo hi q r fl s
    else .error .invalidOperation
  | _, _ => .error .invalidOperation

/-- The start of a cycle: nothing has been reported yet (log 11). -/
def beginCycle (s : State) : State := { s with report := { raised := none, clock := [] } }

/-- Every device's `clock()` is polled once, in table order, and the results go into the report (R149, R204). -/
def pollClocks (s : State) : State :=
  let r := s.bus.clockAll
  { s with bus := r.2, report := { s.report with clock := r.1 } }

/-- Upstream receives the report of the cycle (R201, R204): the default does nothing, any other is a free value
(log 10). -/
def tellUpstream (s : State) : State :=
  match s.params.upstream with
  | .quiet => s
  | .external m =>
    let r := Config.upstreamStep m s.upstreamState s.report s.regs
    { s with upstreamState := r.1, regs := r.2 }

/-- The end of a cycle, also of one that raised: the poll, then upstream (R149, R201). -/
def endCycle (s : State) : State := tellUpstream (pollClocks s)

end Sys2Proof.Machine
end

