-- ==== Sys2Proof/Machine/Arith.lean ====
section
/-! DEFINITION. The arithmetic instructions (43_arith.md). -/

namespace Sys2Proof.Machine

/-- `ADD src, dest`: `dest <- dest + src` (R174). -/
def execAdd (src dest : Operand) (s : State) : Host.Outcome State Fault Refusal :=
  finish s (arith2 addVal false src dest s)

/-- `ADC src, dest`: `dest <- dest + src + C` (R175). -/
def execAdc (src dest : Operand) (s : State) : Host.Outcome State Fault Refusal :=
  finish s (arith2 addVal s.carry src dest s)

/-- `SUB src, dest`: `dest <- dest - src` (R176). -/
def execSub (src dest : Operand) (s : State) : Host.Outcome State Fault Refusal :=
  finish s (arith2 subVal false src dest s)

/-- `SBB src, dest`: `dest <- dest - src - C` (R177). -/
def execSbb (src dest : Operand) (s : State) : Host.Outcome State Fault Refusal :=
  finish s (arith2 subVal s.carry src dest s)

/-- `MUL src, dlo, dhi`: `(dlo, dhi) <- dlo * src`, unsigned (R179). -/
def execMul (src dlo dhi : Operand) (s : State) : Host.Outcome State Fault Refusal :=
  finish s (arith3Mul mulVal src dlo dhi s)

/-- `IMUL src, dlo, dhi`: the signed product (R180). -/
def execImul (src dlo dhi : Operand) (s : State) : Host.Outcome State Fault Refusal :=
  finish s (arith3Mul imulVal src dlo dhi s)

/-- `DIV src, dlo, dhi`: `(dhi:dlo)` by `src`, quotient to `dlo`, remainder to `dhi`, unsigned (R181). -/
def execDiv (src dlo dhi : Operand) (s : State) : Host.Outcome State Fault Refusal :=
  finish s (arith3Div divVal src dlo dhi s)

/-- `IDIV src, dlo, dhi`: the signed division (R182). -/
def execIdiv (src dlo dhi : Operand) (s : State) : Host.Outcome State Fault Refusal :=
  finish s (arith3Div idivVal src dlo dhi s)

end Sys2Proof.Machine
end

