-- ==== Sys2Proof/Machine/Move.lean ====
section
/-! DEFINITION. The move instructions (42_mov.md). -/

namespace Sys2Proof.Machine

/-- `MOV src, dest`: the zero-extending move (R160). -/
def execMov (src dest : Operand) (s : State) : Host.Outcome State Fault Refusal :=
  finish s (movCommon src dest false s)

/-- `MOVSX src, dest`: the sign-extending move (R161). -/
def execMovsx (src dest : Operand) (s : State) : Host.Outcome State Fault Refusal :=
  finish s (movCommon src dest true s)

end Sys2Proof.Machine
end

