-- ==== Sys2Proof/Machine/Dispatch.lean ====
section
/-! DEFINITION. The meaning of each instruction, one arm per constructor (41_fetch_decode.md R148). -/

namespace Sys2Proof.Machine

def exec (i : Instr) (s : State) : Host.Outcome State Fault Refusal :=
  match i with
  | .mov src dest => Sys2Proof.Machine.execMov src dest s
  | .movsx src dest => Sys2Proof.Machine.execMovsx src dest s
  | .add src dest => Sys2Proof.Machine.execAdd src dest s
  | .adc src dest => Sys2Proof.Machine.execAdc src dest s
  | .sub src dest => Sys2Proof.Machine.execSub src dest s
  | .sbb src dest => Sys2Proof.Machine.execSbb src dest s
  | .mul src dlo dhi => Sys2Proof.Machine.execMul src dlo dhi s
  | .imul src dlo dhi => Sys2Proof.Machine.execImul src dlo dhi s
  | .div src dlo dhi => Sys2Proof.Machine.execDiv src dlo dhi s
  | .idiv src dlo dhi => Sys2Proof.Machine.execIdiv src dlo dhi s

end Sys2Proof.Machine
end

