-- ==== Sys2Proof/Machine/Fetch.lean ====
section
/-! DEFINITION. Fetching an instruction: the flat address (20_memory.md R60), `Fetch8` (41_fetch_decode.md R140), the
operand loop (R142 to R146) under fuel (70_reset_and_hazards.md R228), and dispatch (R148). -/

namespace Sys2Proof.Machine

/-- `flat(PC, CO)` (R60): the low word of `PC` plus `CO` shifted left by `SEG_SHIFT`, which decision D1 fixes at 16
(log 18). -/
def flat (shift : Nat) (pc : Word32) (co : Word16) : Addr :=
  (pc.extractLsb' 0 16).setWidth 32 + (co.setWidth 32 <<< shift)

/-- The flat address of the next byte to fetch. -/
def State.fetchAddr (s : State) : Addr := flat s.params.segShift s.regs.pc s.regs.codeOfs

/-- The state with another program counter. -/
def State.withPc (s : State) (pc : Word32) : State := { s with regs := { s.regs with pc } }

/-- `Fetch8()` (R140): one bus byte read at the flat address, `PC` advanced by one; no capability check. -/
def fetch8 (s : State) : Byte × State :=
  let r := s.bus.read8 s.fetchAddr
  (r.1, { s with bus := r.2, regs := { s.regs with pc := s.regs.pc + 1 } })

/-- How the operand loop ends. -/
inductive LoopResult where
  /-- At the terminator, un-consumed (R143). -/
  | done (ops : List Operand) (s : State)
  /-- At an invalid register id, `PC` already past it (R146). -/
  | invalid (s : State)
  /-- The fuel is used up: stuck, undecided (R228). -/
  | stuck
  deriving DecidableEq, Repr

/-- The operand loop (R142), one unit of fuel an item; `ops` holds the items collected so far, the last first. -/
def operandLoop : Nat → List Operand → State → LoopResult
  | 0, _, _ => .stuck
  | fuel + 1, ops, s =>
    let f := fetch8 s
    match classify f.1 with
    | .terminator => .done ops.reverse (f.2.withPc (f.2.regs.pc - 1))
    | .imm8 =>
      let i := fetch8 f.2
      operandLoop fuel (.imm8 i.1 :: ops) i.2
    | .imm16 =>
      let lo := fetch8 f.2
      let hi := fetch8 lo.2
      operandLoop fuel (.imm16 (wordLE lo.1 hi.1) :: ops) hi.2
    | .reg => operandLoop fuel (.reg f.1 :: ops) f.2
    | .invalid => .invalid f.2

/-- The fuel of the operand loop in items: in a window of 65,536 bytes of plain memory, the 65,537th item begins where
an earlier one began (log 8). -/
def operandFuel : Nat := 65537

/-- The result of fetch, decode and dispatch. -/
inductive FetchResult where
  /-- An instruction to execute, `PC` at the next opcode byte (R151). -/
  | instr (i : Instr) (s : State)
  /-- `InvalidOperation` at decode or at dispatch, in the state it is raised in (R147, R148). -/
  | raised (s : State)
  /-- No end of the operand loop (R228). -/
  | stuck
  deriving DecidableEq, Repr

/-- Steps 1 to 4 of a cycle up to execution (R141 to R148). -/
def fetchInstr (s : State) : FetchResult :=
  let op := fetch8 s
  match operandLoop operandFuel [] op.2 with
  | .stuck => .stuck
  | .invalid t => .raised t
  | .done ops t =>
    match dispatch t.params.opc op.1 ops with
    | .error _ => .raised t
    | .ok i => .instr i t

/-- Stores bytes from an offset of the code window on, wrapping within the window (R61). -/
def storeWindow (shift : Nat) (co : Word16) : Word32 → List Byte → Memory → Memory
  | _, [], m => m
  | pc, b :: rest, m => storeWindow shift co (pc + 1) rest (m.write (flat shift pc co) b)

/-- The window of a code offset (R61): the 65,536 addresses from `flat(0, CO)` on. -/
def window (shift : Nat) (co : Word16) : Range :=
  { start := (flat shift 0 co).toNat, stop := (flat shift 0 co).toNat + 65536 }

/-- The state with a plain-memory device in front of the table that holds the window of `CO`, and bytes stored in it
from `PC` on (log 4). -/
def State.withProgram (s : State) (bytes : List Byte) : State :=
  { s with
    bus := { s.bus.withWindow (window s.params.segShift s.regs.codeOfs) with
             mem := storeWindow s.params.segShift s.regs.codeOfs s.regs.pc bytes s.bus.mem } }

end Sys2Proof.Machine
end

