-- ==== Sys2Proof/Machine/Step.lean ====
section
/-! DEFINITION. One machine cycle (41_fetch_decode.md R150). -/

namespace Sys2Proof.Machine

/-- One cycle: fetch, decode and dispatch; execute, or trap entry where decode or dispatch raises; then the poll and
upstream (R141 to R150). No next state when the operand loop does not end (R16, R228). -/
def step (s : State) : Host.Outcome State Fault Refusal :=
  match fetchInstr (beginCycle s) with
  | .stuck => .fault .stuck
  | .raised t => .next (endCycle (trapEntry .invalidOperation t))
  | .instr i t =>
    match exec i t with
    | .next u => .next (endCycle u)
    | .fault f => .fault f
    | .refused r => .refused r

/-- The state with an instruction, given by its low bits, where the next step fetches (log 4, log 16). -/
def State.withFetchWord (s : State) (nbits w : Nat) : State := s.withProgram (layout s.params.opc nbits w)

end Sys2Proof.Machine
end

