-- ==== Sys2Proof/Safety.lean ====
section
/-! DEFINITION. The terms in which statements speak of the machine: the invariant of a well-formed machine, what an
instruction may touch, fetching several bytes, and runs that raise nothing. -/

namespace Sys2Proof.Machine

/-- The state is well formed: the memory is canonical (log 5), the device table meets 20_memory.md R66 and decision
D24, the opcode map meets 30_encoding.md R96 and R97, and the code offset is shifted by 16 (decision D1). -/
abbrev State.inv (s : State) : Prop :=
  s.bus.mem.wf ∧ tableWf s.bus.shape ∧ s.params.wf = true

/-- Upstream is the default, which does nothing (60_exceptions.md R201). -/
abbrev State.quiet (s : State) : Prop := s.params.upstream = .quiet

/-- The last cycle raised nothing. -/
abbrev State.clean (s : State) : Prop := s.report.raised = none

/-- A safe run: `n` cycles from a state, every one with a next state that raised nothing. -/
def safeRun : Nat → State → Prop
  | 0, _ => True
  | n + 1, s => ∃ t, step s = .next t ∧ t.clean ∧ safeRun n t

/-- `n` calls of `Fetch8` in a row: the bytes and the state after. -/
def fetchMany : Nat → State → List Byte × State
  | 0, s => ([], s)
  | n + 1, s =>
    let f := fetch8 s
    let r := fetchMany n f.2
    (f.1 :: r.1, r.2)

/-- The accesses of each instruction to its operands, each checked where the operand is a register (42_mov.md R166,
43_arith.md R178, R183): a multiply does not read its high destination. -/
def operandAccesses (i : Instr) : List (Operand × AccessKind) :=
  match i with
  | .mov s d | .movsx s d => [(s, .read), (d, .write)]
  | .add s d | .adc s d | .sub s d | .sbb s d => [(s, .read), (d, .read), (d, .write)]
  | .mul s l h | .imul s l h => [(s, .read), (l, .read), (l, .write), (h, .write)]
  | .div s l h | .idiv s l h => [(s, .read), (l, .read), (h, .read), (l, .write), (h, .write)]

/-- Whether a span holds bit `n` of its register (10_state.md R28). -/
def coversBit : Span → Nat → Bool
  | .dword, n => decide (n < 32)
  | .word, n => decide (n < 16)
  | .lowByte, n => decide (n < 8)
  | .highByte, n => decide (8 ≤ n) && decide (n < 16)

/-- Whether an operand names a view that holds bit `n` of register `r`. -/
def operandTouches (p : Params) (o : Operand) (r : Backing) (n : Nat) : Bool :=
  match o with
  | .reg id =>
    match viewAt p.regOrder id with
    | some w => decide (w.reg = r) && coversBit w.span n
    | none => false
  | _ => false

/-- Whether the instruction performs the flag merge: the eight arithmetic ones (R41). -/
def mergesFlags (i : Instr) : Bool :=
  match i with
  | .mov _ _ | .movsx _ _ => false
  | .add _ _ | .adc _ _ | .sub _ _ | .sbb _ _ => true
  | .mul _ _ _ | .imul _ _ _ | .div _ _ _ | .idiv _ _ _ => true

/-- Whether an instruction may change bit `n` of register `r` when it does not raise: the bits of its destination
views, and `FLAGS[3:0]` for the arithmetic instructions. -/
def touches (p : Params) (i : Instr) (r : Backing) (n : Nat) : Bool :=
  i.destinations.any (fun o => operandTouches p o r n) || (mergesFlags i && decide (r = .flags) && decide (n < 4))

/-- Two states agree on everything but the named register bits; memory, devices and arguments included. -/
def sameExcept (touched : Backing → Nat → Bool) (s t : State) : Prop :=
  t.bus = s.bus ∧ t.params = s.params ∧ t.report = s.report ∧ t.upstreamState = s.upstreamState ∧
    ∀ r n, touched r n = false → (t.regs.get r).getLsbD n = (s.regs.get r).getLsbD n

/-- The signed number of a tagged value (00_scope.md R12). -/
def signedOf : RegVal → Int
  | .byte v => signedVal v
  | .word v => signedVal v
  | .dword v => signedVal v

/-- The state with another `ROP`. -/
def State.withRop (s : State) (x : Byte) : State := { s with regs := { s.regs with rop := x } }

/-- The capability policy refuses every write, at level `l`, to every view of register `r`. -/
def writeProtected (p : Params) (l : BitVec 2) (r : Backing) : Prop :=
  ∀ id w, viewAt p.regOrder id = some w → w.reg = r → p.denied.contains { level := l, id, kind := .write } = true

/-- The table of valid register ids as 10_state.md R34 lists it: 38 rows (log 17). -/
def idTable : List (Byte × View) :=
  [(0x00, ⟨.a, .dword⟩), (0x01, ⟨.a, .word⟩), (0x02, ⟨.a, .lowByte⟩), (0x03, ⟨.a, .highByte⟩),
  (0x04, ⟨.b, .dword⟩), (0x05, ⟨.b, .word⟩), (0x06, ⟨.b, .lowByte⟩), (0x07, ⟨.b, .highByte⟩),
  (0x08, ⟨.c, .dword⟩), (0x09, ⟨.c, .word⟩), (0x0a, ⟨.c, .lowByte⟩), (0x0b, ⟨.c, .highByte⟩),
  (0x0c, ⟨.d, .dword⟩), (0x0d, ⟨.d, .word⟩), (0x0e, ⟨.d, .lowByte⟩), (0x0f, ⟨.d, .highByte⟩),
  (0x10, ⟨.sp, .word⟩), (0x11, ⟨.sp, .dword⟩), (0x12, ⟨.bp, .word⟩), (0x13, ⟨.bp, .dword⟩), (0x14, ⟨.si, .word⟩),
  (0x15, ⟨.si, .dword⟩), (0x16, ⟨.di, .word⟩), (0x17, ⟨.di, .dword⟩), (0x18, ⟨.rp, .word⟩), (0x19, ⟨.rp, .dword⟩),
  (0x20, ⟨.codeOfs, .word⟩), (0x21, ⟨.dataOfs, .word⟩), (0x22, ⟨.extraOfs, .word⟩), (0x23, ⟨.stackOfs, .word⟩),
  (0x28, ⟨.idtp, .word⟩), (0x29, ⟨.idtp, .dword⟩), (0x2a, ⟨.idtl, .word⟩), (0x2b, ⟨.idtl, .dword⟩),
  (0x2c, ⟨.pc, .word⟩), (0x2d, ⟨.pc, .dword⟩), (0x2e, ⟨.flags, .word⟩), (0x2f, ⟨.flags, .dword⟩)]

end Sys2Proof.Machine
end

