-- ==== Sys2Proof/Certificates/Slice0/Obligations.lean ====
section
/-! DEFINITION. The statements for the provers. A docstring names the decisions D<n> of 92_eei_decisions.md its
statement rests on (00_scope.md R17): where a decision is a field of the arguments the statement holds for every value of
the field or takes the value as a premise; the others are rules of the spec by log 14. D1, D4 and D6 are fields by log
18, which says what another value does. Where D11 may be any, its opcode bytes may: that the instructions are the ten
of D11, none of them a load or a store, every statement about an instruction or a step takes from the spec. -/

open Sys2Proof Sys2Proof.Machine

/-! ### Encoding -/

/-- Decoding the bytes of a well-formed instruction, followed by any terminator and any bytes, gives the instruction
back and stops at the terminator, for every well-formed opcode map (30_encoding.md R90 to R98). Rests on D5, D10, D14,
D15, D29 and D35; D11 may be any. -/
def Obligations.DecodeInvertsEncode : Prop :=
  ∀ (o : OpcodeMap) (i : Instr) (t : Byte) (rest : List Byte),
    o.wf = true → i.wf = true → t.msb = true → decode o (encode o i ++ t :: rest) = .ok (i, t :: rest)

/-- Bytes that decode are the encoding of the instruction they decode to, which is well formed, followed by a
terminator: no byte of the instruction is dropped and no other spelling is accepted (R91, R92, R95). Rests on D5, D10,
D12, D13, D14, D15, D29 and D35; D11 may be any. -/
def Obligations.DecodedBytesAreTheEncoding : Prop :=
  ∀ (o : OpcodeMap) (bytes rest : List Byte) (i : Instr), decode o bytes = .ok (i, rest) →
    bytes = encode o i ++ rest ∧ i.wf = true ∧ ∃ t tail, rest = t :: tail ∧ t.msb = true

/-- The worked encodings of R106, each followed by the terminator 0x80. D4 is behind the register names that R106
gives the ids. Rests on D4, D10, D11, D14, D15, D29 and D35. -/
def Obligations.WorkedEncodingsDecode : Prop :=
  decode .default [0x80, 0x70, 0xff, 0x07, 0x80] = .ok (.mov (.imm8 0xff) (.reg 0x07), [0x80]) ∧
  decode .default [0x80, 0x01, 0x08, 0x80] = .ok (.mov (.reg 0x01) (.reg 0x08), [0x80]) ∧
  decode .default [0x81, 0x71, 0xf6, 0xff, 0x08, 0x80] = .ok (.movsx (.imm16 0xfff6) (.reg 0x08), [0x80]) ∧
  decode .default [0x82, 0x06, 0x02, 0x80] = .ok (.add (.reg 0x06) (.reg 0x02), [0x80]) ∧
  decode .default [0x87, 0x70, 0x34, 0x02, 0x03, 0x80] = .ok (.imul (.imm8 0x34) (.reg 0x02) (.reg 0x03), [0x80]) ∧
  decode .default [0x80, 0x70, 0x80, 0x02, 0x80] = .ok (.mov (.imm8 0x80) (.reg 0x02), [0x80]) ∧
  decode .default [0x80, 0x71, 0x04, 0x00, 0x2c, 0x80] = .ok (.mov (.imm16 0x0004) (.reg 0x2c), [0x80])

/-- The reserved operand bytes of R102 make the operand loop fail, with `PC` past the byte and nothing more fetched
(R102, R146), wherever an operand item may begin. Rests on D3, D5, D26, D29 and D32; D1, D4 and D6 may be any; model's
choices: log 8. -/
def Obligations.ReservedOperandBytesFail : Prop :=
  ∀ (fuel : Nat) (ops : List Operand) (s : State) (b : Byte), (fetch8 s).1 = b →
    (0x1a ≤ b ∧ b ≤ 0x1f) ∨ (0x24 ≤ b ∧ b ≤ 0x27) ∨ (0x30 ≤ b ∧ b ≤ 0x6f) ∨ (0x72 ≤ b ∧ b ≤ 0x7f) →
    operandLoop (fuel + 1) ops s = .invalid (fetch8 s).2

/-! ### The cycle -/

/-- A step runs the decoded instruction: when `n` fetches from the start of the cycle give bytes that decode to `i`,
the last byte being the terminator, the step executes `i` in the state after those fetches, with `PC` back at the
terminator, and ends the cycle (41_fetch_decode.md R141 to R151). The devices may do anything on each read. That a
raise has a next state is the model's choice (log 9). That a device changes no register is log 7. Rests on D2, D3, D7,
D8, D10, D12, D13, D14, D15, D16, D18, D19, D20, D21, D22, D25, D26, D27, D28, D29, D30, D32, D34 and D35; D1, D4, D6
and D11 may be any; model's choices: log 7, log 9, log 10 and log 11. -/
def Obligations.StepRunsDecodedInstruction : Prop :=
  ∀ (n : Nat) (s t : State) (bytes : List Byte) (i : Instr) (term : Byte),
    fetchMany n (beginCycle s) = (bytes, t) → decode s.params.opc bytes = .ok (i, [term]) →
    ∃ u, exec i (t.withPc (t.regs.pc - 1)) = .next u ∧ step s = .next (endCycle u)

/-- On a bus of plain memory, when the bytes from the flat address of `PC` on, window wrap included, are the encoding
of a well-formed instruction and a terminator, the step executes it with `PC` advanced by its length (R151). That a
raise has a next state is the model's choice (log 9). Rests on D2, D3, D7, D8, D10, D12, D13, D14, D15, D16, D18, D19,
D20, D21, D22, D25, D26, D27, D28, D29, D30, D32, D34 and D35; D1, D4, D6 and D11 may be any; model's choices: log 5,
log 9, log 10 and log 11. -/
def Obligations.PlainMemoryStepRunsEncodedInstruction : Prop :=
  ∀ (s : State) (i : Instr) (term : Byte),
    s.bus.plain = true → s.params.opc.wf = true → i.wf = true → term.msb = true →
    (∀ k b, (encode s.params.opc i ++ [term])[k]? = some b →
      (s.bus.read8 (flat s.params.segShift (s.regs.pc + BitVec.ofNat 32 k) s.regs.codeOfs)).1 = b) →
    ∃ u, exec i ((beginCycle s).withPc (s.regs.pc + BitVec.ofNat 32 (encode s.params.opc i).length)) = .next u ∧
      step s = .next (endCycle u)

/-- An invalid register id as the last byte fetched, after operand items that the fuel admits (log 8):
`InvalidOperation` through trap entry, with `PC` past that byte (R146, R147, 60_exceptions.md R198). In test mode too
(D16). That a raise has a next state is the model's choice (log 9). Rests on D2, D3, D5, D8, D10, D12, D13, D16, D22,
D25, D26, D29, D30, D32 and D34; D1, D4, D6 and D11 may be any; model's choices: log 7, log 8, log 9, log 10 and log
11. -/
def Obligations.DecodeFailureTakesTrapEntry : Prop :=
  ∀ (n : Nat) (s t : State) (op b : Byte) (ops : List Operand), ops.all Operand.wf = true → ops.length < operandFuel →
    classify b = .invalid → fetchMany n (beginCycle s) = (op :: (ops.flatMap encodeOperand ++ [b]), t) →
    decode s.params.opc (op :: (ops.flatMap encodeOperand ++ [b])) = .error (.invalidRegister b) ∧
      step s = .next (endCycle (trapEntry .invalidOperation t))

/-- An unassigned opcode byte or a wrong operand count, found when the terminator has been fetched after operand items
that the fuel admits (log 8): `InvalidOperation` through trap entry, with `PC` at the terminator (R148, R200,
30_encoding.md R99 to R101). The row "80 70 then unmapped" of 95_test_vectors.md 2.6 is among them. In test mode
too (D16). That a raise has a next state is the model's choice (log 9). Rests on D2, D3, D5, D7, D8, D10, D12, D13,
D14, D15, D16, D22, D25, D26, D29, D30, D32, D34 and D35; D1, D4, D6 and D11 may be any; model's choices: log 7, log
8, log 9, log 10 and log 11. -/
def Obligations.DispatchFailureTakesTrapEntry : Prop :=
  ∀ (n : Nat) (s t : State) (op term : Byte) (ops : List Operand) (e : DecodeError),
    ops.all Operand.wf = true → ops.length < operandFuel → term.msb = true → dispatch s.params.opc op ops = .error e →
    fetchMany n (beginCycle s) = (op :: (ops.flatMap encodeOperand ++ [term]), t) →
    (e = .unassignedOpcode op ∨ e = .operandCount op ops.length) ∧
      decode s.params.opc (op :: (ops.flatMap encodeOperand ++ [term])) = .error e ∧
      step s = .next (endCycle (trapEntry .invalidOperation (t.withPc (t.regs.pc - 1))))

/-- A cycle has a next state, or its operand loop used up the fuel and it is stuck; no other stop exists (00_scope.md
R16; the fuel is log 8, that a raise has a next state is log 9). Rests on D3, D7, D8, D10, D12, D13, D14, D15, D16,
D18, D19, D20, D21, D22, D25, D26, D27, D28, D29, D30, D32, D34 and D35; D1, D4, D6 and D11 may be any; model's
choices: log 7, log 8, log 9 and log 10. -/
def Obligations.OnlyAnUnendingLoopStops : Prop :=
  ∀ s : State, (∃ t, step s = .next t) ∨
    (step s = .fault .stuck ∧ operandLoop operandFuel [] (fetch8 (beginCycle s)).2 = .stuck)

/-- On a bus of plain memory the hang is real: where the model is stuck, no amount of fuel ends the operand loop
(70_reset_and_hazards.md R228). The fuel is the model's choice (log 8), and so is plain memory, which a read does not
change (log 5). Rests on D2, D3, D10, D22, D26, D29 and D32; D1 and D4 may be any; model's choices: log 5 and log 8. -/
def Obligations.PlainMemoryStuckNeverEnds : Prop :=
  ∀ s : State, s.bus.plain = true → step s = .fault .stuck →
    ∀ fuel, operandLoop fuel [] (fetch8 (beginCycle s)).2 = .stuck

/-- With no device at all every fetch reads zero and the operand loop collects the register id 0x00 without end,
whatever the fuel (R226, R228); the model's step is then stuck (log 8). Rests on D3, D10, D26, D29 and D32; D1 and D4
may be any; model's choices: log 8. -/
def Obligations.NoDeviceIsStuck : Prop :=
  ∀ s : State, s.bus.devices = [] → step s = .fault .stuck ∧ ∀ fuel, operandLoop fuel [] s = .stuck

/-- At the end of every cycle, also one that raised, each device's `clock()` is called once, in table order, on the
devices as fetch and execution left them, and the results are reported (60_exceptions.md R204). `u` is that state:
trap entry from the state decode or dispatch raised in, or the result of executing the fetched instruction. That the
bytes of plain memory stay, and that no upstream touches a device or memory, is the model's (log 5, log 7, log 10).
That a raise has a next state is the model's choice (log 9). Rests on D2, D3, D7, D8, D10, D12, D13, D14, D15, D16,
D22, D25, D26, D29, D30, D32, D34, D35 and D36; D1, D4 and D6 may be any; model's choices: log 5, log 7, log 9, log 10
and log 11. -/
def Obligations.EveryCyclePollsTheClocks : Prop :=
  ∀ s t : State, step s = .next t →
    ∃ u : State,
      ((∃ v, fetchInstr (beginCycle s) = .raised v ∧ u = trapEntry .invalidOperation v) ∨
        ∃ i v, fetchInstr (beginCycle s) = .instr i v ∧ exec i v = .next u) ∧
      t = endCycle u ∧ u.bus.shape = s.bus.shape ∧
      t.report = { raised := u.report.raised, clock := u.bus.devices.map (fun d => d.clock.1) } ∧
      t.bus = { devices := u.bus.devices.map (fun d => d.clock.2), mem := s.bus.mem }

/-! ### Invariants of every step -/

/-- Every step keeps the machine well formed: the device table as R66 asks (D24), the opcode map as R97 asks (D11), an
index for every register of a class (D4), the shift of 16 (D1), and the canonical form of the memory, which is the
model's own (log 5). That no device and no upstream breaks that form is the model's too (log 7, log 10). Rests on D2,
D8, D24, D25 and D36; model's choices: log 2, log 5, log 7, log 10 and log 18. -/
def Obligations.StepKeepsTheInvariant : Prop :=
  ∀ s t : State, s.inv → step s = .next t → t.inv

/-- Construction checks what it is given (20_memory.md R66, D24; the shift of 16, D1; an index for every register of a
class, D4; the canonical memory, log 5): it gives a machine exactly when the arguments are well formed, that machine
is well formed, and the machine after reset, whose device table is the empty default (log 4), is the one constructed
from the defaults. The defaults are those of D9, D11 and the other arguments (log 1). Rests on D1, D2, D4, D6, D8, D9,
D11, D16, D24, D25 and D26; model's choices: log 1, log 2, log 3, log 4, log 5, log 10 and log 18. -/
def Obligations.ResetIsWellFormed : Prop :=
  State.reset.inv ∧ State.construct .zero { devices := [], mem := [] } defaultParams = some State.reset ∧
  ∀ (g : Regs) (b : Bus) (p : Params),
    ((State.construct g b p).isSome = true ↔ b.mem.wf ∧ tableWf b.shape ∧ p.wf = true) ∧
    ∀ s, State.construct g b p = some s → s.inv ∧ s.regs = g ∧ s.bus = b ∧ s.params = p

/-- No step changes the device table (20_memory.md R65), an argument of the model (log 2), or a byte of plain memory.
R75 says that no instruction writes to the bus; that no device and no upstream changes plain memory, where R82 lets a
device change its own contents, is the model's choice (log 5, log 7, log 10). Rests on D8, D25 and D36; D1, D4 and D6
may be any; model's choices: log 2, log 5, log 7 and log 10. -/
def Obligations.StepKeepsTheConfiguration : Prop :=
  ∀ s t : State, step s = .next t → t.params = s.params ∧ t.bus.shape = s.bus.shape ∧ t.bus.mem = s.bus.mem

/-- The default reset, the spec's decision D9 and the model's State.reset (log 1): every backing register zero, so the
first fetch is at flat address 0, whatever the shift of D1, the level is 0, test mode is off and C, N, V, Z are clear
(10_state.md R50). Rests on D2, D3 and D9; D1 may be any; model's choices: log 1. -/
def Obligations.ResetIsAllZero : Prop :=
  (∀ r, State.reset.regs.get r = 0) ∧ State.reset.fetchAddr = 0 ∧ State.reset.privilege = 0 ∧
    State.reset.testMode = false ∧ State.reset.regs.flags.extractLsb' 0 4 = 0

/-- Test mode is sticky (70_reset_and_hazards.md R229): no run leaves it, and along the run only `PC`, the flag nibble
and the registers of trap entry change. Upstream is the default. D6 counts here in that trap entry writes only `RP`
and `ROP`. Rests on D3, D6, D7, D8, D10, D12, D13, D14, D15, D16, D18, D21, D25, D26, D27, D28, D29, D30, D35 and D36;
model's choices: log 7, log 9, log 10, log 11, log 15 and log 18. -/
def Obligations.TestModeIsSticky : Prop :=
  ∀ (n : Nat) (s t : State), s.quiet → s.testMode = true → Sys2Proof.core.run n s = .next t →
    t.testMode = true ∧
    (∀ r, r ≠ .pc → r ≠ .flags → r ≠ .rp → r ≠ .rop → t.regs.get r = s.regs.get r) ∧
    ∀ k, 4 ≤ k → t.regs.flags.getLsbD k = s.regs.flags.getLsbD k

/-- Isolation by policy: where the policy refuses, at the current level, every write to `FLAGS` and to a register `r`
that neither the fetch engine nor trap entry writes, no run changes `r` or the level (10_state.md R39, R207). Upstream
is the default. D6 counts here in that trap entry writes only `RP` and `ROP`. That a write to `FLAGS` by its id is an
ordinary checked write is D28. That fetching never carries into `CO`, which may be `r`, is D3. Rests on D3, D6, D7,
D8, D10, D12, D13, D14, D15, D16, D17, D18, D21, D25, D26, D27, D28, D29, D30, D35 and D36; D4 may be any; model's
choices: log 3, log 7, log 9, log 10, log 11, log 13 and log 18. -/
def Obligations.PolicyProtectsRegisters : Prop :=
  ∀ (n : Nat) (s t : State) (r : Backing), s.quiet → writeProtected s.params s.privilege .flags →
    writeProtected s.params s.privilege r → r ≠ .pc → r ≠ .flags → r ≠ .rp → r ≠ .rop →
    Sys2Proof.core.run n s = .next t → t.regs.get r = s.regs.get r ∧ t.privilege = s.privilege

/-- `ROP` is state a program cannot observe (R35, R49): runs from two states that differ only in `ROP` differ only in
`ROP`. Upstream is the default. Rests on D2, D3, D5, D6, D7, D8, D10, D12, D13, D14, D15, D16, D17, D18, D19, D20,
D21, D22, D25, D26, D27, D28, D29, D30, D32, D34, D35 and D36; D4 may be any; model's choices: log 3, log 7, log 8,
log 9, log 10, log 11 and log 18. -/
def Obligations.RopIsUnobservable : Prop :=
  ∀ (n : Nat) (s : State) (x : Byte), s.quiet →
    (∀ t, Sys2Proof.core.run n s = .next t → ∃ y, Sys2Proof.core.run n (s.withRop x) = .next (t.withRop y)) ∧
    ∀ f, Sys2Proof.core.run n s = .fault f → Sys2Proof.core.run n (s.withRop x) = .fault f

/-! ### Registers -/

/-- In the listing order, decision D4, the valid ids and their views are the table of R34: 38 ids (the rule's own
count of 36 is a slip; log 17). Rests on D4 and D5; model's choices: log 17. -/
def Obligations.ResolveIsTheTable : Prop :=
  ∀ id w, viewAt .listing id = some w ↔ (id, w) ∈ idTable

/-- A register read (R36): the capability check, then `resolve`, then the bits of the span as a value of its width. The
hook it checks is the argument of D26; D4 may be any. -/
def Obligations.RegisterReadChecksThenSelects : Prop :=
  ∀ (s : State) (id : Byte),
    (s.canAccess id .read = false → readReg id s = .error .illegalOperation) ∧
    (s.canAccess id .read = true → resolve id = none → readReg id s = .error .invalidOperation) ∧
    ∀ w, s.canAccess id .read = true → s.view id = some w → ∃ x, readReg id s = .ok x ∧ x.width = w.span.width ∧
      x.toNat = match w.span with
        | .dword => (s.regs.get w.reg).toNat
        | .word => (s.regs.get w.reg).toNat % 2 ^ 16
        | .lowByte => (s.regs.get w.reg).toNat % 2 ^ 8
        | .highByte => (s.regs.get w.reg).toNat / 2 ^ 8 % 2 ^ 8

/-- A register write (R37): the capability check, then `resolve`, then the width check, then the merge of the rule,
`FLAGS` and segment offsets included; every other register, the bus and the arguments are unchanged. Rests on D5, D26,
D27 and D28; D4 may be any; model's choices: log 3. -/
def Obligations.RegisterWriteChecksThenMerges : Prop :=
  ∀ (s : State) (id : Byte) (x : RegVal),
    (s.canAccess id .write = false → writeReg id x s = .error .illegalOperation) ∧
    (s.canAccess id .write = true → resolve id = none → writeReg id x s = .error .invalidOperation) ∧
    ∀ w, s.canAccess id .write = true → s.view id = some w →
      (x.width ≠ w.span.width → writeReg id x s = .error .invalidOperation) ∧
      (x.width = w.span.width → ∃ t, writeReg id x s = .ok t ∧
        t = { s with regs := t.regs } ∧ (∀ r, r ≠ w.reg → t.regs.get r = s.regs.get r) ∧
        (t.regs.get w.reg).toNat = match w.span with
          | .dword => x.toNat
          | .word => (s.regs.get w.reg).toNat / 2 ^ 16 * 2 ^ 16 + x.toNat
          | .lowByte => (s.regs.get w.reg).toNat / 2 ^ 8 * 2 ^ 8 + x.toNat
          | .highByte => (s.regs.get w.reg).toNat / 2 ^ 16 * 2 ^ 16 + x.toNat * 2 ^ 8 + (s.regs.get w.reg).toNat % 2 ^ 8)

/-- The alias law (R38): after a write, reading the same id gives the value, and every bit of the file outside the
view keeps its value, whatever other view it is read through. Written for every view; for those of `FLAGS`, `PC`,
`CO`, `IDTP` and `IDTL` that they are ordinary stored bits is decision D27 and decision D28 of 92_eei_decisions.md.
Rests on D27 and D28; D4 may be any. -/
def Obligations.WritesKeepUntouchedBytes : Prop :=
  ∀ (s t : State) (id : Byte) (x : RegVal), writeReg id x s = .ok t →
    ∃ w, s.view id = some w ∧ t.regs.readView w = x ∧
      ∀ r n, ¬(w.reg = r ∧ coversBit w.span n = true) → (t.regs.get r).getLsbD n = (s.regs.get r).getLsbD n

/-- The flag merge replaces `FLAGS[3:0]` by `C + 2 N + 4 V + 8 Z` and leaves bits 31 to 4, every other register and all
of the state outside the registers (00_scope.md R15). -/
def Obligations.FlagMergeReplacesTheNibble : Prop :=
  ∀ (f : FlagUpdate) (s : State),
    (mergeFlags f s).regs.flags.toNat =
      s.regs.flags.toNat / 16 * 16 + (f.carry.toNat + 2 * f.negative.toNat + 4 * f.overflow.toNat + 8 * f.zero.toNat) ∧
    (∀ r, r ≠ .flags → (mergeFlags f s).regs.get r = s.regs.get r) ∧
    mergeFlags f s = { s with regs := (mergeFlags f s).regs }

/-! ### Exceptions -/

/-- Trap entry under decision D6 (60_exceptions.md R199): `RP <- PC`, `ROP <- CO[7:0]`; every other register, the bus
and the arguments keep their values, and the kind, a symbol by D30, is reported (R198), in test mode too (D16). Under
any other save (log 18) trap entry still changes nothing but `RP`, `ROP` and the report. Rests on D6, D16, D26 and
D30; model's choices: log 11 and log 18. -/
def Obligations.TrapEntrySavesPcAndCodeOffset : Prop :=
  ∀ (k : ExceptionKind) (s : State),
    (s.params.trapSave = .pcAndOffset →
      trapEntry k s =
        { s with
          regs := { s.regs with rp := s.regs.pc, rop := s.regs.codeOfs.extractLsb' 0 8 }
          report := { s.report with raised := some k } }) ∧
    ∃ rp rop, trapEntry k s =
      { s with regs := { s.regs with rp, rop }, report := { s.report with raised := some k } }

/-- An instruction that raises is trap entry from the state it began in: nothing of it is committed (R196, R200,
43_arith.md R170). That a raise has a next state is the model's choice (log 9). That a second destination is checked
before the first is written is the model's reading (log 13). Rests on D7, D8, D14, D15, D16, D18, D19, D20, D21, D26,
D28, D30 and D35; D4 and D6 may be any; model's choices: log 9, log 11, log 13 and log 15. -/
def Obligations.RaisingCommitsNothing : Prop :=
  ∀ (i : Instr) (s t : State), s.report.raised = none → exec i s = .next t → t.report.raised ≠ none →
    ∃ k, t = trapEntry k s

/-- `IllegalOperation` has one cause (R192): the capability check refused an access that the instruction makes to a
register operand. That the level checked is the one the instruction began with, also for a second destination after a
write to `FLAGS`, follows from 43_arith.md R170 as the model reads it (log 13). So with the default policy no cycle
raises it. That a write to a special register by its id raises no more than another write is D28. Rests on D5, D7, D8,
D10, D12, D13, D14, D15, D16, D18, D19, D20, D21, D25, D26, D28, D29, D30 and D35; D4 and D6 may be any; model's
choices: log 3, log 9, log 10, log 11, log 13 and log 15. -/
def Obligations.IllegalOperationHasOneCause : Prop :=
  (∀ (i : Instr) (s t : State), s.report.raised = none → exec i s = .next t →
    t.report.raised = some .illegalOperation →
      ∃ id k, (.reg id, k) ∈ operandAccesses i ∧ s.canAccess id k = false) ∧
  ∀ s t : State, s.params.denied = [] → step s = .next t → t.report.raised ≠ some .illegalOperation

/-- `ROP` has no register id, and only trap entry writes it (10_state.md R35). Upstream is the default. Rests on D3,
D5, D6, D7, D8, D14, D15, D16, D18, D21, D25, D26, D28, D30 and D35; D4 may be any; model's choices: log 7, log 9, log
10 and log 11. -/
def Obligations.OnlyTrapEntryWritesRop : Prop :=
  (∀ o id w, viewAt o id = some w → w.reg ≠ .rop) ∧
  ∀ s t : State, s.quiet → step s = .next t → t.report.raised = none → t.regs.rop = s.regs.rop

/-- A handler that finds the saved `RP` returns with `MOV RP.w, PC.w` to the saved address in the current window
(60_exceptions.md R202). The register order of decision D4 and the save of decision D6 are premises. Rests on D2, D3,
D4, D6, D18, D21, D26, D28 and D35; D1 may be any; model's choices: log 3 and log 18. -/
def Obligations.MovRpToPcReturns : Prop :=
  ∀ (k : ExceptionKind) (u s : State), u.params.regOrder = .listing → u.params.trapSave = .pcAndOffset →
    s.params = u.params →
    s.regs.rp = (trapEntry k u).regs.rp → s.regs.codeOfs = u.regs.codeOfs →
    s.testMode = false → s.canAccess 0x18 .read = true → s.canAccess 0x2c .write = true →
    ∃ t, exec (.mov (.reg 0x18) (.reg 0x2c)) s = .next t ∧ t.fetchAddr = u.fetchAddr

/-- A destination that is an immediate raises `InvalidOperation` in every instruction, before anything is read and in
test mode too (60_exceptions.md R191 cause 3, R195). That a raise has a next state is log 9. Rests on D7, D8, D14,
D15, D16, D18, D26, D28, D30 and D35; D4 and D6 may be any; model's choices: log 9, log 11 and log 15. -/
def Obligations.ImmediateDestinationRaises : Prop :=
  ∀ (i : Instr) (s : State), (∃ o ∈ i.destinations, ∀ id, o ≠ .reg id) →
    exec i s = .next (trapEntry .invalidOperation s)

/-- A refused access raises `IllegalOperation` with nothing committed (10_state.md R39, 60_exceptions.md R192). Reads:
of the source in every instruction, of the destination of a two-operand instruction, of the low destination of a
multiply or divide, of the high destination of a divide, in test mode too. Writes outside test mode: of a move, of a
two-operand instruction, and, before either destination is written (43_arith.md R170; log 13), of a multiply and of a
divide whose result exists. That a raise has a next state is the model's choice (log 9). That a move reaches its write
check at equal widths is D21, and that the ids of `FLAGS` and the segment offsets are written like any other is D28.
Rests on D5, D7, D8, D14, D15, D16, D18, D19, D20, D21, D26, D27, D28, D30 and D35; D4 and D6 may be any; model's
choices: log 3, log 9, log 11, log 13 and log 15. -/
def Obligations.RefusedAccessRaises : Prop :=
  ∀ (s : State),
    (∀ (i : Instr) (id : Byte), (∀ o ∈ i.destinations, ∃ d, o = .reg d) → i.operands.head? = some (.reg id) →
      s.canAccess id .read = false → exec i s = .next (trapEntry .illegalOperation s)) ∧
    ∀ (src : Operand) (lo hi : Byte) (x : RegVal), readOperand src s = .ok x →
      (s.canAccess lo .read = false →
        ∀ i ∈ [Instr.add src (.reg lo), .adc src (.reg lo), .sub src (.reg lo), .sbb src (.reg lo),
            .mul src (.reg lo) (.reg hi), .imul src (.reg lo) (.reg hi), .div src (.reg lo) (.reg hi),
            .idiv src (.reg lo) (.reg hi)],
          exec i s = .next (trapEntry .illegalOperation s)) ∧
      (s.testMode = false → s.canAccess lo .write = false → (resolve lo).isSome = true →
        ∀ i ∈ [Instr.mov src (.reg lo), .movsx src (.reg lo)], exec i s = .next (trapEntry .illegalOperation s)) ∧
      ∀ y, readReg lo s = .ok y →
        (s.canAccess hi .read = false →
          ∀ i ∈ [Instr.div src (.reg lo) (.reg hi), .idiv src (.reg lo) (.reg hi)],
            exec i s = .next (trapEntry .illegalOperation s)) ∧
        (s.testMode = false → y.width = x.width → s.canAccess lo .write = false →
          ∀ i ∈ [Instr.add src (.reg lo), .adc src (.reg lo), .sub src (.reg lo), .sbb src (.reg lo)],
            exec i s = .next (trapEntry .illegalOperation s)) ∧
        (s.testMode = false → y.width = x.width → s.canAccess lo .write = false ∨ s.canAccess hi .write = false →
          viewWidth hi = some y.width →
          ∀ i ∈ [Instr.mul src (.reg lo) (.reg hi), .imul src (.reg lo) (.reg hi)],
            exec i s = .next (trapEntry .illegalOperation s)) ∧
        ∀ z, s.testMode = false → s.canAccess lo .write = false ∨ s.canAccess hi .write = false →
          readReg hi s = .ok z →
          ((divVal y z x).isSome = true →
            exec (.div src (.reg lo) (.reg hi)) s = .next (trapEntry .illegalOperation s)) ∧
          ((idivVal y z x).isSome = true →
            exec (.idiv src (.reg lo) (.reg hi)) s = .next (trapEntry .illegalOperation s))

/-! ### Moves -/

/-- The conversion table of 42_mov.md R164. That an extension to the same width is the identity is D21. -/
def Obligations.ConversionTable : Prop :=
  ∀ (sx : Bool) (b : Byte) (h : Word16) (d : Word32),
    convVal (.byte b) .w8 sx = .byte b ∧
    convVal (.byte b) .w16 false = .word (b.setWidth 16) ∧ convVal (.byte b) .w16 true = .word (b.signExtend 16) ∧
    convVal (.byte b) .w32 false = .dword (b.setWidth 32) ∧ convVal (.byte b) .w32 true = .dword (b.signExtend 32) ∧
    convVal (.word h) .w8 sx = .byte (h.extractLsb' 0 8) ∧
    convVal (.word h) .w16 sx = .word h ∧
    convVal (.word h) .w32 false = .dword (h.setWidth 32) ∧ convVal (.word h) .w32 true = .dword (h.signExtend 32) ∧
    convVal (.dword d) .w8 sx = .byte (d.extractLsb' 0 8) ∧
    convVal (.dword d) .w16 sx = .word (d.extractLsb' 0 16) ∧
    convVal (.dword d) .w32 sx = .dword d

/-- `MOV` and `MOVSX` complete (R160, R161): with the source readable and the write permitted, outside test mode, the
destination view reads as the converted source value, and nothing else changes, flags, memory and devices included.
Rests on D18, D21, D26, D27, D28, D35 and D36; D4 may be any; model's choices: log 3. -/
def Obligations.MovesWriteTheConvertedValue : Prop :=
  ∀ (s : State) (src : Operand) (id : Byte) (w : View) (x : RegVal),
    s.testMode = false → readOperand src s = .ok x → s.view id = some w → s.canAccess id .write = true →
    (∃ t, exec (.mov src (.reg id)) s = .next t ∧ t.regs.readView w = convVal x w.span.width false ∧
      sameExcept (touches s.params (.mov src (.reg id))) s t) ∧
    ∃ t, exec (.movsx src (.reg id)) s = .next t ∧ t.regs.readView w = convVal x w.span.width true ∧
      sameExcept (touches s.params (.movsx src (.reg id))) s t

/-- Test mode and the moves (R162): a readable source completes with no change at all and without the capability check
of the write; a source read that raises and an immediate destination still raise. That a raise has a next state is log
9. The conversion comes before the test of the mode (R166); that it succeeds at equal widths is D21. Rests on D5, D7,
D8, D16, D18, D21, D26, D27, D28, D30 and D35; D4 and D6 may be any; model's choices: log 9, log 11 and log 15. -/
def Obligations.TestModeSuppressesMoves : Prop :=
  ∀ (s : State) (src dest : Operand), s.testMode = true →
    (∀ id x, dest = .reg id → (resolve id).isSome = true → readOperand src s = .ok x →
      exec (.mov src dest) s = .next s ∧ exec (.movsx src dest) s = .next s) ∧
    (∀ id k, dest = .reg id → readOperand src s = .error k →
      exec (.mov src dest) s = .next (trapEntry k s) ∧ exec (.movsx src dest) s = .next (trapEntry k s)) ∧
    ((∀ id, dest ≠ .reg id) → exec (.mov src dest) s = .next (trapEntry .invalidOperation s) ∧
      exec (.movsx src dest) s = .next (trapEntry .invalidOperation s))

/-- The frame of the moves: trap entry, or a change of no more than the bits of the destination view; every address
reads as before (R163, 20_memory.md R75). That a raise has a next state is the model's choice (log 9). Rests on D2,
D7, D8, D16, D18, D21, D26, D27, D28, D30, D35 and D36; D4 and D6 may be any; model's choices: log 9, log 11 and log
15. -/
def Obligations.MoveFrame : Prop :=
  ∀ (src dest : Operand) (s t : State) (i : Instr), i = .mov src dest ∨ i = .movsx src dest → exec i s = .next t →
    (∀ a, t.bus.read8 a = s.bus.read8 a) ∧
      ((∃ k, t = trapEntry k s) ∨ sameExcept (fun r n => operandTouches s.params dest r n) s t)

/-- A write to `CO` moves the instruction stream at once (70_reset_and_hazards.md R233): the next fetch is in the new
window at the unchanged offset. The shift of 16, decision D1, and the register order of decision D4 are premises.
Rests on D1, D2, D3, D4, D18, D21, D26, D28 and D35; model's choices: log 3 and log 18. -/
def Obligations.MovToCodeOffsetChangesWindow : Prop :=
  ∀ (s : State) (v : Word16), s.params.segShift = 16 → s.params.regOrder = .listing → s.testMode = false →
    s.canAccess 0x20 .write = true →
    ∃ t, exec (.mov (.imm16 v) (.reg 0x20)) s = .next t ∧ t.regs.pc = s.regs.pc ∧
      t.fetchAddr.toNat = s.regs.pc.toNat % 65536 + 65536 * v.toNat

/-! ### Arithmetic -/

/-- `add_N` (40_regval_alu.md R114, R116): the result and the flag law, with both forms of signed overflow. -/
def Obligations.AddResultAndFlagLaw : Prop :=
  ∀ (n : Nat) (a b : BitVec n) (c : Bool), 0 < n →
    (addN a b c).1.toNat = (a.toNat + b.toNat + c.toNat) % 2 ^ n ∧
    ((addN a b c).2.carry = true ↔ 2 ^ n ≤ a.toNat + b.toNat + c.toNat) ∧
    ((addN a b c).2.zero = true ↔ (addN a b c).1 = 0) ∧
    (addN a b c).2.negative = (addN a b c).1.msb ∧
    ((addN a b c).2.overflow = true ↔
      ¬(-(2 : Int) ^ (n - 1) ≤ a.toInt + b.toInt + c.toNat ∧ a.toInt + b.toInt + c.toNat ≤ 2 ^ (n - 1) - 1)) ∧
    ((addN a b c).2.overflow = true ↔ a.msb = b.msb ∧ (addN a b c).1.msb ≠ a.msb)

/-- `sub_N` (R115): the result, the borrow and the flags, with both forms of signed overflow. -/
def Obligations.SubResultAndFlags : Prop :=
  ∀ (n : Nat) (a b : BitVec n) (c : Bool), 0 < n →
    ((subN a b c).1.toNat : Int) = ((a.toNat : Int) - b.toNat - c.toNat) % 2 ^ n ∧
    ((subN a b c).2.carry = true ↔ (a.toNat : Int) - b.toNat - c.toNat < 0) ∧
    ((subN a b c).2.zero = true ↔ (subN a b c).1 = 0) ∧
    (subN a b c).2.negative = (subN a b c).1.msb ∧
    ((subN a b c).2.overflow = true ↔
      ¬(-(2 : Int) ^ (n - 1) ≤ a.toInt - b.toInt - c.toNat ∧ a.toInt - b.toInt - c.toNat ≤ 2 ^ (n - 1) - 1)) ∧
    ((subN a b c).2.overflow = true ↔ a.msb ≠ b.msb ∧ (subN a b c).1.msb ≠ a.msb)

/-- Multiply and divide are inverse (R127), unsigned and signed, at every width. Rests on D19 and D20. -/
def Obligations.DivideInvertsMultiply : Prop :=
  ∀ (n : Nat) (a b : BitVec n), b ≠ 0 →
    (∃ f, divN (mulN a b).1 (mulN a b).2.1 b = some (a, 0, f)) ∧
    ∃ f, idivN (imulN a b).1 (imulN a b).2.1 b = some (a, 0, f)

/-- Signed division at every sign combination (R129), 8 bits. Rests on D19 and D20. -/
def Obligations.SignedDivisionSignTable : Prop :=
  (idivN 0x07#8 0x00#8 0x02#8).map (fun r => (r.1, r.2.1)) = some (0x03#8, 0x01#8) ∧
  (idivN 0xf9#8 0xff#8 0x02#8).map (fun r => (r.1, r.2.1)) = some (0xfd#8, 0xff#8) ∧
  (idivN 0x07#8 0x00#8 0xfe#8).map (fun r => (r.1, r.2.1)) = some (0xfd#8, 0x01#8) ∧
  (idivN 0xf9#8 0xff#8 0xfe#8).map (fun r => (r.1, r.2.1)) = some (0x03#8, 0xff#8) ∧
  (∀ d : Byte, d ≠ 0 → (idivN 0x00#8 0x00#8 d).map (fun r => (r.1, r.2.1)) = some (0x00#8, 0x00#8)) ∧
  ∀ lo hi : Byte, idivN lo hi 0x00#8 = none

/-- Truncating an extension back to the original width is the identity (R113). That an extension to the same width is
the identity is D21. -/
def Obligations.ExtendThenTruncateIsIdentity : Prop :=
  (∀ (n m : Nat) (v : BitVec n), n ≤ m → trunc n (sext m v) = v ∧ trunc n (zext m v) = v) ∧
  ∀ (x y : RegVal) (m : Width) (sx : Bool), extendVal x m sx = some y → truncVal y x.width = x

/-- `ADD` and `ADC` complete (43_arith.md R174, R175): with operands readable at equal widths and the write permitted,
outside test mode, the sum modulo `2^N`, with the carry flag for `ADC`, goes to the destination view and then its
flags are merged. Where the result itself sets bit 4 of `FLAGS` and `TESTMODE_GATES_FLAGS` is set, that the flags are
still merged is the model's reading (log 12). Rests on D14, D17, D18, D26, D27, D28 and D36; D4 and D16 may be any;
model's choices: log 3 and log 12. -/
def Obligations.AddAndAdcCommitTheSum : Prop :=
  ∀ (s : State) (src : Operand) (id : Byte) (w : View) (a b : RegVal),
    s.testMode = false → readOperand src s = .ok b → readReg id s = .ok a → a.width = b.width →
    s.view id = some w → s.canAccess id .write = true →
    ∀ (i : Instr) (c : Bool), (i = .add src (.reg id) ∧ c = false) ∨ (i = .adc src (.reg id) ∧ c = s.carry) →
    ∃ r fl g, s.regs.writeView w r = some g ∧ exec i s = .next (mergeFlags fl { s with regs := g }) ∧
      r.width = a.width ∧ r.toNat = (a.toNat + b.toNat + c.toNat) % 2 ^ a.width.bits ∧
      (fl.carry = true ↔ 2 ^ a.width.bits ≤ a.toNat + b.toNat + c.toNat) ∧
      (fl.zero = true ↔ r.toNat = 0) ∧ (fl.negative = true ↔ signedOf r < 0) ∧
      (fl.overflow = false ↔ signedOf r = signedOf a + signedOf b + c.toNat)

/-- `SUB` and `SBB` complete (R176, R177): the destination is the minuend, the source the subtrahend, the carry flag
the inbound borrow of `SBB`. Where the result itself sets bit 4 of `FLAGS` and `TESTMODE_GATES_FLAGS` is set, that the
flags are still merged is the model's reading (log 12). Rests on D14, D17, D18, D26, D27, D28 and D36; D4 and D16 may
be any; model's choices: log 3 and log 12. -/
def Obligations.SubAndSbbCommitTheDifference : Prop :=
  ∀ (s : State) (src : Operand) (id : Byte) (w : View) (a b : RegVal),
    s.testMode = false → readOperand src s = .ok b → readReg id s = .ok a → a.width = b.width →
    s.view id = some w → s.canAccess id .write = true →
    ∀ (i : Instr) (c : Bool), (i = .sub src (.reg id) ∧ c = false) ∨ (i = .sbb src (.reg id) ∧ c = s.carry) →
    ∃ r fl g, s.regs.writeView w r = some g ∧ exec i s = .next (mergeFlags fl { s with regs := g }) ∧
      r.width = a.width ∧ (r.toNat : Int) = ((a.toNat : Int) - b.toNat - c.toNat) % 2 ^ a.width.bits ∧
      (fl.carry = true ↔ a.toNat < b.toNat + c.toNat) ∧
      (fl.zero = true ↔ r.toNat = 0) ∧ (fl.negative = true ↔ signedOf r < 0) ∧
      (fl.overflow = false ↔ signedOf r = signedOf a - signedOf b - c.toNat)

/-- `MUL` and `IMUL` complete (R179, R180): the double-width product of low destination and source, unsigned or
signed, its low half to `dlo` and then its high half to `dhi`, and the flags of 40_regval_alu.md R120. Where the
result itself sets bit 4 of `FLAGS` and `TESTMODE_GATES_FLAGS` is set, that the flags are still merged is the model's
reading (log 12). That the write to `dhi` is not checked again after a write to `FLAGS` through `dlo` changes the
level is the model's reading (log 13). That `dlo` and `dhi` may be `PC.w` and `CO`, so that one instruction changes
both, is the model's reading of 43_arith.md R183 against 42_mov.md R165 (log 19). Rests on D15, D17, D18, D26, D27,
D28 and D36; D4 and D16 may be any; model's choices: log 3, log 12, log 13 and log 19. -/
def Obligations.MulAndImulCommitTheProduct : Prop :=
  ∀ (s : State) (src : Operand) (lo hi : Byte) (wl wh : View) (a b : RegVal),
    s.testMode = false → readOperand src s = .ok b → readReg lo s = .ok a → a.width = b.width →
    s.view lo = some wl → s.view hi = some wh → wh.span.width = a.width →
    s.canAccess lo .write = true → s.canAccess hi .write = true →
    ∀ (i : Instr) (p : Int),
      (i = .mul src (.reg lo) (.reg hi) ∧ p = (a.toNat : Int) * b.toNat) ∨
        (i = .imul src (.reg lo) (.reg hi) ∧ p = signedOf a * signedOf b) →
    ∃ vl vh fl g g', s.regs.writeView wl vl = some g ∧ g.writeView wh vh = some g' ∧
      exec i s = .next (mergeFlags fl { s with regs := g' }) ∧ vl.width = a.width ∧ vh.width = a.width ∧
      ((vh.toNat * 2 ^ a.width.bits + vl.toNat : Nat) : Int) = p % 2 ^ (2 * a.width.bits) ∧
      fl.carry = false ∧ (fl.negative = true ↔ signedOf vh < 0) ∧ (fl.overflow = true ↔ vh.toNat ≠ 0) ∧
      (fl.zero = true ↔ vl.toNat = 0 ∧ vh.toNat = 0)

/-- `DIV` completes for a divisor other than zero (R181): the dividend is `dhi` and `dlo` merged; the quotient, cut to
the width, goes to `dlo` and then the remainder to `dhi`; the flags are those of 40_regval_alu.md R125. Where the
result itself sets bit 4 of `FLAGS` and `TESTMODE_GATES_FLAGS` is set, that the flags are still merged is the model's
reading (log 12). That the write to `dhi` is not checked again after a write to `FLAGS` through `dlo` changes the
level is the model's reading (log 13). That `dlo` and `dhi` may be `PC.w` and `CO`, so that one instruction changes
both, is the model's reading of 43_arith.md R183 against 42_mov.md R165 (log 19). Rests on D15, D17, D18, D19, D26,
D27, D28 and D36; D4 and D16 may be any; model's choices: log 3, log 12, log 13 and log 19. -/
def Obligations.DivCommitsQuotientAndRemainder : Prop :=
  ∀ (s : State) (src : Operand) (lo hi : Byte) (wl wh : View) (vl vh b : RegVal),
    s.testMode = false → readOperand src s = .ok b → readReg lo s = .ok vl → readReg hi s = .ok vh →
    vl.width = b.width → vh.width = b.width → s.view lo = some wl → s.view hi = some wh →
    s.canAccess lo .write = true → s.canAccess hi .write = true → b.toNat ≠ 0 →
    ∃ q r fl g g', s.regs.writeView wl q = some g ∧ g.writeView wh r = some g' ∧
      exec (.div src (.reg lo) (.reg hi)) s = .next (mergeFlags fl { s with regs := g' }) ∧
      q.width = b.width ∧ r.width = b.width ∧
      q.toNat = (vh.toNat * 2 ^ b.width.bits + vl.toNat) / b.toNat % 2 ^ b.width.bits ∧
      r.toNat = (vh.toNat * 2 ^ b.width.bits + vl.toNat) % b.toNat ∧
      fl.carry = false ∧ fl.overflow = false ∧ (fl.zero = true ↔ r.toNat = 0) ∧ (fl.negative = true ↔ signedOf q < 0)

/-- `IDIV` completes for a divisor other than zero and outside the case of 40_regval_alu.md R126 (R182, R124): the
quotient is rounded toward zero and cut to the width, the remainder has the dividend's sign and always fits. Where the
result itself sets bit 4 of `FLAGS` and `TESTMODE_GATES_FLAGS` is set, that the flags are still merged is the model's
reading (log 12). That the write to `dhi` is not checked again after a write to `FLAGS` through `dlo` changes the
level is the model's reading (log 13). That `dlo` and `dhi` may be `PC.w` and `CO`, so that one instruction changes
both, is the model's reading of 43_arith.md R183 against 42_mov.md R165 (log 19). Rests on D15, D17, D18, D19, D20,
D26, D27, D28 and D36; D4 and D16 may be any; model's choices: log 3, log 12, log 13 and log 19. -/
def Obligations.IdivCommitsQuotientAndRemainder : Prop :=
  ∀ (s : State) (src : Operand) (lo hi : Byte) (wl wh : View) (vl vh b : RegVal) (d : Int),
    s.testMode = false → readOperand src s = .ok b → readReg lo s = .ok vl → readReg hi s = .ok vh →
    vl.width = b.width → vh.width = b.width → s.view lo = some wl → s.view hi = some wh →
    s.canAccess lo .write = true → s.canAccess hi .write = true → b.toNat ≠ 0 →
    d = signedOf vh * 2 ^ b.width.bits + vl.toNat → ¬(d = -2 ^ (2 * b.width.bits - 1) ∧ signedOf b = -1) →
    ∃ q r fl g g', s.regs.writeView wl q = some g ∧ g.writeView wh r = some g' ∧
      exec (.idiv src (.reg lo) (.reg hi)) s = .next (mergeFlags fl { s with regs := g' }) ∧
      q.width = b.width ∧ r.width = b.width ∧
      (q.toNat : Int) = d.tdiv (signedOf b) % 2 ^ b.width.bits ∧ signedOf r = d.tmod (signedOf b) ∧
      fl.carry = false ∧ fl.overflow = false ∧ (fl.zero = true ↔ r.toNat = 0) ∧ (fl.negative = true ↔ signedOf q < 0)

/-- Division by zero (40_regval_alu.md R123): both functions are absent, and `DIV` and `IDIV` raise `InvalidOperation`
with no register and no flag changed, in test mode too (43_arith.md R181, R184 (g)). That a raise has a next state is
log 9. Rests on D7, D8, D14, D15, D16, D18, D20, D26, D27, D28 and D30; D4 and D6 may be any; model's choices: log 9
and log 11. -/
def Obligations.DivisionByZeroRaises : Prop :=
  (∀ (n : Nat) (lo hi : BitVec n), divN lo hi 0 = none ∧ idivN lo hi 0 = none) ∧
  ∀ (s : State) (src : Operand) (lo hi : Byte) (vl vh b : RegVal),
    readOperand src s = .ok b → readReg lo s = .ok vl → readReg hi s = .ok vh → b.toNat = 0 →
    exec (.div src (.reg lo) (.reg hi)) s = .next (trapEntry .invalidOperation s) ∧
    exec (.idiv src (.reg lo) (.reg hi)) s = .next (trapEntry .invalidOperation s)

/-- The signed division whose quotient does not exist (R126): `IDIV` of `-2^(2N-1)` by `-1` raises `InvalidOperation`.
That a raise has a next state is log 9. Rests on D7, D8, D15, D16, D18, D20, D26, D27, D28 and D30; D4 and D6 may be
any; model's choices: log 9 and log 11. -/
def Obligations.IdivOverflowRaises : Prop :=
  ∀ (s : State) (src : Operand) (lo hi : Byte) (vl vh b : RegVal),
    readOperand src s = .ok b → readReg lo s = .ok vl → readReg hi s = .ok vh → vl.width = b.width →
    vh.width = b.width → vl.toNat = 0 → vh.toNat = 2 ^ (b.width.bits - 1) → b.toNat = 2 ^ b.width.bits - 1 →
    exec (.idiv src (.reg lo) (.reg hi)) s = .next (trapEntry .invalidOperation s)

/-- The width rule (43_arith.md R171): operands read at different widths raise `InvalidOperation` in each of the eight
arithmetic instructions, and nothing is extended. That a raise has a next state is log 9. Rests on D5, D7, D8, D14,
D15, D16, D18, D26, D27, D28 and D30; D4 and D6 may be any; model's choices: log 9 and log 11. -/
def Obligations.WidthMismatchRaises : Prop :=
  ∀ (s : State) (src : Operand) (lo hi : Byte) (a h b : RegVal) (wh : View),
    readOperand src s = .ok b → readReg lo s = .ok a →
    (a.width ≠ b.width → ∀ i ∈ [Instr.add src (.reg lo), .adc src (.reg lo), .sub src (.reg lo), .sbb src (.reg lo)],
      exec i s = .next (trapEntry .invalidOperation s)) ∧
    (s.view hi = some wh → a.width ≠ b.width ∨ wh.span.width ≠ a.width →
      ∀ i ∈ [Instr.mul src (.reg lo) (.reg hi), .imul src (.reg lo) (.reg hi)],
        exec i s = .next (trapEntry .invalidOperation s)) ∧
    (readReg hi s = .ok h → a.width ≠ b.width ∨ h.width ≠ b.width →
      ∀ i ∈ [Instr.div src (.reg lo) (.reg hi), .idiv src (.reg lo) (.reg hi)],
        exec i s = .next (trapEntry .invalidOperation s))

/-- Test mode and the arithmetic instructions (R172): with readable operands of equal width and a result, the
instruction completes, no register changes but `FLAGS[3:0]`, which takes the flags of the ALU function, or nothing at
all where `TESTMODE_GATES_FLAGS` is set, and the writes' capability checks are not made. Whatever the operands, a next
state is trap entry or one of these two. That a raise has a next state is the model's choice (log 9). That the ids of
`FLAGS`, `PC` and the segment offsets are destinations like any other is D28. Rests on D5, D7, D8, D14, D15, D16, D18,
D19, D20, D26, D27, D28 and D30; D4 and D6 may be any; model's choices: log 9, log 11 and log 15. -/
def Obligations.TestModeSuppressesArithmetic : Prop :=
  ∀ (s : State), s.testMode = true →
    (∀ (src : Operand) (lo hi : Byte) (a b : RegVal), readOperand src s = .ok b → readReg lo s = .ok a →
      a.width = b.width →
      (∀ p ∈ [(Instr.add src (.reg lo), addVal a b false), (.adc src (.reg lo), addVal a b s.carry),
          (.sub src (.reg lo), subVal a b false), (.sbb src (.reg lo), subVal a b s.carry)],
        ∃ r fl, p.2 = some (r, fl) ∧
          exec p.1 s = .next (if s.params.testModeGatesFlags then s else mergeFlags fl s)) ∧
      (viewWidth hi = some a.width →
        ∀ p ∈ [(Instr.mul src (.reg lo) (.reg hi), mulVal a b), (.imul src (.reg lo) (.reg hi), imulVal a b)],
          ∃ vl vh fl, p.2 = some (vl, vh, fl) ∧
            exec p.1 s = .next (if s.params.testModeGatesFlags then s else mergeFlags fl s)) ∧
      ∀ h q r fl, readReg hi s = .ok h →
        ∀ p ∈ [(Instr.div src (.reg lo) (.reg hi), divVal a h b), (.idiv src (.reg lo) (.reg hi), idivVal a h b)],
          p.2 = some (q, r, fl) →
            exec p.1 s = .next (if s.params.testModeGatesFlags then s else mergeFlags fl s)) ∧
    ∀ (i : Instr) (t : State), mergesFlags i = true → exec i s = .next t →
      (∃ k, t = trapEntry k s) ∨ (s.params.testModeGatesFlags = true ∧ t = s) ∨
        (s.params.testModeGatesFlags = false ∧ ∃ fl, t = mergeFlags fl s)

/-- The frame of the eight arithmetic instructions: trap entry, or a change of no more than the bits of the
destination views and `FLAGS[3:0]`; every address reads as before (10_state.md R41, 20_memory.md R75). That a raise
has a next state is the model's choice (log 9). That it is trap entry from `s`, with no destination written, also
where the second destination is the one refused, rests on 43_arith.md R170 and D18 as the model reads them (log 13).
Rests on D2, D7, D8, D14, D15, D16, D17, D18, D19, D20, D26, D27, D28, D30 and D36; D4 and D6 may be any; model's
choices: log 9, log 11, log 13 and log 15. -/
def Obligations.ArithmeticFrame : Prop :=
  ∀ (i : Instr) (s t : State), mergesFlags i = true → exec i s = .next t →
    (∀ a, t.bus.read8 a = s.bus.read8 a) ∧
      ((∃ k, t = trapEntry k s) ∨
        sameExcept (fun r n =>
          i.destinations.any (fun o => operandTouches s.params o r n) || (decide (r = .flags) && decide (n < 4))) s t)

/-- Computed control transfer (R185): `ADD src, PC.w` adds a 16-bit source to the window address of the next
instruction and leaves `PC[31:16]`; the next fetch is there. The shift of 16, decision D1, and the register order of
decision D4 are premises. Rests on D1, D2, D3, D4, D14, D17, D18, D26, D27 and D28; model's choices: log 3 and log 18. -/
def Obligations.AddToPcIsAComputedJump : Prop :=
  ∀ (s : State) (src : Operand) (x : Word16), s.params.segShift = 16 → s.params.regOrder = .listing →
    s.testMode = false → readOperand src s = .ok (.word x) → s.canAccess 0x2c .read = true →
    s.canAccess 0x2c .write = true →
    ∃ t, exec (.add src (.reg 0x2c)) s = .next t ∧
      t.regs.pc.toNat = s.regs.pc.toNat / 65536 * 65536 + (s.regs.pc.toNat + x.toNat) % 65536 ∧
      t.fetchAddr.toNat = (s.regs.pc.toNat + x.toNat) % 65536 + 65536 * s.regs.codeOfs.toNat

/-- The registers without behaviour (10_state.md R23, R46): `IDTP`, `IDTL`, `DO`, `EO` and `SO` change only in an
instruction that names one of their views as a destination. D6 counts here in that trap entry writes only `RP` and
`ROP`. Rests on D6, D7, D8, D14, D15, D16, D17, D18, D21, D26, D27, D28, D30, D35 and D36; D4 may be any; model's
choices: log 9, log 11, log 15 and log 18. -/
def Obligations.PlainRegistersChangeOnlyByName : Prop :=
  ∀ (i : Instr) (s t : State) (r : Backing), r ∈ [Backing.idtp, .idtl, .dataOfs, .extraOfs, .stackOfs] →
    exec i s = .next t → (∀ id w, .reg id ∈ i.destinations → s.view id = some w → w.reg ≠ r) →
    t.regs.get r = s.regs.get r

/-! ### The bus -/

/-- The flat address (20_memory.md R60) under decisions D1, a shift of 16, and D2, 32 bits: the low word of `PC`
below, `CO` above, by `+` or by bitwise OR; and it is what the machine fetches at where its shift is 16. Rests on D1
and D2; model's choices: log 18. -/
def Obligations.FlatAddressFormula : Prop :=
  (∀ (pc : Word32) (co : Word16),
    (flat 16 pc co).toNat = (pc.toNat % 2 ^ 16 + co.toNat * 2 ^ 16) % 2 ^ 32 ∧
    flat 16 pc co = (pc.extractLsb' 0 16).setWidth 32 ||| (co.setWidth 32 <<< 16)) ∧
  ∀ s : State, s.params.segShift = 16 →
    s.fetchAddr.toNat = (s.regs.pc.toNat % 2 ^ 16 + s.regs.codeOfs.toNat * 2 ^ 16) % 2 ^ 32

/-- Windows (R61): fetch with one `CO` stays in its window and wraps from offset 0xffff to 0x0000; the windows of two
`CO` values are disjoint, and every flat address is in one. Rests on D1, D2 and D3; model's choices: log 18. -/
def Obligations.FetchStaysInTheWindow : Prop :=
  (∀ (pc : Word32) (co : Word16), (flat 16 pc co).toNat / 2 ^ 16 = co.toNat) ∧
  (∀ (pc : Word32) (co : Word16), pc.toNat % 2 ^ 16 = 0xffff → (flat 16 (pc + 1) co).toNat = co.toNat * 2 ^ 16) ∧
  (∀ (pc pc' : Word32) (co co' : Word16), flat 16 pc co = flat 16 pc' co' → co = co') ∧
  ∀ a : Addr, ∃ pc co, flat 16 pc co = a

/-- `find_device` (R67): the first entry in table order, and in it the first range in the entry's order, that contains
the address, with the offset into it; none exactly when no range contains it. -/
def Obligations.FindDeviceIsTheFirstMatch : Prop :=
  ∀ (b : Bus) (a : Addr),
    (b.findDevice a = none ↔ ∀ d ∈ b.devices, ∀ r ∈ d.ranges, ¬(r.start ≤ a.toNat ∧ a.toNat < r.stop)) ∧
    ∀ h, b.findDevice a = some h →
      b.devices[h.index]? = some h.device ∧ h.device.ranges[h.range]? = some h.span ∧
      h.span.start ≤ a.toNat ∧ a.toNat < h.span.stop ∧ h.offset = a.toNat - h.span.start ∧
      (∀ j d, j < h.index → b.devices[j]? = some d → ∀ r ∈ d.ranges, ¬(r.start ≤ a.toNat ∧ a.toNat < r.stop)) ∧
      ∀ j r, j < h.range → h.device.ranges[j]? = some r → ¬(r.start ≤ a.toNat ∧ a.toNat < r.stop)

/-- Addresses in no range (R68 to R71): bytes read zero, writes are dropped, and so for 16-bit accesses whose bytes
are both in no range. Rests on D2 and D23. -/
def Obligations.UnmappedReadsZeroAndDropsWrites : Prop :=
  ∀ (b : Bus) (a : Addr) (v : Byte) (v2 : Word16),
    (∀ d ∈ b.devices, ∀ r ∈ d.ranges, ¬(r.start ≤ a.toNat ∧ a.toNat < r.stop)) →
    b.read8 a = (0x00, b) ∧ b.write8 a v = b ∧
    ((∀ d ∈ b.devices, ∀ r ∈ d.ranges, ¬(r.start ≤ (a + 1).toNat ∧ (a + 1).toNat < r.stop)) →
      b.read16 a = (0x0000, b) ∧ b.write16 a v2 = b)

/-- The 16-bit accesses (R70 to R73, R76). At an odd address, whatever the two addresses map to, a read is the
little-endian pair of two byte reads and a write is two byte writes, the lower address first, the spec's choice D23
(log 14), the address taken modulo `2^32` (D2). At an even address no device owns, a read gives zero and a write is
dropped. At an even address of an external device both are the one call of its 16-bit entry point, with its state
after. At an even address of plain memory in a well-formed table (D24) both are as two byte accesses (log 5), and past
the end of a range the model keeps the lower byte alone (log 6). That an entry point of a device changes nothing but
that device's own state is the model's (log 7). Rests on D2, D23 and D24; model's choices: log 5, log 6, log 7 and log
14. -/
def Obligations.SixteenBitAccesses : Prop :=
  ∀ (b : Bus) (a : Addr) (v : Word16),
    (a.toNat % 2 = 1 →
      (b.read16 a).1.toNat = (b.read8 a).1.toNat + 256 * ((b.read8 a).2.read8 (a + 1)).1.toNat ∧
      (b.read16 a).2 = ((b.read8 a).2.read8 (a + 1)).2 ∧
      b.write16 a v = (b.write8 a (v.extractLsb' 0 8)).write8 (a + 1) (v.extractLsb' 8 8)) ∧
    (a.toNat % 2 = 0 →
      (b.findDevice a = none → b.read16 a = (0x0000, b) ∧ b.write16 a v = b) ∧
      ∀ h, b.findDevice a = some h →
        (∀ m, h.device.kind = .external m →
          (b.read16 a).1 = (Config.devRead16 m h.device.state h.offset h.range).1 ∧
          (b.read16 a).2 =
            { b with devices := (b.devices.set h.index
                { h.device with state := (Config.devRead16 m h.device.state h.offset h.range).2 }) } ∧
          b.write16 a v =
            { b with devices := (b.devices.set h.index
                { h.device with state := Config.devWrite16 m h.device.state v h.offset h.range }) }) ∧
        (h.device.kind = .memory → tableWf b.shape →
          (a.toNat + 1 < h.span.stop →
            (b.read16 a).1.toNat = (b.read8 a).1.toNat + 256 * (b.read8 (a + 1)).1.toNat ∧ (b.read16 a).2 = b ∧
            b.write16 a v = (b.write8 a (v.extractLsb' 0 8)).write8 (a + 1) (v.extractLsb' 8 8)) ∧
          (h.span.stop ≤ a.toNat + 1 →
            (b.read16 a).1.toNat % 256 = (b.read8 a).1.toNat ∧
            b.write16 a v = b.write8 a (v.extractLsb' 0 8))))

/-- Plain memory reads back what was written, and every other address reads as before, a device's included. The
behaviour of plain memory is the model's (log 5). That no other device shares its bytes is the model's too (log 7).
Rests on D2 and D24; model's choices: log 5 and log 7. -/
def Obligations.PlainMemoryReadsBack : Prop :=
  ∀ (b : Bus) (a : Addr) (v : Byte) (h : Hit), b.mem.wf → b.findDevice a = some h → h.device.kind = .memory →
    ((b.write8 a v).read8 a).1 = v ∧ ∀ c, c ≠ a → ((b.write8 a v).read8 c).1 = (b.read8 c).1

/-- Every bus operation keeps the shape of the device table, its devices' kinds and ranges in their order (R65), and
the canonical form of the memory, which is the model's (log 5). That an entry point of a device changes no table, no
memory and no other device is the model's (log 6, log 7). Rests on D2, D23 and D25; model's choices: log 5, log 6 and
log 7. -/
def Obligations.BusOperationsKeepTheForm : Prop :=
  ∀ (b : Bus) (a : Addr) (v : Byte) (v2 : Word16), b.mem.wf →
    ∀ b' ∈ [(b.read8 a).2, (b.read16 a).2, b.write8 a v, b.write16 a v2, b.clockAll.2],
      b'.mem.wf ∧ b'.shape = b.shape
end

