-- ==== Sys2Proof/Laws/Memory.lean ====
section
/-! SUPPORT. The byte store: a read after a write, and every operation keeps the canonical form. -/

namespace Sys2Proof.Machine

/-- A canonical list whose first entry is gone is canonical, and its addresses are above the first. -/
theorem wf_cons (a : Nat) (v : Byte) (m : Memory) :
    Memory.wf ((a, v) :: m) ↔ ((∀ x ∈ m, a < x.1) ∧ a < 2 ^ 32 ∧ v ≠ unlistedByte ∧ m.wf) := by
  simp only [Memory.wf, List.pairwise_cons, List.mem_cons, forall_eq_or_imp]
  tauto

/-- Below every listed address a byte reads as unlisted. -/
theorem memGet_below (m : Memory) (a : Nat) (h : ∀ x ∈ m, a < x.1) : memGet m a = unlistedByte := by
  induction m with
  | nil => rfl
  | cons x m ih =>
    obtain ⟨b, v⟩ := x
    have hb : a < b := h (b, v) (by simp)
    simp only [memGet]
    rw [if_neg (by omega)]
    exact ih fun y hy => h y (by simp [hy])

theorem memErase_mem (m : Memory) (a : Nat) (x : Host.Cell) (h : x ∈ memErase m a) : x ∈ m := by
  induction m with
  | nil => exact h
  | cons y m ih =>
    obtain ⟨b, v⟩ := y
    simp only [memErase] at h
    split at h
    · exact List.mem_cons_of_mem _ h
    · rcases List.mem_cons.1 h with h | h
      · exact h ▸ List.mem_cons_self
      · exact List.mem_cons_of_mem _ (ih h)

theorem memInsert_mem (m : Memory) (a : Nat) (v : Byte) (x : Host.Cell) (h : x ∈ memInsert m a v) :
    x = (a, v) ∨ x ∈ m := by
  induction m with
  | nil => simpa [memInsert] using h
  | cons y m ih =>
    obtain ⟨b, w⟩ := y
    simp only [memInsert] at h
    split at h
    · simpa using h
    · split at h
      · rcases List.mem_cons.1 h with h | h
        · exact .inl h
        · exact .inr (List.mem_cons_of_mem _ h)
      · rcases List.mem_cons.1 h with h | h
        · exact .inr (h ▸ List.mem_cons_self)
        · exact (ih h).imp_right (List.mem_cons_of_mem _)

theorem memErase_wf (m : Memory) (a : Nat) (h : m.wf) : (memErase m a).wf := by
  induction m with
  | nil => exact h
  | cons y m ih =>
    obtain ⟨b, v⟩ := y
    have hc := (wf_cons b v m).1 h
    simp only [memErase]
    split
    · exact hc.2.2.2
    · exact (wf_cons _ _ _).2 ⟨fun x hx => hc.1 x (memErase_mem m a x hx), hc.2.1, hc.2.2.1, ih hc.2.2.2⟩

theorem memInsert_wf (m : Memory) (a : Nat) (v : Byte) (ha : a < 2 ^ 32) (hv : v ≠ unlistedByte) (h : m.wf) :
    (memInsert m a v).wf := by
  induction m with
  | nil => exact (wf_cons _ _ _).2 ⟨by simp, ha, hv, h⟩
  | cons y m ih =>
    obtain ⟨b, w⟩ := y
    have hc := (wf_cons b w m).1 h
    simp only [memInsert]
    split
    · rename_i hab
      refine (wf_cons _ _ _).2 ⟨fun x hx => ?_, ha, hv, h⟩
      rcases List.mem_cons.1 hx with hx | hx
      · exact hx ▸ hab
      · exact Nat.lt_trans hab (hc.1 x hx)
    · split
      · rename_i hab
        exact (wf_cons _ _ _).2 ⟨fun x hx => hab ▸ hc.1 x hx, ha, hv, hc.2.2.2⟩
      · rename_i h1 h2
        refine (wf_cons _ _ _).2 ⟨fun x hx => ?_, hc.2.1, hc.2.2.1, ih hc.2.2.2⟩
        rcases memInsert_mem m a v x hx with hx | hx
        · rw [hx]; show b < a; omega
        · exact hc.1 x hx

/-- A write keeps the canonical form. -/
theorem write_wf (m : Memory) (a : Addr) (v : Byte) (h : m.wf) : (m.write a v).wf := by
  unfold Memory.write
  split
  · exact memErase_wf m _ h
  · rename_i hv
    exact memInsert_wf m _ v a.isLt hv h

theorem memGet_erase_self (m : Memory) (a : Nat) (h : m.wf) : memGet (memErase m a) a = unlistedByte := by
  induction m with
  | nil => rfl
  | cons y m ih =>
    obtain ⟨b, v⟩ := y
    have hc := (wf_cons b v m).1 h
    simp only [memErase]
    split
    · rename_i hb
      exact memGet_below m a fun x hx => hb ▸ hc.1 x hx
    · rename_i hb
      simp only [memGet, if_neg hb]
      exact ih hc.2.2.2

theorem memGet_erase_other (m : Memory) (a c : Nat) (hc : c ≠ a) : memGet (memErase m a) c = memGet m c := by
  induction m with
  | nil => rfl
  | cons y m ih =>
    obtain ⟨b, v⟩ := y
    simp only [memErase]
    split
    · rename_i hb
      simp [memGet, show ¬ b = c by omega]
    · simp only [memGet, ih]

theorem memGet_insert_self (m : Memory) (a : Nat) (v : Byte) : memGet (memInsert m a v) a = v := by
  induction m with
  | nil => simp [memInsert, memGet]
  | cons y m ih =>
    obtain ⟨b, w⟩ := y
    simp only [memInsert]
    split
    · simp [memGet]
    · split
      · simp [memGet]
      · rename_i h
        simp [memGet, h, ih]

theorem memGet_insert_other (m : Memory) (a c : Nat) (v : Byte) (hc : c ≠ a) :
    memGet (memInsert m a v) c = memGet m c := by
  have hac : ¬ a = c := fun h => hc h.symm
  induction m with
  | nil => simp [memInsert, memGet, hac]
  | cons y m ih =>
    obtain ⟨b, w⟩ := y
    simp only [memInsert]
    split
    · simp [memGet, hac]
    · split
      · rename_i hb
        simp [memGet, hac, show ¬ b = c by omega]
      · simp only [memGet, ih]

/-- Reading the byte just written gives it. -/
theorem read_write_self (m : Memory) (a : Addr) (v : Byte) (h : m.wf) : (m.write a v).read a = v := by
  unfold Memory.write Memory.read
  split
  · rename_i hv
    rw [memGet_erase_self m _ h, hv]
  · exact memGet_insert_self m _ v

/-- A write leaves every other byte. -/
theorem read_write_other (m : Memory) (a c : Addr) (v : Byte) (h : c ≠ a) : (m.write a v).read c = m.read c := by
  have hn : c.toNat ≠ a.toNat := fun e => h (BitVec.eq_of_toNat_eq e)
  unfold Memory.write Memory.read
  split
  · exact memGet_erase_other m _ _ hn
  · exact memGet_insert_other m _ _ v hn

end Sys2Proof.Machine
end

