-- ==== Sys2Proof/Laws/Bus.lean ====
section
/-! SUPPORT. The bus: every operation keeps the shape of the device table and the canonical memory; plain memory is
read without a side effect; unmapped addresses. -/

namespace Sys2Proof.Machine

theorem findFrom_get (ds : List Device) (a i : Nat) (h : Hit) (hf : findFrom ds a i = some h) :
    i ≤ h.index ∧ ds[h.index - i]? = some h.device := by
  induction ds generalizing i with
  | nil => simp [findFrom] at hf
  | cons d ds ih =>
    simp only [findFrom] at hf
    split at hf
    · cases hf; simp
    · obtain ⟨h1, h2⟩ := ih (i + 1) hf
      refine ⟨by omega, ?_⟩
      rw [show h.index - i = (h.index - (i + 1)) + 1 by omega, List.getElem?_cons_succ]
      exact h2

/-- The device of a hit stands at its index of the table (R67). -/
theorem findDevice_get (b : Bus) (a : Addr) (h : Hit) (hf : b.findDevice a = some h) :
    b.devices[h.index]? = some h.device := by
  have := (findFrom_get b.devices a.toNat 0 h hf).2
  simpa using this

@[simp] theorem setDeviceState_mem (b : Bus) (h : Hit) (n : Nat) : (b.setDeviceState h n).mem = b.mem := rfl

/-- A device's new state leaves the table's shape (R65). -/
theorem setDeviceState_shape (b : Bus) (h : Hit) (n : Nat) (hg : b.devices[h.index]? = some h.device) :
    (b.setDeviceState h n).shape = b.shape := by
  unfold Bus.shape Bus.setDeviceState
  simp only [List.map_set]
  apply List.ext_getElem?
  intro k
  rw [List.getElem?_set]
  split
  · rename_i hk
    subst hk
    rw [List.getElem?_map, hg]
    have : h.index < b.devices.length := (List.getElem?_eq_some_iff.1 hg).1
    simp [this, Device.shape]
  · rfl

/-- A byte read keeps the table's shape and the memory. -/
theorem read8_keeps (b : Bus) (a : Addr) : (b.read8 a).2.shape = b.shape ∧ (b.read8 a).2.mem = b.mem := by
  unfold Bus.read8
  split
  · rename_i h hf
    unfold Bus.devRead
    split
    · exact ⟨rfl, rfl⟩
    · exact ⟨setDeviceState_shape b h _ (findDevice_get b a h hf), rfl⟩
  · exact ⟨rfl, rfl⟩

/-- A byte write keeps the table's shape and the canonical memory. -/
theorem write8_keeps (b : Bus) (a : Addr) (v : Byte) :
    (b.write8 a v).shape = b.shape ∧ (b.mem.wf → (b.write8 a v).mem.wf) := by
  unfold Bus.write8
  split
  · rename_i h hf
    unfold Bus.devWrite
    split
    · exact ⟨rfl, fun hw => write_wf _ _ _ hw⟩
    · exact ⟨setDeviceState_shape b h _ (findDevice_get b a h hf), id⟩
  · exact ⟨rfl, id⟩

/-- A 16-bit read keeps the table's shape and the memory. -/
theorem read16_keeps (b : Bus) (a : Addr) : (b.read16 a).2.shape = b.shape ∧ (b.read16 a).2.mem = b.mem := by
  unfold Bus.read16
  split
  · have h1 := read8_keeps b a
    have h2 := read8_keeps (b.read8 a).2 (a + 1)
    exact ⟨h2.1.trans h1.1, h2.2.trans h1.2⟩
  · split
    · rename_i h hf
      unfold Bus.devRead16
      split
      · split
        · exact ⟨rfl, rfl⟩
        · exact ⟨setDeviceState_shape b h _ (findDevice_get b a h hf), rfl⟩
      · exact ⟨setDeviceState_shape b h _ (findDevice_get b a h hf), rfl⟩
    · exact ⟨rfl, rfl⟩

/-- A 16-bit write keeps the table's shape and the canonical memory. -/
theorem write16_keeps (b : Bus) (a : Addr) (v : Word16) :
    (b.write16 a v).shape = b.shape ∧ (b.mem.wf → (b.write16 a v).mem.wf) := by
  unfold Bus.write16
  split
  · have h1 := write8_keeps b a (lowByte v)
    have h2 := write8_keeps (b.write8 a (lowByte v)) (a + 1) (highByte v)
    exact ⟨h2.1.trans h1.1, fun hw => h2.2 (h1.2 hw)⟩
  · split
    · rename_i h hf
      unfold Bus.devWrite16
      split
      · refine ⟨rfl, fun hw => ?_⟩
        show Memory.wf (if h.hasNext then _ else _)
        split
        · exact write_wf _ _ _ (write_wf _ _ _ hw)
        · exact write_wf _ _ _ hw
      · exact ⟨setDeviceState_shape b h _ (findDevice_get b a h hf), id⟩
    · exact ⟨rfl, id⟩

theorem clock_shape (d : Device) : d.clock.2.shape = d.shape := by
  unfold Device.clock; split <;> rfl

/-- The poll keeps the table's shape and the memory (R204). -/
theorem clockAll_keeps (b : Bus) : b.clockAll.2.shape = b.shape ∧ b.clockAll.2.mem = b.mem := by
  refine ⟨?_, rfl⟩
  simp only [Bus.clockAll, Bus.shape, List.map_map]
  exact List.map_congr_left fun d _ => clock_shape d

/-- A bus of plain memory is read without a side effect. -/
theorem read8_plain (b : Bus) (a : Addr) (h : b.plain = true) : (b.read8 a).2 = b := by
  unfold Bus.read8
  split
  · rename_i hit hf
    have hm := List.mem_of_getElem? (findDevice_get b a hit hf)
    have hk : hit.device.kind = .memory := by
      have := List.all_eq_true.1 h _ hm
      simpa using this
    simp [Bus.devRead, hk]
  · rfl

/-- Unmapped addresses read zero (R68). -/
theorem read8_unmapped (b : Bus) (a : Addr) (h : b.findDevice a = none) : b.read8 a = (0x00, b) := by
  simp [Bus.read8, h]

end Sys2Proof.Machine
end

