-- ==== Sys2Proof/Laws/State.lean ====
section
/-! SUPPORT. One lemma for each field of the state and each update of it, true by unfolding once, and the small laws of
the register file. -/

namespace Sys2Proof.Machine

@[simp] theorem trapEntry_bus (k : ExceptionKind) (s : State) : (trapEntry k s).bus = s.bus := rfl
@[simp] theorem trapEntry_params (k : ExceptionKind) (s : State) : (trapEntry k s).params = s.params := rfl
@[simp] theorem trapEntry_upstreamState (k : ExceptionKind) (s : State) :
    (trapEntry k s).upstreamState = s.upstreamState := rfl
@[simp] theorem trapEntry_raised (k : ExceptionKind) (s : State) : (trapEntry k s).report.raised = some k := rfl
@[simp] theorem trapEntry_clock (k : ExceptionKind) (s : State) :
    (trapEntry k s).report.clock = s.report.clock := rfl
@[simp] theorem trapEntry_rp (k : ExceptionKind) (s : State) :
    (trapEntry k s).regs.rp = (savedComponents s.params.trapSave s.regs.pc s.regs.codeOfs).1 := rfl
@[simp] theorem trapEntry_rop (k : ExceptionKind) (s : State) :
    (trapEntry k s).regs.rop = (savedComponents s.params.trapSave s.regs.pc s.regs.codeOfs).2 := rfl
@[simp] theorem savedComponents_default (pc : Word32) (co : Word16) :
    savedComponents .pcAndOffset pc co = (pc, co.setWidth 8) := rfl
@[simp] theorem trapEntry_pc (k : ExceptionKind) (s : State) : (trapEntry k s).regs.pc = s.regs.pc := rfl
@[simp] theorem trapEntry_codeOfs (k : ExceptionKind) (s : State) :
    (trapEntry k s).regs.codeOfs = s.regs.codeOfs := rfl
@[simp] theorem trapEntry_flags (k : ExceptionKind) (s : State) : (trapEntry k s).regs.flags = s.regs.flags := rfl

/-- Trap entry leaves every register but `RP` and `ROP` (R198). -/
theorem trapEntry_get (k : ExceptionKind) (s : State) (r : Backing) (h1 : r ≠ .rp) (h2 : r ≠ .rop) :
    (trapEntry k s).regs.get r = s.regs.get r := by
  cases r <;> first | rfl | contradiction

@[simp] theorem mergeFlags_bus (f : FlagUpdate) (s : State) : (mergeFlags f s).bus = s.bus := rfl
@[simp] theorem mergeFlags_params (f : FlagUpdate) (s : State) : (mergeFlags f s).params = s.params := rfl
@[simp] theorem mergeFlags_report (f : FlagUpdate) (s : State) : (mergeFlags f s).report = s.report := rfl
@[simp] theorem mergeFlags_upstreamState (f : FlagUpdate) (s : State) :
    (mergeFlags f s).upstreamState = s.upstreamState := rfl
@[simp] theorem mergeFlags_flags (f : FlagUpdate) (s : State) :
    (mergeFlags f s).regs.flags = mergeNib s.regs.flags f := rfl
@[simp] theorem mergeFlags_rop (f : FlagUpdate) (s : State) : (mergeFlags f s).regs.rop = s.regs.rop := rfl

/-- The flag merge leaves every register but `FLAGS`. -/
theorem mergeFlags_get (f : FlagUpdate) (s : State) (r : Backing) (h : r ≠ .flags) :
    (mergeFlags f s).regs.get r = s.regs.get r := by
  cases r <;> first | rfl | contradiction

@[simp] theorem beginCycle_regs (s : State) : (beginCycle s).regs = s.regs := rfl
@[simp] theorem beginCycle_bus (s : State) : (beginCycle s).bus = s.bus := rfl
@[simp] theorem beginCycle_params (s : State) : (beginCycle s).params = s.params := rfl
@[simp] theorem beginCycle_upstreamState (s : State) : (beginCycle s).upstreamState = s.upstreamState := rfl
@[simp] theorem beginCycle_raised (s : State) : (beginCycle s).report.raised = none := rfl

@[simp] theorem pollClocks_regs (s : State) : (pollClocks s).regs = s.regs := rfl
@[simp] theorem pollClocks_params (s : State) : (pollClocks s).params = s.params := rfl
@[simp] theorem pollClocks_raised (s : State) : (pollClocks s).report.raised = s.report.raised := rfl
@[simp] theorem pollClocks_bus (s : State) : (pollClocks s).bus = s.bus.clockAll.2 := rfl
@[simp] theorem pollClocks_clock (s : State) : (pollClocks s).report.clock = s.bus.clockAll.1 := rfl
@[simp] theorem pollClocks_upstreamState (s : State) : (pollClocks s).upstreamState = s.upstreamState := rfl

@[simp] theorem tellUpstream_bus (s : State) : (tellUpstream s).bus = s.bus := by
  unfold tellUpstream; split <;> rfl
@[simp] theorem tellUpstream_params (s : State) : (tellUpstream s).params = s.params := by
  unfold tellUpstream; split <;> rfl
@[simp] theorem tellUpstream_report (s : State) : (tellUpstream s).report = s.report := by
  unfold tellUpstream; split <;> rfl

/-- The default upstream changes nothing (R201). -/
theorem tellUpstream_quiet (s : State) (h : s.quiet) : tellUpstream s = s := by
  unfold tellUpstream; rw [h]

@[simp] theorem endCycle_bus (s : State) : (endCycle s).bus = s.bus.clockAll.2 := by simp [endCycle]
@[simp] theorem endCycle_params (s : State) : (endCycle s).params = s.params := by simp [endCycle]
@[simp] theorem endCycle_raised (s : State) : (endCycle s).report.raised = s.report.raised := by simp [endCycle]
@[simp] theorem endCycle_clock (s : State) : (endCycle s).report.clock = s.bus.clockAll.1 := by simp [endCycle]

/-- With the default upstream the end of a cycle leaves every register. -/
theorem endCycle_regs (s : State) (h : s.quiet) : (endCycle s).regs = s.regs := by
  rw [endCycle, tellUpstream_quiet _ (by simpa [State.quiet] using h), pollClocks_regs]

@[simp] theorem fetch8_params (s : State) : (fetch8 s).2.params = s.params := rfl
@[simp] theorem fetch8_report (s : State) : (fetch8 s).2.report = s.report := rfl
@[simp] theorem fetch8_upstreamState (s : State) : (fetch8 s).2.upstreamState = s.upstreamState := rfl
@[simp] theorem fetch8_bus (s : State) : (fetch8 s).2.bus = (s.bus.read8 s.fetchAddr).2 := rfl
@[simp] theorem fetch8_byte (s : State) : (fetch8 s).1 = (s.bus.read8 s.fetchAddr).1 := rfl
@[simp] theorem fetch8_regs (s : State) : (fetch8 s).2.regs = { s.regs with pc := s.regs.pc + 1 } := rfl

@[simp] theorem withPc_params (s : State) (p : Word32) : (s.withPc p).params = s.params := rfl
@[simp] theorem withPc_report (s : State) (p : Word32) : (s.withPc p).report = s.report := rfl
@[simp] theorem withPc_bus (s : State) (p : Word32) : (s.withPc p).bus = s.bus := rfl
@[simp] theorem withPc_upstreamState (s : State) (p : Word32) : (s.withPc p).upstreamState = s.upstreamState := rfl
@[simp] theorem withPc_regs (s : State) (p : Word32) : (s.withPc p).regs = { s.regs with pc := p } := rfl

/-- The capability check reads only the arguments and the privilege field (R39). -/
theorem canAccess_congr (s t : State) (id : Byte) (k : AccessKind) (hp : t.params = s.params)
    (hf : t.privilege = s.privilege) : t.canAccess id k = s.canAccess id k := by
  simp [State.canAccess, hp, hf]

/-- With the default policy every access is permitted (R207). -/
theorem canAccess_default (s : State) (id : Byte) (k : AccessKind) (h : s.params.denied = []) :
    s.canAccess id k = true := by
  simp [State.canAccess, h]

/-- The bits of a backing register a value of 32 bits can set: all of them, or the low bits of a narrow one. -/
def backingBits : Backing → Nat
  | .rop => 8
  | .codeOfs | .dataOfs | .extraOfs | .stackOfs => 16
  | _ => 32

/-- Writing a register and reading it back gives the low bits of the value. -/
theorem get_set_self (g : Regs) (r : Backing) (v : Word32) (n : Nat) :
    ((g.set r v).get r).getLsbD n = (decide (n < backingBits r) && v.getLsbD n) := by
  have h32 : v.getLsbD n = true → n < 32 := BitVec.lt_of_getLsbD
  cases hb : v.getLsbD n
  · cases r <;> simp [Regs.set, Regs.get, backingBits, hb]
  · have := h32 hb
    cases r <;> simp only [Regs.set, Regs.get, backingBits, BitVec.getLsbD_setWidth, hb, this] <;> rfl

/-- Writing a register leaves every other register (R37). -/
theorem get_set_other (g : Regs) (r q : Backing) (v : Word32) (h : q ≠ r) : (g.set r v).get q = g.get q := by
  cases r <;> cases q <;> first | rfl | contradiction

/-- No bit above a register's width reads as one. -/
theorem get_high (g : Regs) (r : Backing) (n : Nat) (h : backingBits r ≤ n) : (g.get r).getLsbD n = false := by
  have h32 : ∀ v : Word32, 32 ≤ n → v.getLsbD n = false := fun v hv => BitVec.getLsbD_of_ge v n hv
  cases r <;> simp only [backingBits] at h <;> simp only [Regs.get] <;>
    first
      | exact h32 _ h
      | (rw [BitVec.getLsbD_setWidth]; simp [BitVec.getLsbD_of_ge _ n h])

end Sys2Proof.Machine
end

