-- ==== Sys2Proof/Laws/Operands.lean ====
section
/-! SUPPORT. Register views: what a read and a write through an id can do, said once. -/

namespace Sys2Proof.Machine

theorem mask_word (k : Nat) (h : k < 32) : (0xffff0000#32).getLsbD k = decide (16 ≤ k) := by
  revert k; decide

theorem mask_low (k : Nat) (h : k < 32) : (0xffffff00#32).getLsbD k = decide (8 ≤ k) := by
  revert k; decide

theorem mask_high (k : Nat) (h : k < 32) : (0xffff00ff#32).getLsbD k = (decide (k < 8) || decide (16 ≤ k)) := by
  revert k; decide

theorem mask_nib (k : Nat) (h : k < 32) : (0xfffffff0#32).getLsbD k = decide (4 ≤ k) := by
  revert k; decide

/-- The flag merge leaves `FLAGS[31:4]` (R15, R41). -/
theorem mergeNib_high (v : Word32) (f : FlagUpdate) (n : Nat) (h : 4 ≤ n) :
    (mergeNib v f).getLsbD n = v.getLsbD n := by
  by_cases h32 : n < 32
  · simp [mergeNib, mask_nib n h32, h]
  · simp [BitVec.getLsbD_of_ge _ n (Nat.le_of_not_lt h32)]

/-- The flag merge puts `nib(fl)` into `FLAGS[3:0]` (R15). -/
theorem mergeNib_low (v : Word32) (f : FlagUpdate) (n : Nat) (h : n < 4) :
    (mergeNib v f).getLsbD n = f.nib.getLsbD n := by
  simp only [mergeNib, BitVec.getLsbD_or, BitVec.getLsbD_and, BitVec.getLsbD_setWidth, mask_nib n (by omega)]
  simp [show ¬ 4 ≤ n by omega, show n < 32 by omega]

/-- A read span has the span's width (10_state.md R36). -/
@[simp] theorem readSpan_width (v : Word32) (sp : Span) : (readSpan v sp).width = sp.width := by
  cases sp <;> rfl

@[simp] theorem readView_width (g : Regs) (w : View) : (g.readView w).width = w.span.width := readSpan_width _ _

/-- The merge has a value exactly at equal widths (R37 step 3). -/
theorem mergeSpan_isSome (old : Word32) (sp : Span) (x : RegVal) :
    (mergeSpan old sp x).isSome = true ↔ x.width = sp.width := by
  cases sp <;> cases x <;> simp [mergeSpan, RegVal.width, Span.width]

/-- Reading the span just merged gives the value (R37, R38). -/
theorem readSpan_mergeSpan (old v : Word32) (sp : Span) (x : RegVal) (h : mergeSpan old sp x = some v) :
    readSpan v sp = x := by
  cases sp <;> cases x <;> simp only [mergeSpan, Option.some.injEq, reduceCtorEq] at h <;> subst h <;>
    simp only [readSpan]
  all_goals
    congr 1
    apply BitVec.eq_of_getLsbD_eq
    intro i hi
    simp only [BitVec.getLsbD_extractLsb', BitVec.getLsbD_or, BitVec.getLsbD_and, BitVec.getLsbD_setWidth,
      BitVec.getLsbD_shiftLeft, hi, decide_true, Bool.true_and]
  · rw [mask_word _ (by omega)]
    simp [hi, show ¬ 16 ≤ i by omega, show i < 32 by omega]
  · rw [mask_low _ (by omega)]
    simp [hi, show ¬ 8 ≤ i by omega, show i < 32 by omega]
  · rw [mask_high _ (by omega)]
    simp [hi, show ¬ 16 ≤ 8 + i by omega, show i < 32 by omega, show 8 + i < 32 by omega]

/-- The merge leaves every bit outside the span (R37 step 4, R38). -/
theorem mergeSpan_outside (old v : Word32) (sp : Span) (x : RegVal) (h : mergeSpan old sp x = some v) (n : Nat)
    (hn : coversBit sp n = false) : v.getLsbD n = old.getLsbD n := by
  by_cases h32 : n < 32
  · cases sp <;> cases x <;> simp only [mergeSpan, Option.some.injEq, reduceCtorEq] at h <;> subst h <;>
      simp only [coversBit, decide_eq_false_iff_not, Bool.and_eq_false_iff] at hn
    · omega
    · simp [mask_word n h32, show 16 ≤ n by omega]
    · simp [mask_low n h32, show 8 ≤ n by omega]
    · rename_i y
      simp only [BitVec.getLsbD_or, BitVec.getLsbD_and, mask_high n h32, BitVec.getLsbD_shiftLeft,
        BitVec.getLsbD_setWidth]
      rcases hn with hn | hn
      · simp [show n < 8 by omega]
      · simp [show 16 ≤ n by omega, BitVec.getLsbD_of_ge y (n - 8) (by omega)]
  · simp [BitVec.getLsbD_of_ge _ n (Nat.le_of_not_lt h32)]

/-- What a view write can do: its register gets the merged value, at equal widths only (R37). -/
theorem writeView_some (g g' : Regs) (w : View) (x : RegVal) (h : g.writeView w x = some g') :
    x.width = w.span.width ∧ ∃ v, mergeSpan (g.get w.reg) w.span x = some v ∧ g' = g.set w.reg v := by
  unfold Regs.writeView at h
  obtain ⟨v, hv, hg⟩ := Option.map_eq_some_iff.1 h
  exact ⟨(mergeSpan_isSome _ _ _).1 (by rw [hv]; rfl), v, hv, hg.symm⟩

/-- A view write has a value at equal widths (R37 step 3). -/
theorem writeView_isSome (g : Regs) (w : View) (x : RegVal) (h : x.width = w.span.width) :
    ∃ g', g.writeView w x = some g' := by
  obtain ⟨v, hv⟩ := Option.isSome_iff_exists.1 ((mergeSpan_isSome (g.get w.reg) w.span x).2 h)
  exact ⟨g.set w.reg v, by simp [Regs.writeView, hv]⟩

/-- A view write leaves every register bit outside the view (R37, R38). -/
theorem writeView_outside (g g' : Regs) (w : View) (x : RegVal) (h : g.writeView w x = some g') (r : Backing)
    (n : Nat) (hn : (decide (w.reg = r) && coversBit w.span n) = false) :
    (g'.get r).getLsbD n = (g.get r).getLsbD n := by
  obtain ⟨_, v, hv, rfl⟩ := writeView_some g g' w x h
  by_cases hr : w.reg = r
  · subst hr
    have hc : coversBit w.span n = false := by simpa using hn
    rw [get_set_self]
    by_cases hb : n < backingBits w.reg
    · simp [hb, mergeSpan_outside _ _ _ _ hv n hc]
    · simp [hb, get_high g w.reg n (Nat.le_of_not_lt hb)]
  · rw [get_set_other g w.reg r v (fun e => hr e.symm)]

/-- Every id that resolves names a view, in every register order, and no other id does (R27, R28). -/
@[simp] theorem viewAt_isSome (o : RegOrder) (id : Byte) : (viewAt o id).isSome = (resolve id).isSome := by
  simp [viewAt]

theorem view_none_iff (s : State) (id : Byte) : s.view id = none ↔ resolve id = none := by
  simp [State.view, viewAt]

/-- The width of a view does not depend on the register order (R28). -/
theorem viewWidth_eq (s : State) (id : Byte) : viewWidth id = (s.view id).map (fun w => w.span.width) := by
  simp [viewWidth, State.view, viewAt, Function.comp_def]

@[simp] theorem view_mergeFlags (f : FlagUpdate) (s : State) (id : Byte) : (mergeFlags f s).view id = s.view id := rfl

/-- What a register read can answer (R36): the access is permitted, the id resolves, and the value is the view's. -/
theorem readReg_ok (id : Byte) (s : State) (x : RegVal) (h : readReg id s = .ok x) :
    s.canAccess id .read = true ∧ ∃ w, s.view id = some w ∧ x = s.regs.readView w := by
  unfold readReg at h
  split at h
  · rename_i hc
    split at h
    · cases h
    · rename_i w hw
      cases h
      exact ⟨hc, w, hw, rfl⟩
  · cases h

/-- A permitted read of a valid id answers (R36). -/
theorem readReg_of (id : Byte) (s : State) (w : View) (hc : s.canAccess id .read = true) (hw : s.view id = some w) :
    readReg id s = .ok (s.regs.readView w) := by
  simp [readReg, hc, hw]

/-- What a store can do (R37 steps 2 to 4). -/
theorem storeReg_ok (id : Byte) (x : RegVal) (s t : State) (h : storeReg id x s = .ok t) :
    ∃ w g, s.view id = some w ∧ s.regs.writeView w x = some g ∧ t = { s with regs := g } := by
  unfold storeReg at h
  split at h
  · cases h
  · rename_i w hw
    split at h
    · cases h
    · rename_i g hg
      cases h
      exact ⟨w, g, hw, hg, rfl⟩

/-- A store at equal widths answers (R37). -/
theorem storeReg_of (id : Byte) (x : RegVal) (s : State) (w : View) (g : Regs) (hw : s.view id = some w)
    (hg : s.regs.writeView w x = some g) : storeReg id x s = .ok { s with regs := g } := by
  simp [storeReg, hw, hg]

/-- What a register write can do (R37): the access is permitted and the store answers. -/
theorem writeReg_ok (id : Byte) (x : RegVal) (s t : State) (h : writeReg id x s = .ok t) :
    s.canAccess id .write = true ∧
      ∃ w g, s.view id = some w ∧ s.regs.writeView w x = some g ∧ t = { s with regs := g } := by
  unfold writeReg at h
  split at h
  · rename_i hc
    exact ⟨hc, storeReg_ok id x s t h⟩
  · cases h

/-- A conversion gives the wanted width (42_mov.md R164). -/
@[simp] theorem convVal_width (x : RegVal) (m : Width) (sx : Bool) : (convVal x m sx).width = m := by
  cases x <;> cases m <;> rfl

end Sys2Proof.Machine
end

