-- ==== Sys2Proof/Laws/Decode.lean ====
section
/-! SUPPORT. The small lemmas of the decoder and the encoder: classification, byte order, the opcode map, one operand
item at a time, and the ways decoding can fail. -/

namespace Sys2Proof.Machine

/-- What each class of a byte at an item boundary says of the byte (30_encoding.md R103). -/
theorem classify_spec (b : Byte) :
    (classify b = .terminator → b.msb = true) ∧ (classify b = .imm8 → b = 0x70) ∧
      (classify b = .imm16 → b = 0x71) ∧ (classify b = .reg → (resolve b).isSome = true) := by
  revert b; decide

/-- A byte with bit 7 set is a terminator (R92). -/
theorem classify_terminator (b : Byte) (h : b.msb = true) : classify b = .terminator := by simp [classify, h]

/-- A valid register id is a register item (R94). -/
theorem classify_reg (id : Byte) (h : (resolve id).isSome = true) : classify id = .reg := by
  revert h; revert id; decide

theorem wordLE_parts (v : Word16) : wordLE (lowByte v) (highByte v) = v := by
  unfold wordLE lowByte highByte
  apply BitVec.eq_of_toNat_eq
  have := v.isLt
  simp [BitVec.extractLsb'_toNat, Nat.shiftRight_eq_div_pow]
  omega

theorem lowByte_wordLE (l h : Byte) : lowByte (wordLE l h) = l := by
  unfold wordLE lowByte
  apply BitVec.eq_of_toNat_eq
  have := l.isLt
  have := h.isLt
  simp [BitVec.extractLsb'_toNat, Nat.shiftRight_eq_div_pow]
  omega

theorem highByte_wordLE (l h : Byte) : highByte (wordLE l h) = h := by
  unfold wordLE highByte
  apply BitVec.eq_of_toNat_eq
  have := l.isLt
  have := h.isLt
  simp [BitVec.extractLsb'_toNat, Nat.shiftRight_eq_div_pow]
  omega

/-- A well-formed opcode map looks up the mnemonic of its own byte (R96, R97). -/
theorem lookup_byteOf (o : OpcodeMap) (m : Mnemonic) (h : o.wf = true) : o.lookup (o.byteOf m) = some m := by
  have hn : o.bytes.Nodup := of_decide_eq_true (Bool.and_eq_true _ _ ▸ h : _ ∧ _).2
  simp only [OpcodeMap.bytes, List.nodup_cons, List.mem_cons, not_or] at hn
  have hinj : ∀ m m', o.byteOf m = o.byteOf m' → m = m' := by
    intro m m' e
    cases m <;> cases m' <;> first | rfl | (simp only [OpcodeMap.byteOf] at e; simp [e] at hn)
  have hm : m ∈ allMnemonics := by cases m <;> decide
  have hs : (allMnemonics.find? (fun x => o.byteOf x == o.byteOf m)).isSome = true :=
    List.find?_isSome.2 ⟨m, hm, by simp⟩
  obtain ⟨x, hx⟩ := Option.isSome_iff_exists.1 hs
  have := List.find?_some hx
  rw [OpcodeMap.lookup, hx, hinj x m (by simpa using this)]

/-- A looked-up mnemonic has the byte that was looked up (R97). -/
theorem lookup_some (o : OpcodeMap) (op : Byte) (m : Mnemonic) (h : o.lookup op = some m) : o.byteOf m = op := by
  have := List.find?_some h
  simpa using this

theorem assemble_self (i : Instr) : assemble i.mnemonic i.operands = some i := by cases i <;> rfl

theorem assemble_some (m : Mnemonic) (ops : List Operand) (i : Instr) (h : assemble m ops = some i) :
    i.mnemonic = m ∧ i.operands = ops := by
  unfold assemble at h
  split at h <;> simp at h <;> subst h <;> exact ⟨rfl, rfl⟩

/-- The operands end at a terminator (R92). -/
theorem decodeOperands_terminator (b : Byte) (rest : List Byte) (h : classify b = .terminator) :
    decodeOperands (b :: rest) = .ok ([], b :: rest) := by
  rw [decodeOperands.eq_def]; simp only [h]

/-- An invalid id ends the operands with an error (R94, R102). -/
theorem decodeOperands_invalid (b : Byte) (rest : List Byte) (h : classify b = .invalid) :
    decodeOperands (b :: rest) = .error (.invalidRegister b) := by
  rw [decodeOperands.eq_def]; simp only [h]

theorem decodeOperands_imm8 (b ib : Byte) (rest tail : List Byte) (ops : List Operand) (h : classify b = .imm8)
    (hr : decodeOperands rest = .ok (ops, tail)) :
    decodeOperands (b :: ib :: rest) = .ok (.imm8 ib :: ops, tail) := by
  rw [decodeOperands.eq_def]; simp only [h, hr]

theorem decodeOperands_imm16 (b lo hi : Byte) (rest tail : List Byte) (ops : List Operand)
    (h : classify b = .imm16) (hr : decodeOperands rest = .ok (ops, tail)) :
    decodeOperands (b :: lo :: hi :: rest) = .ok (.imm16 (wordLE lo hi) :: ops, tail) := by
  rw [decodeOperands.eq_def]; simp only [h, hr]

theorem decodeOperands_reg (b : Byte) (rest tail : List Byte) (ops : List Operand) (h : classify b = .reg)
    (hr : decodeOperands rest = .ok (ops, tail)) : decodeOperands (b :: rest) = .ok (.reg b :: ops, tail) := by
  rw [decodeOperands.eq_def]; simp only [h, hr]

/-- Dispatch fails in two ways (R99 to R101). -/
theorem dispatch_error (o : OpcodeMap) (op : Byte) (ops : List Operand) (e : DecodeError)
    (h : dispatch o op ops = .error e) : e = .unassignedOpcode op ∨ e = .operandCount op ops.length := by
  unfold dispatch at h
  split at h
  · exact .inl (by injection h with h; exact h.symm)
  · split at h
    · exact .inr (by injection h with h; exact h.symm)
    · cases h

/-- Decoding fails in the operands or at dispatch. -/
theorem decode_error (o : OpcodeMap) (op : Byte) (bs : List Byte) (e : DecodeError)
    (h : decode o (op :: bs) = .error e) :
    decodeOperands bs = .error e ∨ ∃ ops tail, decodeOperands bs = .ok (ops, tail) ∧ dispatch o op ops = .error e := by
  simp only [decode] at h
  split at h
  · rename_i e' hd
    injection h with h
    exact .inl (h ▸ hd)
  · rename_i ops tail hd
    split at h
    · rename_i e' hdis
      injection h with h
      exact .inr ⟨ops, tail, hd, h ▸ hdis⟩
    · cases h

end Sys2Proof.Machine
end

