-- ==== Sys2Proof/Laws/Ops.lean ====
section
/-! SUPPORT. The shared operations of the instructions: for each, one lemma that says everything it can do when it
commits, and what the end of an instruction can be. -/

namespace Sys2Proof.Machine

/-- The end of an instruction is a next state: the committed one, or trap entry from the state before (R196, R200). -/
theorem finish_next (s t : State) (r : Except ExceptionKind State) (h : finish s r = .next t) :
    r = .ok t ∨ ∃ k, r = .error k ∧ t = trapEntry k s := by
  unfold finish at h
  split at h
  · rename_i u
    injection h with h
    exact .inl (h ▸ rfl)
  · rename_i k
    injection h with h
    exact .inr ⟨k, rfl, h.symm⟩

/-- No instruction stops the machine. -/
theorem finish_answers (s : State) (r : Except ExceptionKind State) : ∃ t, finish s r = .next t := by
  cases r <;> exact ⟨_, rfl⟩

theorem bind_ok {α β : Type} (x : Except ExceptionKind α) (f : α → Except ExceptionKind β) (b : β)
    (h : (x >>= f) = .ok b) : ∃ a, x = .ok a ∧ f a = .ok b := by
  cases x with
  | error e => cases h
  | ok a => exact ⟨a, rfl, h⟩

/-- What the move primitive can commit (R166): nothing in test mode, else its one view write. -/
theorem movCommon_ok (src dest : Operand) (sx : Bool) (s t : State) (h : movCommon src dest sx s = .ok t) :
    ∃ id w x, dest = .reg id ∧ s.view id = some w ∧ readOperand src s = .ok x ∧
      ((s.testMode = true ∧ t = s) ∨
        (s.testMode = false ∧ s.canAccess id .write = true ∧
          ∃ g, s.regs.writeView w (convVal x w.span.width sx) = some g ∧ t = { s with regs := g })) := by
  unfold movCommon at h
  split at h
  · cases h
  · cases h
  · rename_i id
    obtain ⟨x, hx, h⟩ := bind_ok _ _ _ h
    rw [viewWidth_eq s] at h
    cases hw : s.view id with
    | none => simp [hw] at h
    | some w =>
      simp only [hw, Option.map_some] at h
      refine ⟨id, w, x, rfl, hw, hx, ?_⟩
      split at h
      · rename_i ht
        cases h
        exact .inl ⟨ht, rfl⟩
      · rename_i ht
        obtain ⟨hc, w', g, hw', hg, ht'⟩ := writeReg_ok _ _ _ _ h
        rw [hw] at hw'
        cases hw'
        exact .inr ⟨by simpa using ht, hc, g, hg, ht'⟩

/-- The flag merge, or nothing where the argument gates it in test mode (R172). -/
theorem mergeUnlessGated_cases (m : Bool) (f : FlagUpdate) (s : State) :
    mergeUnlessGated m f s = mergeFlags f s ∨
      (m = true ∧ s.params.testModeGatesFlags = true ∧ mergeUnlessGated m f s = s) := by
  unfold mergeUnlessGated
  split
  · rename_i h
    simp only [Bool.and_eq_true] at h
    exact .inr ⟨h.1, h.2, rfl⟩
  · exact .inl rfl

@[simp] theorem mergeUnlessGated_false (f : FlagUpdate) (s : State) : mergeUnlessGated false f s = mergeFlags f s :=
  rfl

/-- What phase 4 of a two-operand instruction can commit (R178). -/
theorem commit2_ok (id : Byte) (r : RegVal) (f : FlagUpdate) (s t : State) (h : commit2 id r f s = .ok t) :
    (s.testMode = true ∧ t = mergeUnlessGated true f s) ∨
      (s.testMode = false ∧ s.canAccess id .write = true ∧
        ∃ w g, s.view id = some w ∧ s.regs.writeView w r = some g ∧ t = mergeFlags f { s with regs := g }) := by
  unfold commit2 at h
  split at h
  · rename_i ht
    cases h
    exact .inl ⟨ht, rfl⟩
  · rename_i ht
    obtain ⟨u, hu, h⟩ := bind_ok _ _ _ h
    obtain ⟨hc, w, g, hw, hg, rfl⟩ := writeReg_ok _ _ _ _ hu
    cases h
    exact .inr ⟨by simpa using ht, hc, w, g, hw, hg, rfl⟩

/-- What a two-operand arithmetic instruction can commit (R178). -/
theorem arith2_ok (f : RegVal → RegVal → Bool → Option (RegVal × FlagUpdate)) (cin : Bool) (src dest : Operand)
    (s t : State) (h : arith2 f cin src dest s = .ok t) :
    ∃ id a b r fl, dest = .reg id ∧ readOperand src s = .ok b ∧ readReg id s = .ok a ∧ a.width = b.width ∧
      f a b cin = some (r, fl) ∧ commit2 id r fl s = .ok t := by
  unfold arith2 at h
  split at h
  · cases h
  · cases h
  · rename_i id
    obtain ⟨b, hb, h⟩ := bind_ok _ _ _ h
    obtain ⟨a, ha, h⟩ := bind_ok _ _ _ h
    split at h
    · rename_i hab
      split at h
      · cases h
      · rename_i r fl hf
        exact ⟨id, a, b, r, fl, rfl, hb, ha, hab, hf, h⟩
    · cases h

/-- What phase 4 of a three-operand instruction can commit (R170, R183). -/
theorem commit3_ok (lo hi : Byte) (vlo vhi : RegVal) (f : FlagUpdate) (s t : State)
    (h : commit3 lo hi vlo vhi f s = .ok t) :
    (s.testMode = true ∧ t = mergeUnlessGated true f s) ∨
      (s.testMode = false ∧ s.canAccess lo .write = true ∧ s.canAccess hi .write = true ∧
        ∃ wl wh g g', s.view lo = some wl ∧ s.view hi = some wh ∧ s.regs.writeView wl vlo = some g ∧
          g.writeView wh vhi = some g' ∧ t = mergeFlags f { s with regs := g' }) := by
  unfold commit3 at h
  split at h
  · rename_i ht
    cases h
    exact .inl ⟨ht, rfl⟩
  · rename_i ht
    split at h
    · cases h
    · rename_i hcl
      split at h
      · cases h
      · rename_i hch
        obtain ⟨u, hu, h⟩ := bind_ok _ _ _ h
        obtain ⟨v, hv, h⟩ := bind_ok _ _ _ h
        obtain ⟨wl, g, hwl, hg, rfl⟩ := storeReg_ok _ _ _ _ hu
        obtain ⟨wh, g', hwh, hg', rfl⟩ := storeReg_ok _ _ _ _ hv
        cases h
        exact .inr ⟨by simpa using ht, by simpa using hcl, by simpa using hch, wl, wh, g, g', hwl, hwh, hg, hg', rfl⟩

/-- What a multiply can commit (R183). -/
theorem arith3Mul_ok (m : RegVal → RegVal → Option (RegVal × RegVal × FlagUpdate)) (src dlo dhi : Operand)
    (s t : State) (h : arith3Mul m src dlo dhi s = .ok t) :
    ∃ lo hi a b vlo vhi fl, dlo = .reg lo ∧ dhi = .reg hi ∧ readOperand src s = .ok b ∧ readReg lo s = .ok a ∧
      a.width = b.width ∧ viewWidth hi = some a.width ∧ m a b = some (vlo, vhi, fl) ∧
      commit3 lo hi vlo vhi fl s = .ok t := by
  unfold arith3Mul at h
  split at h
  · rename_i lo hi
    obtain ⟨b, hb, h⟩ := bind_ok _ _ _ h
    obtain ⟨a, ha, h⟩ := bind_ok _ _ _ h
    split at h
    · rename_i hw
      split at h
      · cases h
      · rename_i vlo vhi fl hm
        exact ⟨lo, hi, a, b, vlo, vhi, fl, rfl, rfl, hb, ha, hw.1, hw.2, hm, h⟩
    · cases h
  · cases h

/-- What a divide can commit (R183). -/
theorem arith3Div_ok (d : RegVal → RegVal → RegVal → Option (RegVal × RegVal × FlagUpdate)) (src dlo dhi : Operand)
    (s t : State) (h : arith3Div d src dlo dhi s = .ok t) :
    ∃ lo hi vl vh b q r fl, dlo = .reg lo ∧ dhi = .reg hi ∧ readOperand src s = .ok b ∧ readReg lo s = .ok vl ∧
      readReg hi s = .ok vh ∧ vl.width = b.width ∧ vh.width = b.width ∧ d vl vh b = some (q, r, fl) ∧
      commit3 lo hi q r fl s = .ok t := by
  unfold arith3Div at h
  split at h
  · rename_i lo hi
    obtain ⟨b, hb, h⟩ := bind_ok _ _ _ h
    obtain ⟨vl, hvl, h⟩ := bind_ok _ _ _ h
    obtain ⟨vh, hvh, h⟩ := bind_ok _ _ _ h
    split at h
    · rename_i hw
      split at h
      · cases h
      · rename_i q r fl hd
        exact ⟨lo, hi, vl, vh, b, q, r, fl, rfl, rfl, hb, hvl, hvh, hw.1, hw.2, hd, h⟩
    · cases h
  · cases h

/-- The results of `add` and `sub` have the operands' width (R110). -/
theorem lift2_width (f : {n : Nat} → BitVec n → BitVec n → Bool → BitVec n × FlagUpdate) (a b : RegVal) (c : Bool)
    (r : RegVal) (fl : FlagUpdate) (h : lift2 f a b c = some (r, fl)) : r.width = a.width ∧ a.width = b.width := by
  cases a <;> cases b <;> simp [lift2] at h <;> obtain ⟨rfl, _⟩ := h <;> exact ⟨rfl, rfl⟩

/-- The results of a multiply have the operands' width (R110). -/
theorem liftMul_width (f : {n : Nat} → BitVec n → BitVec n → BitVec n × BitVec n × FlagUpdate) (a b : RegVal)
    (lo hi : RegVal) (fl : FlagUpdate) (h : liftMul f a b = some (lo, hi, fl)) :
    lo.width = a.width ∧ hi.width = a.width := by
  cases a <;> cases b <;> simp [liftMul] at h <;> obtain ⟨rfl, rfl, _⟩ := h <;> exact ⟨rfl, rfl⟩

/-- The results of a divide have the operands' width (R110). -/
theorem liftDiv_width (f : {n : Nat} → BitVec n → BitVec n → BitVec n → Option (BitVec n × BitVec n × FlagUpdate))
    (lo hi rhs q r : RegVal) (fl : FlagUpdate) (h : liftDiv f lo hi rhs = some (q, r, fl)) :
    q.width = lo.width ∧ r.width = lo.width := by
  cases lo <;> cases hi <;> cases rhs <;> simp [liftDiv] at h <;> obtain ⟨_, _, _, rfl, rfl⟩ := h <;>
    exact ⟨rfl, rfl⟩

end Sys2Proof.Machine
end

