-- ==== Sys2Proof/Laws/Exec.lean ====
section
/-! SUPPORT. What `exec` can do, said once for all instructions. -/

namespace Sys2Proof.Machine

/-- Everything an instruction can do to the state: one constructor for each way it ends (R162, R166, R172, R178,
R183, R198). -/
inductive ExecEffect (i : Instr) (s : State) : State → Prop where
  /-- It raised: trap entry, nothing committed. -/
  | trap (k : ExceptionKind) : ExecEffect i s (trapEntry k s)
  /-- Test mode suppressed the whole effect. -/
  | suppressed (test : s.testMode = true) (gated : mergesFlags i = true → s.params.testModeGatesFlags = true) :
      ExecEffect i s s
  /-- Test mode suppressed the writes of an arithmetic instruction. -/
  | flagsOnly (fl : FlagUpdate) (test : s.testMode = true) (arith : mergesFlags i = true)
      (ungated : s.params.testModeGatesFlags = false) : ExecEffect i s (mergeFlags fl s)
  /-- A move wrote its destination view. -/
  | moved (id : Byte) (w : View) (x : RegVal) (g : Regs) (test : s.testMode = false) (move : mergesFlags i = false)
      (dest : .reg id ∈ i.destinations) (view : s.view id = some w) (may : s.canAccess id .write = true)
      (wrote : s.regs.writeView w x = some g) : ExecEffect i s { s with regs := g }
  /-- An arithmetic instruction wrote its one destination view and merged its flags. -/
  | wrote1 (id : Byte) (w : View) (x : RegVal) (g : Regs) (fl : FlagUpdate) (test : s.testMode = false)
      (arith : mergesFlags i = true) (dest : .reg id ∈ i.destinations) (view : s.view id = some w)
      (may : s.canAccess id .write = true) (wrote : s.regs.writeView w x = some g) :
      ExecEffect i s (mergeFlags fl { s with regs := g })
  /-- An arithmetic instruction wrote its two destination views and merged its flags. -/
  | wrote2 (lo hi : Byte) (w w' : View) (x x' : RegVal) (g g' : Regs) (fl : FlagUpdate) (test : s.testMode = false)
      (arith : mergesFlags i = true) (dest : .reg lo ∈ i.destinations) (dest' : .reg hi ∈ i.destinations)
      (view : s.view lo = some w) (view' : s.view hi = some w') (may : s.canAccess lo .write = true)
      (may' : s.canAccess hi .write = true) (wrote : s.regs.writeView w x = some g)
      (wrote' : g.writeView w' x' = some g') : ExecEffect i s (mergeFlags fl { s with regs := g' })

theorem mergeUnlessGated_effect (i : Instr) (s : State) (fl : FlagUpdate) (ht : s.testMode = true)
    (ha : mergesFlags i = true) : ExecEffect i s (mergeUnlessGated true fl s) := by
  unfold mergeUnlessGated
  cases hg : s.params.testModeGatesFlags
  · exact .flagsOnly fl ht ha hg
  · exact .suppressed ht fun _ => hg

theorem movCommon_effect (i : Instr) (src dest : Operand) (sx : Bool) (s t : State) (hm : mergesFlags i = false)
    (hd : dest ∈ i.destinations) (h : finish s (movCommon src dest sx s) = .next t) : ExecEffect i s t := by
  rcases finish_next _ _ _ h with h | ⟨k, _, rfl⟩
  · obtain ⟨id, w, x, rfl, hw, _, h⟩ := movCommon_ok _ _ _ _ _ h
    rcases h with ⟨ht, rfl⟩ | ⟨ht, hc, g, hg, rfl⟩
    · exact .suppressed ht fun hf => by rw [hm] at hf; cases hf
    · exact .moved id w _ g ht hm hd hw hc hg
  · exact .trap k

theorem arith2_effect (i : Instr) (f : RegVal → RegVal → Bool → Option (RegVal × FlagUpdate)) (c : Bool)
    (src dest : Operand) (s t : State) (hm : mergesFlags i = true) (hd : dest ∈ i.destinations)
    (h : finish s (arith2 f c src dest s) = .next t) : ExecEffect i s t := by
  rcases finish_next _ _ _ h with h | ⟨k, _, rfl⟩
  · obtain ⟨id, _, _, _, fl, rfl, _, _, _, _, h⟩ := arith2_ok _ _ _ _ _ _ h
    rcases commit2_ok _ _ _ _ _ h with ⟨ht, rfl⟩ | ⟨ht, hc, w, g, hw, hg, rfl⟩
    · exact mergeUnlessGated_effect i s fl ht hm
    · exact .wrote1 id w _ g fl ht hm hd hw hc hg
  · exact .trap k

theorem commit3_effect (i : Instr) (lo hi : Byte) (vlo vhi : RegVal) (fl : FlagUpdate) (s t : State)
    (hm : mergesFlags i = true) (hl : .reg lo ∈ i.destinations) (hh : .reg hi ∈ i.destinations)
    (h : commit3 lo hi vlo vhi fl s = .ok t) : ExecEffect i s t := by
  rcases commit3_ok _ _ _ _ _ _ _ h with ⟨ht, rfl⟩ | ⟨ht, hc, hc', w, w', g, g', hw, hw', hg, hg', rfl⟩
  · exact mergeUnlessGated_effect i s fl ht hm
  · exact .wrote2 lo hi w w' _ _ g g' fl ht hm hl hh hw hw' hc hc' hg hg'

theorem arith3Mul_effect (i : Instr) (m : RegVal → RegVal → Option (RegVal × RegVal × FlagUpdate))
    (src dlo dhi : Operand) (s t : State) (hm : mergesFlags i = true) (hl : dlo ∈ i.destinations)
    (hh : dhi ∈ i.destinations) (h : finish s (arith3Mul m src dlo dhi s) = .next t) : ExecEffect i s t := by
  rcases finish_next _ _ _ h with h | ⟨k, _, rfl⟩
  · obtain ⟨lo, hi, _, _, _, _, _, rfl, rfl, _, _, _, _, _, h⟩ := arith3Mul_ok _ _ _ _ _ _ h
    exact commit3_effect i lo hi _ _ _ s t hm hl hh h
  · exact .trap k

theorem arith3Div_effect (i : Instr) (d : RegVal → RegVal → RegVal → Option (RegVal × RegVal × FlagUpdate))
    (src dlo dhi : Operand) (s t : State) (hm : mergesFlags i = true) (hl : dlo ∈ i.destinations)
    (hh : dhi ∈ i.destinations) (h : finish s (arith3Div d src dlo dhi s) = .next t) : ExecEffect i s t := by
  rcases finish_next _ _ _ h with h | ⟨k, _, rfl⟩
  · obtain ⟨lo, hi, _, _, _, _, _, _, rfl, rfl, _, _, _, _, _, _, h⟩ := arith3Div_ok _ _ _ _ _ _ h
    exact commit3_effect i lo hi _ _ _ s t hm hl hh h
  · exact .trap k

/-- What an instruction can do (R148): every next state of `exec` is one of the effects. -/
theorem exec_effect (i : Instr) (s t : State) (h : exec i s = .next t) : ExecEffect i s t := by
  cases i with
  | mov src dest => exact movCommon_effect _ src dest false s t rfl List.mem_cons_self h
  | movsx src dest => exact movCommon_effect _ src dest true s t rfl List.mem_cons_self h
  | add src dest => exact arith2_effect _ _ _ src dest s t rfl List.mem_cons_self h
  | adc src dest => exact arith2_effect _ _ _ src dest s t rfl List.mem_cons_self h
  | sub src dest => exact arith2_effect _ _ _ src dest s t rfl List.mem_cons_self h
  | sbb src dest => exact arith2_effect _ _ _ src dest s t rfl List.mem_cons_self h
  | mul src dlo dhi =>
    exact arith3Mul_effect _ _ src dlo dhi s t rfl List.mem_cons_self (List.mem_cons_of_mem _ List.mem_cons_self) h
  | imul src dlo dhi =>
    exact arith3Mul_effect _ _ src dlo dhi s t rfl List.mem_cons_self (List.mem_cons_of_mem _ List.mem_cons_self) h
  | div src dlo dhi =>
    exact arith3Div_effect _ _ src dlo dhi s t rfl List.mem_cons_self (List.mem_cons_of_mem _ List.mem_cons_self) h
  | idiv src dlo dhi =>
    exact arith3Div_effect _ _ src dlo dhi s t rfl List.mem_cons_self (List.mem_cons_of_mem _ List.mem_cons_self) h

/-- Every instruction answers a next state: none stops the machine. -/
theorem exec_answers (i : Instr) (s : State) : ∃ t, exec i s = .next t := by
  cases i <;> exact finish_answers _ _

/-- An instruction leaves the bus (20_memory.md R75). -/
theorem ExecEffect.bus {i : Instr} {s t : State} (h : ExecEffect i s t) : t.bus = s.bus := by cases h <;> rfl

/-- An instruction leaves the model arguments. -/
theorem ExecEffect.params {i : Instr} {s t : State} (h : ExecEffect i s t) : t.params = s.params := by cases h <;> rfl

end Sys2Proof.Machine
end

