-- ==== Sys2Proof/Laws/Fetch.lean ====
section
/-! SUPPORT. What fetching an instruction leaves of the state, and what a cycle can do, said once. -/

namespace Sys2Proof.Machine

/-- What each byte fetch and each move of `PC` keeps, the operand loop keeps (R142 to R146). -/
theorem operandLoop_keeps (P : State → Prop) (hf : ∀ s, P s → P (fetch8 s).2) (hp : ∀ s pc, P s → P (s.withPc pc))
    (fuel : Nat) : ∀ (ops : List Operand) (s : State), P s →
    (∀ ops' t, operandLoop fuel ops s = .done ops' t → P t) ∧ ∀ t, operandLoop fuel ops s = .invalid t → P t := by
  induction fuel with
  | zero =>
    intro ops s _
    exact ⟨fun _ _ h => (by cases h), fun _ h => (by cases h)⟩
  | succ fuel ih =>
    intro ops s hs
    have h1 := hf s hs
    rw [operandLoop]
    simp only
    split
    · exact ⟨fun _ _ h => (by cases h; exact hp _ _ h1), fun _ h => (by cases h)⟩
    · exact ih _ _ (hf _ h1)
    · exact ih _ _ (hf _ (hf _ h1))
    · exact ih _ _ h1
    · exact ⟨fun _ _ h => (by cases h), fun _ h => (by cases h; exact h1)⟩

/-- What each byte fetch and each move of `PC` keeps, fetching an instruction keeps (R141 to R148). -/
theorem fetchInstr_keeps (P : State → Prop) (hf : ∀ s, P s → P (fetch8 s).2) (hp : ∀ s pc, P s → P (s.withPc pc))
    (s : State) (hs : P s) :
    (∀ t, fetchInstr s = .raised t → P t) ∧ ∀ i t, fetchInstr s = .instr i t → P t := by
  have hl := operandLoop_keeps P hf hp operandFuel [] _ (hf s hs)
  unfold fetchInstr
  simp only
  split
  · exact ⟨fun _ h => (by cases h), fun _ _ h => (by cases h)⟩
  · rename_i u hu
    exact ⟨fun _ h => (by cases h; exact hl.2 u hu), fun _ _ h => (by cases h)⟩
  · rename_i ops u hu
    split
    · exact ⟨fun _ h => (by cases h; exact hl.1 ops u hu), fun _ _ h => (by cases h)⟩
    · exact ⟨fun _ h => (by cases h), fun _ _ h => (by cases h; exact hl.1 ops u hu)⟩

/-- What a fetched instruction leaves of the state: all but `PC` and the devices' own states (R140, 20_memory.md
R75). -/
structure Fetched (s t : State) : Prop where
  regs : t.regs = { s.regs with pc := t.regs.pc }
  shape : t.bus.shape = s.bus.shape
  mem : t.bus.mem = s.bus.mem
  params : t.params = s.params
  report : t.report = s.report
  upstreamState : t.upstreamState = s.upstreamState

/-- The state a fetched instruction executes in, or raises in, is the state before the fetch but for `PC` and the
devices' own states. -/
theorem fetchInstr_fetched (s : State) :
    (∀ t, fetchInstr s = .raised t → Fetched s t) ∧ ∀ i t, fetchInstr s = .instr i t → Fetched s t := by
  refine fetchInstr_keeps (Fetched s) (fun t h => ?_) (fun t pc h => ?_) s ⟨rfl, rfl, rfl, rfl, rfl, rfl⟩
  · have hk := read8_keeps t.bus t.fetchAddr
    exact ⟨by rw [fetch8_regs, h.regs], hk.1.trans h.shape, hk.2.trans h.mem, h.params, h.report, h.upstreamState⟩
  · exact ⟨by rw [withPc_regs, h.regs], h.shape, h.mem, h.params, h.report, h.upstreamState⟩

/-- Everything a cycle with a next state does: it fetched, then raised or executed, then ended (R150). -/
theorem step_cases (s t : State) (h : step s = .next t) :
    ∃ u, Fetched (beginCycle s) u ∧
      (t = endCycle (trapEntry .invalidOperation u) ∨ ∃ i v, ExecEffect i u v ∧ t = endCycle v) := by
  have hf := fetchInstr_fetched (beginCycle s)
  unfold step at h
  split at h
  · cases h
  · rename_i u hu
    injection h with h
    exact ⟨u, hf.1 u hu, .inl h.symm⟩
  · rename_i i u hu
    split at h
    · rename_i v hv
      injection h with h
      exact ⟨u, hf.2 i u hu, .inr ⟨i, v, exec_effect i u v hv, h.symm⟩⟩
    · cases h
    · cases h

/-- On plain memory `n` byte fetches read the `n` addresses from `PC` on in the window, and change `PC` alone (R140). -/
theorem fetchMany_plain (n : Nat) (s : State) (h : s.bus.plain = true) :
    fetchMany n s =
      ((List.range n).map (fun k =>
        (s.bus.read8 (flat s.params.segShift (s.regs.pc + BitVec.ofNat 32 k) s.regs.codeOfs)).1),
      s.withPc (s.regs.pc + BitVec.ofNat 32 n)) := by
  induction n generalizing s with
  | zero => simp [fetchMany, State.withPc]
  | succ n ih =>
    have hs : (fetch8 s).2 = s.withPc (s.regs.pc + 1) := by
      simp [fetch8, State.withPc, read8_plain _ _ h]
    have e : ∀ k : Nat, s.regs.pc + 1 + BitVec.ofNat 32 k = s.regs.pc + BitVec.ofNat 32 (k + 1) := by
      intro k
      rw [BitVec.add_assoc, Nat.add_comm k 1, BitVec.ofNat_add]
      rfl
    rw [fetchMany, hs, ih _ (by simpa using h)]
    simp only [withPc_regs, withPc_bus, withPc_params, e, List.range_succ_eq_map, List.map_cons, List.map_map]
    rw [show s.regs.pc + BitVec.ofNat 32 0 = s.regs.pc from BitVec.add_zero _]
    rfl

end Sys2Proof.Machine
end

