-- ==== Sys2Proof/Laws/PerInstr.lean ====
section
/-! SUPPORT. Facts about every instruction as syntax, one lemma for each constructor. -/

namespace Sys2Proof.Laws.Assembly

/-- An instruction is what its mnemonic and its operands assemble to, and it has the operand count of its mnemonic
(30_encoding.md R98, R101). -/
def Statement (i : Instr) : Prop :=
  assemble i.mnemonic i.operands = some i ∧ i.operands.length = operandCount i.mnemonic

theorem mov (src dest : Operand) : Statement (.mov src dest) := ⟨rfl, rfl⟩
theorem movsx (src dest : Operand) : Statement (.movsx src dest) := ⟨rfl, rfl⟩
theorem add (src dest : Operand) : Statement (.add src dest) := ⟨rfl, rfl⟩
theorem adc (src dest : Operand) : Statement (.adc src dest) := ⟨rfl, rfl⟩
theorem sub (src dest : Operand) : Statement (.sub src dest) := ⟨rfl, rfl⟩
theorem sbb (src dest : Operand) : Statement (.sbb src dest) := ⟨rfl, rfl⟩
theorem mul (src dlo dhi : Operand) : Statement (.mul src dlo dhi) := ⟨rfl, rfl⟩
theorem imul (src dlo dhi : Operand) : Statement (.imul src dlo dhi) := ⟨rfl, rfl⟩
theorem div (src dlo dhi : Operand) : Statement (.div src dlo dhi) := ⟨rfl, rfl⟩
theorem idiv (src dlo dhi : Operand) : Statement (.idiv src dlo dhi) := ⟨rfl, rfl⟩

end Sys2Proof.Laws.Assembly
end

