-- ==== Sys2Proof/Laws/Table.lean ====
section
/-! SUPPORT. The device table: what construction checks, the hits of a well-formed table, and that placing a program keeps
the machine well formed. -/

namespace Sys2Proof.Machine

@[simp] theorem initial_regs (g : Regs) (b : Bus) (p : Params) : (State.initial g b p).regs = g := rfl
@[simp] theorem initial_bus (g : Regs) (b : Bus) (p : Params) : (State.initial g b p).bus = b := rfl
@[simp] theorem initial_params (g : Regs) (b : Bus) (p : Params) : (State.initial g b p).params = p := rfl
@[simp] theorem withProgram_regs (s : State) (bytes : List Byte) : (s.withProgram bytes).regs = s.regs := rfl
@[simp] theorem withProgram_params (s : State) (bytes : List Byte) : (s.withProgram bytes).params = s.params := rfl

/-- Everything construction can do: a machine of well-formed arguments (R66, R220). -/
theorem construct_some (g : Regs) (b : Bus) (p : Params) (s : State) :
    State.construct g b p = some s ↔ (b.mem.wf ∧ tableWf b.shape ∧ p.wf = true) ∧ s = State.initial g b p := by
  unfold State.construct
  split
  · rename_i h
    rw [Option.some_inj, eq_comm]
    exact (and_iff_right h).symm
  · rename_i h
    exact ⟨fun e => (by cases e), fun e => absurd e.1 h⟩

theorem Range.wf_iff (r : Range) : r.wf = true ↔ r.start < r.stop ∧ r.stop ≤ 2 ^ 32 ∧ r.start % 2 = 0 := by
  simp [Range.wf, and_assoc]

theorem Range.disjoint_iff (r q : Range) : r.disjoint q = true ↔ r.stop ≤ q.start ∨ q.stop ≤ r.start := by
  simp [Range.disjoint]

theorem Range.contains_iff (r : Range) (a : Nat) : r.contains a = true ↔ r.start ≤ a ∧ a < r.stop := by
  simp [Range.contains]

/-- What is left of a range beside another is not empty, inside it, disjoint from the other, and starts where it starts
or where the other ends. -/
theorem Range.mem_without (w r p : Range) (h : p ∈ Range.without w r) :
    p.start < p.stop ∧ r.start ≤ p.start ∧ p.stop ≤ r.stop ∧ (p.stop ≤ w.start ∨ w.stop ≤ p.start) ∧
      (p.start = r.start ∨ p.start = w.stop) := by
  simp only [Range.without, List.mem_filter, List.mem_cons, List.not_mem_nil, or_false, decide_eq_true_eq] at h
  obtain ⟨rfl | rfl, h⟩ := h <;> simp only at h ⊢ <;> refine ⟨h, by omega, by omega, by omega, ?_⟩
  · exact .inl trivial
  · exact max_choice _ _

/-- The parts left of a range do not overlap. -/
theorem Range.without_pairwise (w r : Range) (h : w.start ≤ w.stop) :
    (Range.without w r).Pairwise (fun p q => p.disjoint q = true) := by
  refine List.Pairwise.sublist List.filter_sublist ?_
  simp only [List.pairwise_cons, List.mem_singleton, forall_eq, Range.disjoint_iff, List.not_mem_nil, false_implies,
    implies_true, List.Pairwise.nil, and_true]
  omega

/-- A table with a window in front is well formed where it was and the window is (R66). -/
theorem withWindow_tableWf (b : Bus) (w : Range) (hw : w.wf = true) (he : w.stop % 2 = 0) (h : tableWf b.shape) :
    tableWf (b.withWindow w).shape := by
  have hw := (Range.wf_iff w).1 hw
  have hs : (b.withWindow w).shape.flatMap Prod.snd = w :: (b.shape.flatMap Prod.snd).flatMap (Range.without w) := by
    simp [Bus.withWindow, Bus.shape, Device.shape, Device.without, List.flatMap_map, List.flatMap_assoc]
  unfold tableWf
  rw [hs]
  obtain ⟨h1, h2⟩ := h
  refine ⟨fun p hp => ?_, List.pairwise_cons.2 ⟨fun p hp => ?_, List.pairwise_flatMap.2 ⟨fun r _ => ?_, ?_⟩⟩⟩
  · rcases List.mem_cons.1 hp with rfl | hp
    · exact (Range.wf_iff _).2 hw
    · obtain ⟨r, hr, hp⟩ := List.mem_flatMap.1 hp
      have := Range.mem_without w r p hp
      have := (Range.wf_iff r).1 (h1 r hr)
      rw [Range.wf_iff]
      omega
  · obtain ⟨r, _, hp⟩ := List.mem_flatMap.1 hp
    have := Range.mem_without w r p hp
    rw [Range.disjoint_iff]
    omega
  · exact Range.without_pairwise w r (by omega)
  · refine h2.imp fun {r q} hd p hp p' hp' => ?_
    have := Range.mem_without w r p hp
    have := Range.mem_without w q p' hp'
    rw [Range.disjoint_iff] at hd ⊢
    omega

/-- At a shift of 16 the window of a code offset is a well-formed range that ends at an even address (R61). -/
theorem window_wf (co : Word16) : (window 16 co).wf = true ∧ (window 16 co).stop % 2 = 0 := by
  have h : (flat 16 0 co).toNat = co.toNat * 65536 := by
    have := co.isLt
    simp [flat, BitVec.toNat_shiftLeft, Nat.shiftLeft_eq]
    omega
  have := co.isLt
  rw [Range.wf_iff]
  simp only [window, h]
  omega

theorem storeWindow_wf (shift : Nat) (co : Word16) (bytes : List Byte) (pc : Word32) (m : Memory) (h : m.wf) :
    (storeWindow shift co pc bytes m).wf := by
  induction bytes generalizing pc m with
  | nil => exact h
  | cons b bytes ih => exact ih _ _ (write_wf _ _ _ h)

/-- Placing a program keeps the machine well formed (log 4). -/
theorem withProgram_inv (s : State) (bytes : List Byte) (h : s.inv) : (s.withProgram bytes).inv := by
  obtain ⟨hm, ht, hp⟩ := h
  have h16 : s.params.segShift = 16 := by
    simp only [Params.wf, Bool.and_eq_true, decide_eq_true_eq] at hp
    exact hp.2
  refine ⟨storeWindow_wf _ _ _ _ _ hm, ?_, hp⟩
  have hw := window_wf s.regs.codeOfs
  have := withWindow_tableWf s.bus _ hw.1 hw.2 ht
  rw [← h16] at this
  exact this

/-- The range found holds the address (R67). -/
theorem findRange_contains (rs : List Range) (a k i : Nat) (r : Range) (hf : findRange rs a k = some (i, r)) :
    r.contains a = true := by
  induction rs generalizing k with
  | nil => cases hf
  | cons q rs ih =>
    rw [findRange] at hf
    split at hf
    · rename_i h
      cases hf
      exact h
    · exact ih _ hf

/-- In disjoint ranges the range that holds one address is the one found for every address it holds (R67). -/
theorem findRange_same (rs : List Range) (a a' k i : Nat) (r : Range) (h : rs.Pairwise (fun p q => p.disjoint q = true))
    (hf : findRange rs a k = some (i, r)) (hc : r.contains a' = true) : findRange rs a' k = some (i, r) ∧ r ∈ rs := by
  induction rs generalizing k with
  | nil => cases hf
  | cons q rs ih =>
    rw [findRange] at hf ⊢
    split at hf
    · cases hf
      exact ⟨if_pos hc, List.mem_cons_self⟩
    · obtain ⟨h1, h2⟩ := ih _ (List.pairwise_cons.1 h).2 hf
      have hd := (List.pairwise_cons.1 h).1 r h2
      rw [Range.disjoint_iff] at hd
      rw [Range.contains_iff] at hc
      refine ⟨?_, List.mem_cons_of_mem _ h2⟩
      rw [if_neg (by rw [Range.contains_iff]; omega), h1]

/-- Where no range holds the address none is found (R67). -/
theorem findRange_none (rs : List Range) (a k : Nat) (h : ∀ r ∈ rs, r.contains a = false) :
    findRange rs a k = none := by
  induction rs generalizing k with
  | nil => rfl
  | cons q rs ih =>
    rw [findRange, h q List.mem_cons_self, if_neg (by simp), ih _ fun r hr => h r (List.mem_cons_of_mem _ hr)]

/-- In a table of disjoint ranges every address of a hit's range hits the same range of the same device (R67). -/
theorem findFrom_same (ds : List Device) (a a' i : Nat) (h : Hit)
    (hd : (ds.flatMap Device.ranges).Pairwise (fun p q => p.disjoint q = true)) (hf : findFrom ds a i = some h)
    (hc : h.span.contains a' = true) :
    findFrom ds a' i = some { h with offset := a' - h.span.start } ∧ h.span ∈ ds.flatMap Device.ranges ∧
      h.offset = a - h.span.start ∧ h.span.contains a = true := by
  induction ds generalizing i with
  | nil => cases hf
  | cons d ds ih =>
    rw [findFrom] at hf ⊢
    rw [List.flatMap_cons, List.pairwise_append] at hd
    rw [List.flatMap_cons]
    split at hf
    · rename_i k r hr
      cases hf
      obtain ⟨h1, h2⟩ := findRange_same _ _ _ _ _ _ hd.1 hr hc
      refine ⟨by rw [h1], List.mem_append_left _ h2, rfl, ?_⟩
      exact findRange_contains _ _ _ _ _ hr
    · obtain ⟨h1, h2, h3⟩ := ih _ hd.2.1 hf
      refine ⟨?_, List.mem_append_right _ h2, h3⟩
      rw [findRange_none, h1]
      intro r hr
      have := hd.2.2 r hr _ h2
      rw [Range.disjoint_iff] at this
      rw [Range.contains_iff] at hc
      rw [← Bool.not_eq_true, Range.contains_iff]
      omega

end Sys2Proof.Machine
end

