-- ==== Sys2Proof/Tests/Slice0.lean ====
section
/-! SUPPORT. Small tests from the spec's own examples and vectors (95_test_vectors.md), and for every obligation with
hypotheses a state and operands that meet them together. -/

namespace Sys2Proof.Tests

open Sys2Proof Sys2Proof.Machine

/-! ### Helpers -/

/-- A machine with plain memory in the window of `CO` and bytes stored from `PC` on. -/
def machine (g : Regs) (bytes : List Byte) (p : Params := defaultParams) : State :=
  (State.initial g { devices := [], mem := [] } p).withProgram bytes

/-- A machine with no program, for tests of one instruction. -/
def bare (g : Regs) (p : Params := defaultParams) : State := State.initial g { devices := [], mem := [] } p

/-- The registers after an outcome, when it is a next state. -/
def regsOf : Host.Outcome State Fault Refusal → Option Regs
  | .next t => some t.regs
  | _ => none

/-- The exception an outcome reports. -/
def raisedOf : Host.Outcome State Fault Refusal → Option ExceptionKind
  | .next t => t.report.raised
  | _ => none

theorem next_of_regsOf {o : Host.Outcome State Fault Refusal} (h : (regsOf o).isSome = true) : ∃ t, o = .next t := by
  cases o with
  | next t => exact ⟨t, rfl⟩
  | fault f => cases h
  | refused r => cases h

/-- A value that reads back as the wanted one is the wanted one. -/
theorem ok_of {α : Type} [DecidableEq α] (x : Except ExceptionKind α) (a : α)
    (h : (match x with | .ok b => decide (b = a) | .error _ => false) = true) : x = .ok a := by
  cases x with
  | error k => cases h
  | ok b => exact congrArg _ (of_decide_eq_true h)

/-- A policy that refuses every write to the views of `A` and of `FLAGS` at level 0. -/
def lockedA : Params :=
  { defaultParams with
    denied := [⟨0, 0x00, .write⟩, ⟨0, 0x01, .write⟩, ⟨0, 0x02, .write⟩, ⟨0, 0x03, .write⟩, ⟨0, 0x2e, .write⟩,
      ⟨0, 0x2f, .write⟩] }

/-- A policy that refuses every read of `B.d` at level 0. -/
def noReadB : Params := { defaultParams with denied := [⟨0, 0x04, .read⟩] }

/-- Test mode on, level 0. -/
def testRegs : Regs := { Regs.zero with a := 0x00000007, b := 0x00000002, flags := 0x00000010 }

/-- A device of the table without plain memory, before one with it: even starts, disjoint ranges. -/
def mixedBus : Bus :=
  { devices := [{ kind := .external 5, ranges := [⟨0x10, 0x20⟩], state := 3 },
      { kind := .memory, ranges := [⟨0, 0x10⟩, ⟨0xfffffffe, 0x100000000⟩], state := 0 }]
    mem := [(4, 0x55), (0xffffffff, 0xad)] }

/-! ### Well-formedness -/

theorem test_illformed_register_id_refused : Instr.wf (.mov (.reg 0x1a) (.reg 0x00)) = false := by decide
theorem test_illformed_high_register_id_refused : Instr.wf (.div (.imm8 1) (.reg 0x02) (.reg 0x30)) = false := by decide
theorem test_wellformed_immediates : Instr.wf (.mov (.imm16 0xffff) (.imm8 0x80)) = true := by decide
theorem test_opcode_map_clash_refused : OpcodeMap.wf { OpcodeMap.default with idiv := 0x80 } = false := by decide
theorem test_opcode_map_low_byte_refused : OpcodeMap.wf { OpcodeMap.default with mov := 0x7f } = false := by decide
theorem test_default_opcode_map : OpcodeMap.default.wf = true := by decide
theorem test_shift_8_refused : Params.wf { defaultParams with segShift := 8 } = false := by decide
theorem test_register_without_index_refused :
    Params.wf { defaultParams with regOrder := { RegOrder.listing with spc := #v[0, 1, 2, 2] } } = false := by decide
theorem test_default_params : defaultParams.wf = true := by decide
theorem test_empty_range_refused : ¬tableWf [(.memory, [⟨4, 4⟩])] := by decide
theorem test_range_past_the_end_refused : ¬tableWf [(.memory, [⟨0, 2 ^ 32 + 2⟩])] := by decide
theorem test_overlap_refused : ¬tableWf [(.memory, [⟨0, 8⟩]), (.external 1, [⟨6, 10⟩])] := by decide
theorem test_odd_start_refused : ¬tableWf [(.memory, [⟨1, 8⟩])] := by decide
theorem test_odd_stop_allowed : tableWf [(.memory, [⟨0, 7⟩]), (.memory, [⟨8, 9⟩])] := by decide
theorem test_unsorted_memory_refused : ¬Memory.wf [(2, 0x01), (1, 0x01)] := by decide
theorem test_zero_entry_refused : ¬Memory.wf [(2, 0x00)] := by decide
theorem test_entry_past_the_end_refused : ¬Memory.wf [(2 ^ 32, 0x01)] := by decide

/-- Construction refuses what the checks refuse: an odd start, an overlap, the shift of 8, memory out of order. -/
theorem test_construct_refuses :
    State.construct .zero { devices := [⟨.external 1, [⟨1, 8⟩], 0⟩], mem := [] } defaultParams = none ∧
      State.construct .zero { devices := [⟨.memory, [⟨0, 8⟩, ⟨6, 10⟩], 0⟩], mem := [] } defaultParams = none ∧
      State.construct .zero { devices := [], mem := [] } { defaultParams with segShift := 8 } = none ∧
      State.construct .zero { devices := [], mem := [(2, 0x01), (1, 0x01)] } defaultParams = none := by decide
theorem test_construct_accepts : (State.construct .zero mixedBus defaultParams).isSome = true := by decide

/-- A placed program's window takes its addresses out of the other ranges. -/
theorem test_window_clips :
    (Bus.withWindow { devices := [⟨.external 1, [⟨0xfffe, 0x20002⟩], 0⟩], mem := [] } (window 16 1)).shape =
      [(.memory, [⟨0x10000, 0x20000⟩]), (.external 1, [⟨0xfffe, 0x10000⟩, ⟨0x20000, 0x20002⟩])] := by decide

/-! ### Decoding: one word of each constructor, written from the encodings of 30_encoding.md R90 to R98 -/

/-- `MOV B.d, #b:0x05` (95_test_vectors.md 2.5): an immediate destination decodes. -/
theorem test_decode_mov :
    decode .default [0x80, 0x04, 0x70, 0x05, 0x80] = .ok (.mov (.reg 0x04) (.imm8 0x05), [0x80]) := by rfl
theorem test_decode_movsx :
    decode .default [0x81, 0x02, 0x29, 0xff] = .ok (.movsx (.reg 0x02) (.reg 0x29), [0xff]) := by rfl
theorem test_decode_add :
    decode .default [0x82, 0x71, 0x10, 0x00, 0x2e, 0x80] = .ok (.add (.imm16 0x0010) (.reg 0x2e), [0x80]) := by rfl
theorem test_decode_adc :
    decode .default [0x83, 0x71, 0xff, 0xff, 0x14, 0x80] = .ok (.adc (.imm16 0xffff) (.reg 0x14), [0x80]) := by rfl
theorem test_decode_sub :
    decode .default [0x84, 0x70, 0x01, 0x02, 0x80] = .ok (.sub (.imm8 0x01) (.reg 0x02), [0x80]) := by rfl
theorem test_decode_sbb :
    decode .default [0x85, 0x0c, 0x08, 0x80] = .ok (.sbb (.reg 0x0c) (.reg 0x08), [0x80]) := by rfl
theorem test_decode_mul :
    decode .default [0x86, 0x05, 0x01, 0x0d, 0x80] = .ok (.mul (.reg 0x05) (.reg 0x01) (.reg 0x0d), [0x80]) := by rfl
theorem test_decode_imul :
    decode .default [0x87, 0x70, 0x34, 0x02, 0x03, 0x80] = .ok (.imul (.imm8 0x34) (.reg 0x02) (.reg 0x03), [0x80]) := by
  rfl
theorem test_decode_div :
    decode .default [0x88, 0x70, 0x56, 0x02, 0x03, 0x80] = .ok (.div (.imm8 0x56) (.reg 0x02) (.reg 0x03), [0x80]) := by
  rfl
theorem test_decode_idiv :
    decode .default [0x89, 0x71, 0x03, 0x00, 0x01, 0x0d, 0x80] =
      .ok (.idiv (.imm16 0x0003) (.reg 0x01) (.reg 0x0d), [0x80]) := by rfl

/-- Data bytes are opaque (95_test_vectors.md 2.6): `80 71 70 71 02 80`. -/
theorem test_decode_opaque_data :
    decode .default [0x80, 0x71, 0x70, 0x71, 0x02, 0x80] = .ok (.mov (.imm16 0x7170) (.reg 0x02), [0x80]) := by rfl
theorem test_decode_invalid_id : decode .default [0x80, 0x00, 0x30, 0x80] = .error (.invalidRegister 0x30) := by rfl
theorem test_decode_reserved_byte : decode .default [0x80, 0x72, 0x05, 0x80] = .error (.invalidRegister 0x72) := by rfl
theorem test_decode_low_opcode : decode .default [0x05, 0x80] = .error (.unassignedOpcode 0x05) := by rfl
theorem test_decode_count : decode .default [0x80, 0x00, 0x01, 0x02, 0x80] = .error (.operandCount 0x80 3) := by rfl
theorem test_decode_no_terminator : decode .default [0x80, 0x00, 0x70] = .error .truncated := by rfl
theorem test_encode_imm16 : encode .default (.adc (.imm16 0xff00) (.reg 0x14)) = [0x83, 0x71, 0x00, 0xff, 0x14] := by
  decide

/-- A table word gives its first byte's instruction, the operands above it zero (log 16). -/
theorem test_table_word_mov : decodeTableWord 8 0x80 = some (.mov (.reg 0x00) (.reg 0x00)) := by decide
theorem test_table_word_idiv : decodeTableWord 8 0x89 = some (.idiv (.reg 0x00) (.reg 0x00) (.reg 0x00)) := by decide
theorem test_table_word_unassigned : decodeTableWord 8 0x8a = none := by decide

/-! ### Instructions (95_test_vectors.md 2.2 to 2.5) -/

/-- `A = 0x12345678`, `B = 0xcafebabe`, `SP = 0xdeadbeef` (95_test_vectors.md 2.5). -/
def moveRegs : Regs := { Regs.zero with a := 0x12345678, b := 0xcafebabe, sp := 0xdeadbeef }

theorem test_mov_truncates_to_high_byte :
    regsOf (exec (.mov (.imm16 0x8001) (.reg 0x03)) (bare moveRegs)) = some { moveRegs with a := 0x12340178 } := by
  decide
theorem test_mov_keeps_upper_half :
    regsOf (exec (.mov (.imm16 0x1234) (.reg 0x10)) (bare moveRegs)) = some { moveRegs with sp := 0xdead1234 } := by
  decide
theorem test_movsx_extends :
    regsOf (exec (.movsx (.reg 0x07) (.reg 0x00)) (bare moveRegs)) = some { moveRegs with a := 0xffffffba } := by decide
theorem test_movsx_code_offset :
    regsOf (exec (.movsx (.imm8 0xff) (.reg 0x20)) (bare moveRegs)) = some { moveRegs with codeOfs := 0xffff } := by
  decide
theorem test_add_signed_overflow :
    regsOf (exec (.add (.imm8 0x01) (.reg 0x02)) (bare { Regs.zero with a := 0x7f })) =
      some { Regs.zero with a := 0x80, flags := 0x6 } := by decide
theorem test_add_to_flags_enters_test_mode :
    regsOf (exec (.add (.imm16 0x0010) (.reg 0x2e)) (bare .zero)) = some { Regs.zero with flags := 0x10 } := by decide
theorem test_adc_keeps_high_flags :
    regsOf (exec (.adc (.reg 0x04) (.reg 0x00)) (bare { Regs.zero with a := 0x12345678, b := 0x11111111, flags := 0xc1 })) =
      some { Regs.zero with a := 0x2345678a, b := 0x11111111, flags := 0xc0 } := by decide
theorem test_adc_wraps :
    regsOf (exec (.adc (.imm8 0x00) (.reg 0x02)) (bare { Regs.zero with a := 0xff, flags := 0x1 })) =
      some { Regs.zero with flags := 0x9 } := by decide
theorem test_sub_borrows :
    regsOf (exec (.sub (.imm8 0x01) (.reg 0x02)) (bare .zero)) = some { Regs.zero with a := 0xff, flags := 0x3 } := by
  decide
theorem test_sub_itself :
    regsOf (exec (.sub (.reg 0x00) (.reg 0x00)) (bare { Regs.zero with a := 0xc1 })) =
      some { Regs.zero with flags := 0x8 } := by decide
theorem test_sbb_takes_the_borrow :
    regsOf (exec (.sbb (.imm8 0x00) (.reg 0x02)) (bare { Regs.zero with a := 0x80, flags := 0x1 })) =
      some { Regs.zero with a := 0x7f, flags := 0x4 } := by decide
theorem test_mul_wide :
    regsOf (exec (.mul (.reg 0x04) (.reg 0x00) (.reg 0x08))
      (bare { Regs.zero with a := 0xffffffff, b := 0xffffffff, c := 0x55555555 })) =
      some { Regs.zero with a := 0x00000001, b := 0xffffffff, c := 0xfffffffe, flags := 0x6 } := by decide
theorem test_mul_same_id_twice :
    regsOf (exec (.mul (.imm8 0x10) (.reg 0x02) (.reg 0x02)) (bare { Regs.zero with a := 0x10 })) =
      some { Regs.zero with a := 0x01, flags := 0x4 } := by decide
theorem test_imul_source_example :
    regsOf (exec (.imul (.imm8 0x34) (.reg 0x02) (.reg 0x03)) (bare { Regs.zero with a := 0xee })) =
      some { Regs.zero with a := 0xfc58, flags := 0x6 } := by decide
theorem test_div_source_example :
    regsOf (exec (.div (.imm8 0x56) (.reg 0x02) (.reg 0x03)) (bare { Regs.zero with a := 0x1234 })) =
      some { Regs.zero with a := 0x1036 } := by decide
theorem test_div_in_test_mode :
    regsOf (exec (.div (.reg 0x06) (.reg 0x02) (.reg 0x03)) (bare testRegs)) = some testRegs := by decide
theorem test_idiv_inverse :
    regsOf (exec (.idiv (.imm8 0x34) (.reg 0x02) (.reg 0x03)) (bare { Regs.zero with a := 0xfc58 })) =
      some { Regs.zero with a := 0xee, flags := 0xa } := by decide
theorem test_idiv_overflow_traps :
    regsOf (exec (.idiv (.reg 0x06) (.reg 0x02) (.reg 0x03))
      (bare { Regs.zero with a := 0x8000, b := 0xff, pc := 4, codeOfs := 0x1234 })) =
      some { Regs.zero with a := 0x8000, b := 0xff, pc := 4, codeOfs := 0x1234, rp := 4, rop := 0x34 } := by decide


/-- Another register order (decision D4): id `0x2c` is then `FLAGS.w` and id `0x2e` is `PC.w`. -/
theorem test_other_register_order :
    regsOf (exec (.mov (.imm16 0x1234) (.reg 0x2e))
      (bare .zero { defaultParams with regOrder := { RegOrder.listing with spc := #v[0, 1, 3, 2] } })) =
      some { Regs.zero with pc := 0x1234 } := by decide

/-! ### Steps -/

/-- Window wrap inside an instruction (95_test_vectors.md 2.6): `PC` carries into bit 16, `CO` stays. -/
theorem test_step_wraps_in_the_window :
    regsOf (step (machine { Regs.zero with codeOfs := 1, pc := 0xfffe } [0x80, 0x70, 0x2a, 0x00, 0x80])) =
      some { Regs.zero with codeOfs := 1, pc := 0x10002, a := 0x2a } := by decide

/-- A count failure leaves `PC` at the terminator, an invalid id leaves it past the byte (95_test_vectors.md 2.6). -/
theorem test_step_count_failure :
    regsOf (step (machine .zero [0x80, 0x00, 0x01, 0x02, 0x80])) = some { Regs.zero with pc := 4, rp := 4 } := by
  decide
theorem test_step_invalid_id :
    regsOf (step (machine .zero [0x80, 0x00, 0x30, 0x80])) = some { Regs.zero with pc := 3, rp := 3 } := by
  decide

/-- The word of a table row runs as the first instruction after reset (log 16). -/
theorem test_fetch_word_runs :
    regsOf (step (State.reset.withFetchWord 32 0x02017082)) = some { Regs.zero with a := 0x01, pc := 4 } ∧
      raisedOf (step (State.reset.withFetchWord 8 0x88)) = some .invalidOperation := by decide

/-! ### Witnesses: for each obligation with hypotheses, values that meet them together -/

theorem witness_DecodeInvertsEncode :
    OpcodeMap.default.wf = true ∧ Instr.wf (.idiv (.imm16 0xffff) (.reg 0x2f) (.reg 0x19)) = true ∧
      (0x80 : Byte).msb = true ∧ (0xff : Byte).msb = true := by decide

theorem witness_DecodedBytesAreTheEncoding :
    decode .default [0x86, 0x05, 0x71, 0x80, 0xff, 0x0d, 0xff, 0x00] =
      .ok (.mul (.reg 0x05) (.imm16 0xff80) (.reg 0x0d), [0xff, 0x00]) := by rfl

theorem witness_ReservedOperandBytesFail :
    ∀ b ∈ [0x1a, 0x1f, 0x24, 0x27, 0x30, 0x6f, 0x72, 0x7f], (fetch8 (machine .zero [b])).1 = b ∧
      ((0x1a ≤ b ∧ b ≤ 0x1f) ∨ (0x24 ≤ b ∧ b ≤ 0x27) ∨ (0x30 ≤ b ∧ b ≤ 0x6f) ∨ (0x72 ≤ b ∧ b ≤ 0x7f)) := by decide

theorem witness_StepRunsDecodedInstruction :
    (fetchMany 4 (beginCycle (machine .zero [0x80, 0x01, 0x08, 0xff]))).1 = [0x80, 0x01, 0x08, 0xff] ∧
      decode (machine .zero [0x80, 0x01, 0x08, 0xff]).params.opc [0x80, 0x01, 0x08, 0xff] =
        .ok (.mov (.reg 0x01) (.reg 0x08), [0xff]) := ⟨by decide, rfl⟩

/-- At the end of a window, so that the bytes wrap. -/
theorem witness_PlainMemoryStepRunsEncodedInstruction :
    let s := machine { Regs.zero with codeOfs := 1, pc := 0xfffe } [0x80, 0x01, 0x08, 0x80]
    s.bus.plain = true ∧ s.params.opc.wf = true ∧ Instr.wf (.mov (.reg 0x01) (.reg 0x08)) = true ∧
      ∀ k b, (encode s.params.opc (.mov (.reg 0x01) (.reg 0x08)) ++ [0x80])[k]? = some b →
        (s.bus.read8 (flat s.params.segShift (s.regs.pc + BitVec.ofNat 32 k) s.regs.codeOfs)).1 = b := by
  refine ⟨by decide, by decide, by decide, fun k b h => ?_⟩
  match k with
  | 0 => cases h; decide
  | 1 => cases h; decide
  | 2 => cases h; decide
  | 3 => cases h; decide
  | k + 4 => cases h

theorem witness_DecodeFailureTakesTrapEntry :
    let ops : List Operand := [.reg 0x00, .imm16 0x8071]
    ops.all Operand.wf = true ∧ ops.length < operandFuel ∧ classify 0x30 = .invalid ∧
      (fetchMany 6 (beginCycle (machine .zero [0x80, 0x00, 0x71, 0x71, 0x80, 0x30]))).1 =
        0x80 :: (ops.flatMap encodeOperand ++ [0x30]) := by decide

/-- The row "80 70 then unmapped" of 95_test_vectors.md 2.6: two bytes of plain memory and nothing else mapped. -/
def twoBytes : State :=
  State.initial .zero { devices := [⟨.memory, [⟨0, 2⟩], 0⟩], mem := [(0, 0x80), (1, 0x70)] } defaultParams

theorem twoBytes_read (k : Nat) (h : k < 65537) :
    ((beginCycle twoBytes).bus.read8
      (flat twoBytes.params.segShift (twoBytes.regs.pc + BitVec.ofNat 32 k) twoBytes.regs.codeOfs)).1 =
        if k = 0 ∨ k = 65536 then 0x80 else if k = 1 then 0x70 else 0x00 := by
  have ha : flat twoBytes.params.segShift (twoBytes.regs.pc + BitVec.ofNat 32 k) twoBytes.regs.codeOfs =
      BitVec.ofNat 32 (k % 65536) := by
    apply BitVec.eq_of_toNat_eq
    show BitVec.toNat (flat 16 (0 + BitVec.ofNat 32 k) 0) = _
    simp [flat, BitVec.extractLsb'_toNat]
  rw [ha]
  rcases (show k = 0 ∨ k = 65536 ∨ k = 1 ∨ 2 ≤ k ∧ k < 65536 by omega) with rfl | rfl | rfl | hk
  · decide
  · decide
  · decide
  · have hn : (beginCycle twoBytes).bus.findDevice (BitVec.ofNat 32 (k % 65536)) = none := by
      show findFrom [⟨.memory, [⟨0, 2⟩], 0⟩] (BitVec.ofNat 32 (k % 65536)).toNat 0 = none
      have : (BitVec.ofNat 32 (k % 65536)).toNat = k := by
        rw [BitVec.toNat_ofNat]
        omega
      rw [this]
      have hc : Range.contains ⟨0, 2⟩ k = false := by
        rw [← Bool.not_eq_true, Range.contains_iff]
        show ¬(0 ≤ k ∧ k < 2)
        omega
      simp [findFrom, findRange, hc]
    rw [read8_unmapped _ _ hn, if_neg (by omega), if_neg (by omega)]

/-- The bytes of a scan that starts with `80 70`, reads `n + 1` zeros and meets `80` again. -/
theorem scan_bytes (n e m : Nat) (f : Nat → Byte) (he : e = n + 3) (hm : m = n + 4)
    (h : ∀ k, k < m → f k = if k = 0 ∨ k = e then 0x80 else if k = 1 then 0x70 else 0x00) :
    (List.range m).map f = 0x80 :: (encodeOperand (.imm8 0x00) ++ List.replicate n 0x00 ++ [0x80]) := by
  subst hm he
  apply List.ext_getElem
  · simp [encodeOperand]
  · intro k h1 h2
    have hk : k < n + 4 := by simpa using h1
    rw [List.getElem_map, List.getElem_range, h k hk]
    match k, h2, hk with
    | 0, _, _ => rfl
    | 1, _, _ => rw [if_neg (by omega)]; rfl
    | 2, _, _ => rw [if_neg (by omega)]; rfl
    | k + 3, h2, hk =>
      simp only [encodeOperand, List.cons_append, List.nil_append, List.getElem_cons_succ]
      by_cases e : k = n
      · subst e
        simp
      · rw [if_neg (by omega), if_neg (by omega), List.getElem_append_left (by simp; omega), List.getElem_replicate]

/-- Its 65,534 operands, 65,537 reads with the opcode byte again as the terminator. -/
theorem witness_DispatchFailureTakesTrapEntry_count :
    let ops : List Operand := .imm8 0x00 :: List.replicate 65533 (.reg 0x00)
    ops.all Operand.wf = true ∧ ops.length = 65534 ∧ ops.length < operandFuel ∧ (0x80 : Byte).msb = true ∧
      dispatch twoBytes.params.opc 0x80 ops = .error (.operandCount 0x80 65534) ∧
      (fetchMany 65537 (beginCycle twoBytes)).1 = 0x80 :: (ops.flatMap encodeOperand ++ [0x80]) := by
  have hr : ∀ n, (List.replicate n (Operand.reg 0x00)).flatMap encodeOperand = List.replicate n (0x00 : Byte) := by
    intro n
    induction n with
    | zero => rfl
    | succ n ih => rw [List.replicate_succ, List.flatMap_cons, ih]; rfl
  have hwf : Operand.wf (.reg 0x00) = true ∧ Operand.wf (.imm8 0x00) = true := by decide
  have hop : twoBytes.params.opc.lookup 0x80 = some .mov := by decide
  refine ⟨?_, ?_, ?_, by decide, ?_, ?_⟩
  · rw [List.all_cons, hwf.2, List.all_replicate, hwf.1]
    simp
  · rw [List.length_cons, List.length_replicate]
  · rw [List.length_cons, List.length_replicate, operandFuel]
    omega
  · have : assemble .mov (.imm8 0x00 :: List.replicate 65533 (.reg 0x00)) = none := by
      rw [show (65533 : Nat) = 65532 + 1 from rfl, List.replicate_succ,
        show (65532 : Nat) = 65531 + 1 from rfl, List.replicate_succ]
      rfl
    simp only [dispatch, hop, this, List.length_cons, List.length_replicate]
  · rw [fetchMany_plain _ _ (by decide), List.flatMap_cons, hr]
    simp only [beginCycle_params, beginCycle_regs]
    exact scan_bytes 65533 65536 65537 _ (by omega) (by omega) twoBytes_read

theorem witness_DispatchFailureTakesTrapEntry :
    ((0x80 : Byte).msb = true ∧
      dispatch .default 0x8a [] = .error (.unassignedOpcode 0x8a) ∧
      (fetchMany 2 (beginCycle (machine .zero [0x8a, 0x80]))).1 = [0x8a, 0x80]) ∧
    dispatch .default 0x80 [] = .error (.operandCount 0x80 0) ∧
      (fetchMany 2 (beginCycle (machine .zero [0x80, 0x80]))).1 = [0x80, 0x80] :=
  ⟨⟨by decide, rfl, by decide⟩, rfl, by decide⟩

/-- At reset there is no device: the operand loop of the reset state does not end for any `PC`. -/
theorem reset_loop_stuck (fuel : Nat) (ops : List Operand) (pc : Word32) :
    operandLoop fuel ops ((beginCycle State.reset).withPc pc) = .stuck := by
  induction fuel generalizing ops pc with
  | zero => rfl
  | succ n ih =>
    have h0 : (fetch8 ((beginCycle State.reset).withPc pc)).1 = 0x00 := rfl
    have h1 : (fetch8 ((beginCycle State.reset).withPc pc)).2 = (beginCycle State.reset).withPc (pc + 1) := rfl
    have hc : classify 0x00 = .reg := by decide
    rw [operandLoop]
    simp only [h0, h1, hc, ih]

theorem step_stuck (s : State) (h : operandLoop operandFuel [] (fetch8 (beginCycle s)).2 = .stuck) :
    step s = .fault .stuck := by
  unfold step fetchInstr
  simp only [h]

theorem core_step (s : State) : Sys2Proof.core.step s = step s := rfl

theorem run_one_fault (M : Host.Core) (s : M.State) (f : M.Fault) (h : M.step s = .fault f) : M.run 1 s = .fault f := by
  simp only [Host.Core.run, h]

theorem witness_NoDeviceIsStuck : State.reset.bus.devices = [] := rfl

theorem witness_PlainMemoryStuckNeverEnds :
    State.reset.bus.plain = true ∧ step State.reset = .fault .stuck := by
  refine ⟨rfl, ?_⟩
  have h1 : (fetch8 (beginCycle State.reset)).2 = (beginCycle State.reset).withPc 1 := rfl
  have h : operandLoop operandFuel [] (fetch8 (beginCycle State.reset)).2 = .stuck := by
    rw [h1, reset_loop_stuck]
  exact step_stuck _ h

theorem witness_EveryCyclePollsTheClocks : ∃ t, step (machine .zero [0x80, 0x01, 0x08, 0x80]) = .next t :=
  next_of_regsOf (by decide)

theorem witness_StepKeepsTheInvariant :
    (machine .zero [0x80, 0x01, 0x08, 0x80]).inv ∧ ∃ t, step (machine .zero [0x80, 0x01, 0x08, 0x80]) = .next t :=
  ⟨by decide, next_of_regsOf (by decide)⟩

theorem witness_ResetIsWellFormed :
    ∃ s, State.construct { Regs.zero with codeOfs := 0xffff } mixedBus defaultParams = some s :=
  Option.isSome_iff_exists.1 (by decide)

theorem witness_TrapEntrySavesPcAndCodeOffset : (bare { Regs.zero with codeOfs := 0x1234 }).params.trapSave =
    .pcAndOffset := rfl

theorem witness_StepKeepsTheConfiguration : ∃ t, step (machine .zero [0x8a, 0x80]) = .next t :=
  next_of_regsOf (by decide)

theorem witness_TestModeIsSticky :
    let s := machine testRegs [0x82, 0x70, 0x10, 0x02, 0x80]
    s.quiet ∧ s.testMode = true ∧ ∃ t, Sys2Proof.core.run 1 s = .next t :=
  ⟨rfl, by decide, next_of_regsOf (o := Sys2Proof.core.run 1 _) (by decide)⟩

theorem locked (r : Backing) (hr : r = .a ∨ r = .flags) : writeProtected lockedA 0 r := by
  intro id w h hw
  have key : ∀ id : Byte, (match viewAt lockedA.regOrder id with
      | some w => decide (w.reg = .a ∨ w.reg = .flags → lockedA.denied.contains ⟨0, id, .write⟩ = true)
      | none => true) = true := by decide
  have := key id
  rw [h] at this
  exact of_decide_eq_true this (hw ▸ hr)

theorem witness_PolicyProtectsRegisters :
    let s := machine { Regs.zero with a := 0x1234 } [0x80, 0x70, 0x05, 0x02, 0x80] lockedA
    s.quiet ∧ writeProtected s.params s.privilege .flags ∧ writeProtected s.params s.privilege .a ∧
      ∃ t, Sys2Proof.core.run 1 s = .next t :=
  ⟨rfl, locked .flags (.inr rfl), locked .a (.inl rfl), next_of_regsOf (o := Sys2Proof.core.run 1 _) (by decide)⟩

theorem witness_RopIsUnobservable :
    (machine .zero [0x8a, 0x80]).quiet ∧ (∃ t, Sys2Proof.core.run 1 (machine .zero [0x8a, 0x80]) = .next t) ∧
      State.reset.quiet ∧ Sys2Proof.core.run 1 State.reset = .fault .stuck := by
  refine ⟨rfl, next_of_regsOf (o := Sys2Proof.core.run 1 _) (by decide), rfl, ?_⟩
  exact run_one_fault Sys2Proof.core State.reset .stuck
    ((core_step State.reset).trans witness_PlainMemoryStuckNeverEnds.2)

theorem witness_RegisterReadChecksThenSelects :
    (bare .zero noReadB).canAccess 0x04 .read = false ∧
      ((bare .zero).canAccess 0x1a .read = true ∧ resolve 0x1a = none) ∧
      ∀ p ∈ [(0x00, Span.dword), (0x01, .word), (0x02, .lowByte), (0x03, .highByte)],
        (bare .zero).canAccess p.1 .read = true ∧ (bare .zero).view p.1 = some ⟨.a, p.2⟩ := by decide

theorem witness_RegisterWriteChecksThenMerges :
    (bare .zero lockedA).canAccess 0x03 .write = false ∧
      ((bare .zero).canAccess 0x30 .write = true ∧ resolve 0x30 = none) ∧
      (RegVal.word 0x1234).width ≠ Span.width .lowByte ∧
      ∀ p ∈ [(0x00, Span.dword, RegVal.dword 1), (0x01, .word, .word 1), (0x02, .lowByte, .byte 1),
          (0x03, .highByte, .byte 1)],
        (bare .zero).canAccess p.1 .write = true ∧ (bare .zero).view p.1 = some ⟨.a, p.2.1⟩ ∧ p.2.2.width = p.2.1.width := by
  decide

theorem witness_WritesKeepUntouchedBytes : ∃ t, writeReg 0x03 (.byte 0xbb) (bare moveRegs) = .ok t := ⟨_, rfl⟩

theorem witness_RaisingCommitsNothing :
    (bare .zero).report.raised = none ∧
      ∃ t, exec (.add (.imm8 1) (.reg 0x00)) (bare .zero) = .next t ∧ t.report.raised ≠ none :=
  ⟨rfl, _, rfl, by decide⟩

theorem witness_IllegalOperationHasOneCause :
    ((bare .zero noReadB).report.raised = none ∧
      ∃ t, exec (.mov (.reg 0x04) (.reg 0x00)) (bare .zero noReadB) = .next t ∧
        t.report.raised = some .illegalOperation) ∧
    (machine .zero [0x8a, 0x80]).params.denied = [] ∧ ∃ t, step (machine .zero [0x8a, 0x80]) = .next t :=
  ⟨⟨rfl, _, rfl, by decide⟩, rfl, next_of_regsOf (by decide)⟩

theorem witness_OnlyTrapEntryWritesRop :
    viewAt .listing 0x2f = some ⟨.flags, .dword⟩ ∧ (machine .zero [0x80, 0x01, 0x08, 0x80]).quiet ∧
      ∃ t, step (machine .zero [0x80, 0x01, 0x08, 0x80]) = .next t ∧ t.report.raised = none := by
  refine ⟨by decide, rfl, ?_⟩
  have h : (match step (machine .zero [0x80, 0x01, 0x08, 0x80]) with
      | .next t => decide (t.report.raised = none) | _ => false) = true := by decide
  split at h
  · rename_i t ht
    exact ⟨t, ht, of_decide_eq_true h⟩
  · cases h

theorem witness_MovRpToPcReturns :
    let u := bare { Regs.zero with pc := 0xffff, codeOfs := 0xffff }
    let s := bare { Regs.zero with pc := 0x10, codeOfs := 0xffff, rp := 0xffff }
    u.params.regOrder = .listing ∧ u.params.trapSave = .pcAndOffset ∧ s.params = u.params ∧ s.regs.rp = (trapEntry .illegalOperation u).regs.rp ∧
      s.regs.codeOfs = u.regs.codeOfs ∧ s.testMode = false ∧
      s.canAccess 0x18 .read = true ∧ s.canAccess 0x2c .write = true := by decide

theorem witness_ImmediateDestinationRaises :
    (∃ o ∈ (Instr.add (.reg 0x00) (.imm8 0xff)).destinations, ∀ id, o ≠ .reg id) ∧
      ∃ o ∈ (Instr.div (.reg 0x00) (.reg 0x02) (.imm16 0)).destinations, ∀ id, o ≠ .reg id :=
  ⟨⟨.imm8 0xff, by decide, fun _ h => (by cases h)⟩, .imm16 0, by decide, fun _ h => (by cases h)⟩

/-- A refused read of the source, of the low destination, and of the high destination alone; a refused write of the low
and of the high destination, with a quotient that exists and one at its last dividend. -/
theorem witness_RefusedAccessRaises :
    ((bare .zero noReadB).canAccess 0x04 .read = false ∧
      (Instr.div (.reg 0x04) (.reg 0x02) (.reg 0x03)).operands.head? = some (.reg 0x04)) ∧
    (readOperand (.imm8 1) (bare .zero noReadB) = .ok (.byte 1) ∧
      readReg 0x00 (bare .zero noReadB) = .ok (.dword 0)) ∧
    let s := bare .zero lockedA
    s.testMode = false ∧ readOperand (.imm8 1) s = .ok (.byte 1) ∧ s.canAccess 0x02 .write = false ∧
      (resolve 0x02).isSome = true ∧ readReg 0x02 s = .ok (.byte 0) ∧ viewWidth 0x06 = some .w8 ∧
      s.canAccess 0x06 .write = true ∧ readReg 0x06 s = .ok (.byte 0) ∧ viewWidth 0x02 = some .w8 ∧
      (divVal (.byte 0) (.byte 0) (.byte 1)).isSome = true ∧ (idivVal (.byte 1) (.byte 0x80) (.byte 0xff)).isSome = true :=
  ⟨⟨by decide, rfl⟩, ⟨rfl, rfl⟩, by decide, rfl, by decide, by decide, rfl, by decide, by decide, rfl, by decide, by decide,
    by decide⟩

theorem witness_MovesWriteTheConvertedValue :
    (bare moveRegs).testMode = false ∧ readOperand (.reg 0x04) (bare moveRegs) = .ok (.dword 0xcafebabe) ∧
      (bare moveRegs).view 0x2f = some ⟨.flags, .dword⟩ ∧ (bare moveRegs).canAccess 0x2f .write = true :=
  ⟨by decide, rfl, by decide, by decide⟩

theorem witness_TestModeSuppressesMoves :
    (bare testRegs).testMode = true ∧
      ((resolve 0x2f).isSome = true ∧ readOperand (.imm16 0) (bare testRegs) = .ok (.word 0)) ∧
      readOperand (.reg 0x04) (bare testRegs noReadB) = .error .illegalOperation ∧
      readOperand (.reg 0x1a) (bare testRegs) = .error .invalidOperation ∧
      ∀ id, Operand.imm8 0 ≠ .reg id := ⟨by decide, ⟨by decide, rfl⟩, rfl, rfl, fun _ h => (by cases h)⟩

theorem witness_MoveFrame : ∃ t, exec (.movsx (.imm8 0xff) (.reg 0x11)) (bare moveRegs) = .next t := ⟨_, rfl⟩

theorem witness_MovToCodeOffsetChangesWindow :
    (bare { Regs.zero with pc := 0xffffffff }).params.segShift = 16 ∧
      (bare { Regs.zero with pc := 0xffffffff }).params.regOrder = .listing ∧
      (bare { Regs.zero with pc := 0xffffffff }).testMode = false ∧
      (bare { Regs.zero with pc := 0xffffffff }).canAccess 0x20 .write = true := by decide

theorem witness_AddResultAndFlagLaw : 0 < 8 := by decide
theorem witness_SubResultAndFlags : 0 < 32 := by decide
theorem witness_DivideInvertsMultiply : (0x80 : Byte) ≠ 0 := by decide

theorem witness_ExtendThenTruncateIsIdentity :
    8 ≤ 32 ∧ 8 ≤ 8 ∧ extendVal (.byte 0x80) .w16 true = some (.word 0xff80) ∧
      extendVal (.word 0xfff6) .w32 false = some (.dword 0x0000fff6) := by decide

/-- Byte operands at the top of their range, and full-width operands into `FLAGS`. -/
theorem witness_AddAndAdcCommitTheSum :
    let s := bare { Regs.zero with a := 0xff, flags := 0x1 }
    (s.testMode = false ∧ readOperand (.reg 0x02) s = .ok (.byte 0xff) ∧ readReg 0x02 s = .ok (.byte 0xff) ∧
      s.view 0x02 = some ⟨.a, .lowByte⟩ ∧ s.canAccess 0x02 .write = true ∧ s.carry = true) ∧
    readOperand (.reg 0x00) s = .ok (.dword 0xff) ∧ readReg 0x2f s = .ok (.dword 1) ∧
      s.view 0x2f = some ⟨.flags, .dword⟩ ∧ s.canAccess 0x2f .write = true :=
  ⟨⟨by decide, rfl, rfl, by decide, by decide, by decide⟩, rfl, rfl, by decide, by decide⟩

theorem witness_SubAndSbbCommitTheDifference :
    let s := bare { Regs.zero with flags := 0x1 }
    s.testMode = false ∧ readOperand (.imm16 0xffff) s = .ok (.word 0xffff) ∧ readReg 0x01 s = .ok (.word 0) ∧
      s.view 0x01 = some ⟨.a, .word⟩ ∧ s.canAccess 0x01 .write = true ∧ s.carry = true :=
  ⟨by decide, rfl, rfl, by decide, by decide, by decide⟩

/-- Two views of one register, and one id twice. -/
theorem witness_MulAndImulCommitTheProduct :
    let s := bare { Regs.zero with a := 0x80 }
    s.testMode = false ∧ readOperand (.imm8 0x80) s = .ok (.byte 0x80) ∧ readReg 0x02 s = .ok (.byte 0x80) ∧
      s.view 0x02 = some ⟨.a, .lowByte⟩ ∧ s.view 0x03 = some ⟨.a, .highByte⟩ ∧ s.canAccess 0x02 .write = true ∧
      s.canAccess 0x03 .write = true :=
  ⟨by decide, rfl, rfl, by decide, by decide, by decide, by decide⟩

theorem witness_DivCommitsQuotientAndRemainder :
    let s := bare { Regs.zero with a := 0xffff }
    s.testMode = false ∧ readOperand (.imm8 1) s = .ok (.byte 1) ∧ readReg 0x02 s = .ok (.byte 0xff) ∧
      readReg 0x03 s = .ok (.byte 0xff) ∧ s.view 0x02 = some ⟨.a, .lowByte⟩ ∧ s.view 0x03 = some ⟨.a, .highByte⟩ ∧
      s.canAccess 0x02 .write = true ∧ s.canAccess 0x03 .write = true ∧ (RegVal.byte 1).toNat ≠ 0 :=
  ⟨by decide, rfl, rfl, rfl, by decide, by decide, by decide, by decide, by decide⟩

/-- `-32767` by `-1`: one above the excluded dividend. -/
theorem witness_IdivCommitsQuotientAndRemainder :
    let s := bare { Regs.zero with a := 0x8001 }
    s.testMode = false ∧ readOperand (.imm8 0xff) s = .ok (.byte 0xff) ∧ readReg 0x02 s = .ok (.byte 0x01) ∧
      readReg 0x03 s = .ok (.byte 0x80) ∧ s.view 0x02 = some ⟨.a, .lowByte⟩ ∧ s.view 0x03 = some ⟨.a, .highByte⟩ ∧
      s.canAccess 0x02 .write = true ∧ s.canAccess 0x03 .write = true ∧ (RegVal.byte 0xff).toNat ≠ 0 ∧
      (-32767 : Int) = signedOf (.byte 0x80) * 2 ^ Width.bits .w8 + (RegVal.byte 0x01).toNat ∧
      ¬((-32767 : Int) = -2 ^ (2 * Width.bits .w8 - 1) ∧ signedOf (.byte 0xff) = -1) :=
  ⟨by decide, rfl, rfl, rfl, by decide, by decide, by decide, by decide, by decide, by decide, by decide⟩

theorem witness_DivisionByZeroRaises :
    readOperand (.imm8 0) (bare testRegs) = .ok (.byte 0) ∧ readReg 0x02 (bare testRegs) = .ok (.byte 7) ∧
      readReg 0x03 (bare testRegs) = .ok (.byte 0) ∧ (RegVal.byte 0).toNat = 0 := ⟨rfl, rfl, rfl, rfl⟩

theorem witness_IdivOverflowRaises :
    let s := bare { Regs.zero with a := 0x8000 }
    readOperand (.imm8 0xff) s = .ok (.byte 0xff) ∧ readReg 0x02 s = .ok (.byte 0) ∧
      readReg 0x03 s = .ok (.byte 0x80) ∧ (RegVal.byte 0).toNat = 0 ∧
      (RegVal.byte 0x80).toNat = 2 ^ (Width.bits .w8 - 1) ∧ (RegVal.byte 0xff).toNat = 2 ^ Width.bits .w8 - 1 :=
  ⟨rfl, rfl, rfl, rfl, rfl, rfl⟩

theorem witness_WidthMismatchRaises :
    let s := bare moveRegs
    (readOperand (.imm8 1) s = .ok (.byte 1) ∧ readReg 0x00 s = .ok (.dword 0x12345678) ∧
      (RegVal.dword 0x12345678).width ≠ (RegVal.byte 1).width) ∧
    (readReg 0x02 s = .ok (.byte 0x78) ∧ s.view 0x01 = some ⟨.a, .word⟩ ∧
      Span.width .word ≠ (RegVal.byte 0x78).width) ∧
    readReg 0x01 s = .ok (.word 0x5678) ∧ (RegVal.word 0x5678).width ≠ (RegVal.byte 1).width :=
  ⟨⟨rfl, rfl, by decide⟩, ⟨rfl, by decide, by decide⟩, rfl, by decide⟩

/-- With both settings of the argument, and a policy that refuses the writes. -/
theorem witness_TestModeSuppressesArithmetic :
    (bare testRegs).testMode = true ∧
    (readOperand (.reg 0x06) (bare testRegs) = .ok (.byte 2) ∧ readReg 0x02 (bare testRegs) = .ok (.byte 7) ∧
      readReg 0x03 (bare testRegs) = .ok (.byte 0) ∧ (RegVal.byte 7).width = (RegVal.byte 2).width ∧
      viewWidth 0x03 = some (RegVal.byte 7).width ∧ (divVal (.byte 7) (.byte 0) (.byte 2)).isSome = true ∧
      (idivVal (.byte 7) (.byte 0) (.byte 2)).isSome = true) ∧
    ((bare testRegs lockedA).canAccess 0x02 .write = false ∧
      readReg 0x02 (bare testRegs lockedA) = .ok (.byte 7)) ∧
    regsOf (exec (.sub (.reg 0x02) (.reg 0x02)) (bare testRegs lockedA)) = some { testRegs with flags := 0x18 } ∧
    regsOf (exec (.sub (.reg 0x02) (.reg 0x02)) (bare testRegs { lockedA with testModeGatesFlags := true })) =
      some testRegs :=
  ⟨by decide, ⟨rfl, rfl, rfl, rfl, by decide, by decide, by decide⟩, ⟨by decide, rfl⟩, by decide, by decide⟩

theorem witness_ArithmeticFrame :
    mergesFlags (.mul (.reg 0x10) (.reg 0x12) (.reg 0x18)) = true ∧
      ∃ t, exec (.mul (.reg 0x10) (.reg 0x12) (.reg 0x18)) (bare moveRegs) = .next t := ⟨rfl, _, rfl⟩

theorem witness_AddToPcIsAComputedJump :
    let s := bare { Regs.zero with pc := 0x1fffe, codeOfs := 0xffff }
    s.params.segShift = 16 ∧ s.params.regOrder = .listing ∧ s.testMode = false ∧
      readOperand (.imm16 0xffff) s = .ok (.word 0xffff) ∧ s.canAccess 0x2c .read = true ∧
      s.canAccess 0x2c .write = true := ⟨rfl, rfl, by decide, rfl, by decide, by decide⟩

theorem witness_PlainRegistersChangeOnlyByName :
    Backing.idtp ∈ [Backing.idtp, .idtl, .dataOfs, .extraOfs, .stackOfs] ∧
      (∃ t, exec (.mov (.reg 0x28) (.reg 0x2a)) (bare moveRegs) = .next t) ∧
      ∀ id w, .reg id ∈ (Instr.mov (.reg 0x28) (.reg 0x2a)).destinations → (bare moveRegs).view id = some w → w.reg ≠ .idtp := by
  refine ⟨by decide, ⟨_, rfl⟩, fun id w h hw => ?_⟩
  have : id = 0x2a := by simpa [Instr.destinations, Instr.operands] using h
  subst this
  have : some w = some ⟨.idtl, .word⟩ := hw.symm.trans (by decide)
  cases this
  decide

theorem witness_FlatAddressFormula : (bare { Regs.zero with codeOfs := 0xffff }).params.segShift = 16 := rfl

theorem witness_FetchStaysInTheWindow :
    (0xffffffff : Word32).toNat % 2 ^ 16 = 0xffff ∧ flat 16 0x00010005 0xffff = flat 16 0x00000005 0xffff := by decide

/-- The table of 95_test_vectors.md 2.7 in small: hits at both ends of a range, and an address in none. -/
theorem witness_FindDeviceIsTheFirstMatch :
    (mixedBus.findDevice 0x1f).map (fun h => (h.index, h.range, h.offset)) = some (0, 0, 0xf) ∧
      (mixedBus.findDevice 0xffffffff).map (fun h => (h.index, h.range, h.offset)) = some (1, 1, 1) ∧
      mixedBus.findDevice 0x20 = none := by decide

theorem witness_UnmappedReadsZeroAndDropsWrites :
    (∀ d ∈ mixedBus.devices, ∀ r ∈ d.ranges, ¬(r.start ≤ (0x20 : Addr).toNat ∧ (0x20 : Addr).toNat < r.stop)) ∧
      ∀ d ∈ mixedBus.devices, ∀ r ∈ d.ranges,
        ¬(r.start ≤ ((0x20 : Addr) + 1).toNat ∧ ((0x20 : Addr) + 1).toNat < r.stop) := by decide

/-- At the top of the address space the second byte is at address 0; one hit for each clause of an even address. -/
theorem witness_SixteenBitAccesses :
    ((0xffffffff : Addr).toNat % 2 = 1 ∧ (mixedBus.read16 0xffffffff).1 = 0x00ad) ∧ tableWf mixedBus.shape ∧
    ((0x20 : Addr).toNat % 2 = 0 ∧ mixedBus.findDevice 0x20 = none) ∧
    ((mixedBus.findDevice 0x1e).map (fun h => h.device.kind) = some (.external 5)) ∧
    ((mixedBus.findDevice 0xfffffffe).map (fun h => (h.device.kind, h.span.stop)) = some (.memory, 0xfffffffe + 2)) ∧
    (tableWf [(.memory, [⟨0, 3⟩])] ∧
      (Bus.findDevice { devices := [⟨.memory, [⟨0, 3⟩], 0⟩], mem := [] } 2).map (fun h => h.span.stop) = some (2 + 1)) := by
  decide

theorem witness_PlainMemoryReadsBack :
    mixedBus.mem.wf ∧ ∃ h, mixedBus.findDevice 0xffffffff = some h ∧ h.device.kind = .memory :=
  ⟨by decide, _, rfl, rfl⟩

theorem witness_BusOperationsKeepTheForm : mixedBus.mem.wf := by decide

end Sys2Proof.Tests
end

section
/-! PROOFS. 00_scope.md: the flag merge as arithmetic on `FLAGS` (R15), and the one way a cycle has no next state
(R16). -/

namespace Sys2Proof.Machine

/-! ### The flag merge -/

/-- Four flags fit the nibble: `nib(fl)` as a number loses nothing (R15). -/
theorem nib_toNat (f : FlagUpdate) :
    f.nib.toNat = f.carry.toNat + 2 * f.negative.toNat + 4 * f.overflow.toNat + 8 * f.zero.toNat := by
  have hc := f.carry.toNat_le
  have hn := f.negative.toNat_le
  have hv := f.overflow.toNat_le
  have hz := f.zero.toNat_le
  exact Nat.mod_eq_of_lt (by omega)

/-- The masks of the flag merge put `nib(fl)` below bits 31 to 4 of the old value (R15, R41). -/
theorem mergeNib_eq_append (v : Word32) (f : FlagUpdate) : mergeNib v f = v.extractLsb' 4 28 ++ f.nib := by
  refine BitVec.eq_of_getLsbD_eq fun n hn => ?_
  rw [BitVec.getLsbD_append]
  by_cases h : n < 4
  · simp [mergeNib_low v f n h, h]
  · have h4 : 4 ≤ n := Nat.le_of_not_lt h
    simp [mergeNib_high v f n h4, h, show n - 4 < 28 by omega, Nat.add_sub_cancel' h4]

/-- The flag merge on numbers: the multiple of 16 below the old value, and the nibble (R15). -/
theorem mergeNib_toNat (v : Word32) (f : FlagUpdate) :
    (mergeNib v f).toNat = v.toNat / 16 * 16 + f.nib.toNat := by
  have hhigh : (v.extractLsb' 4 28).toNat = v.toNat / 16 := by
    rw [BitVec.extractLsb'_toNat, Nat.shiftRight_eq_div_pow]
    have := v.isLt
    omega
  rw [mergeNib_eq_append, BitVec.toNat_append, hhigh, ← Nat.shiftLeft_add_eq_or_of_lt f.nib.isLt, Nat.shiftLeft_eq]

/-- Settles O24: the merge is an append to bits 31 to 4, and the nibble is the sum of the four flags. -/
theorem flagMergeReplacesTheNibble : Obligations.FlagMergeReplacesTheNibble := by
  intro f s
  have hflags : (mergeFlags f s).regs.flags.toNat = s.regs.flags.toNat / 16 * 16 + f.nib.toNat := by
    rw [mergeFlags_flags, mergeNib_toNat]
  exact ⟨nib_toNat f ▸ hflags, fun r hr => mergeFlags_get f s r hr, rfl⟩

/-! ### The outcome of a cycle, by the outcome of the fetch -/

/-- Fetching is stuck exactly where the operand loop uses up its fuel (R228). -/
theorem fetchInstr_stuck_iff (s : State) :
    fetchInstr s = .stuck ↔ operandLoop operandFuel [] (fetch8 s).2 = .stuck := by
  cases hl : operandLoop operandFuel [] (fetch8 s).2 with
  | stuck => simp only [fetchInstr, hl]
  | invalid t => simp only [fetchInstr, hl, reduceCtorEq]
  | done ops t =>
    cases hd : dispatch t.params.opc (fetch8 s).1 ops <;> simp only [fetchInstr, hl, hd, reduceCtorEq]

/-- A cycle that cannot fetch is stuck (R228). -/
theorem step_of_stuck (s : State) (h : fetchInstr (beginCycle s) = .stuck) : step s = .fault .stuck := by
  simp only [step, h]

/-- A cycle that raises at decode or at dispatch takes trap entry and ends (R147, R148). -/
theorem step_of_raised (s t : State) (h : fetchInstr (beginCycle s) = .raised t) :
    step s = .next (endCycle (trapEntry .invalidOperation t)) := by
  simp only [step, h]

/-- A cycle that fetches an instruction ends in the state the instruction answers (R149, R150). -/
theorem step_of_instr (s t u : State) (i : Instr) (h : fetchInstr (beginCycle s) = .instr i t)
    (hu : exec i t = .next u) : step s = .next (endCycle u) := by
  simp only [step, h, hu]

/-- Settles O9, by the three results of the fetch: every instruction answers a next state, so only the unending operand
loop stops the machine. -/
theorem onlyAnUnendingLoopStops : Obligations.OnlyAnUnendingLoopStops := by
  intro s
  cases hf : fetchInstr (beginCycle s) with
  | stuck => exact .inr ⟨step_of_stuck s hf, (fetchInstr_stuck_iff _).1 hf⟩
  | raised t => exact .inl ⟨_, step_of_raised s t hf⟩
  | instr i t =>
    obtain ⟨u, hu⟩ := exec_answers i t
    exact .inl ⟨_, step_of_instr s t u i hf hu⟩

end Sys2Proof.Machine
end

section
/-! PROOFS. 10_state.md, the register file: reset (R50), the ids and their views (R28 to R34), and what a register read
and a register write do to the bits of the file (R36 to R38). -/

namespace Sys2Proof.Machine

/-! ### Reset and the ids -/

/-- Settles O16: the reset state is a literal, read one register at a time. -/
theorem resetIsAllZero : Obligations.ResetIsAllZero := by
  refine ⟨fun r => ?_, rfl, rfl, rfl, rfl⟩
  cases r <;> rfl

/-- Every row of the table is what its id names in the listing order (R34). -/
theorem viewAt_of_mem_idTable : ∀ row ∈ idTable, viewAt .listing row.1 = some row.2 := by decide

/-- Every byte that names a view in the listing order has its row in the table (R33, R34). -/
theorem mem_idTable_of_viewAt : ∀ id, ∀ w ∈ viewAt .listing id, (id, w) ∈ idTable := by decide

/-- Settles O20, by one pass over the 256 bytes and one over the 38 rows. -/
theorem resolveIsTheTable : Obligations.ResolveIsTheTable :=
  fun id w => ⟨mem_idTable_of_viewAt id w, viewAt_of_mem_idTable (id, w)⟩

/-! ### A view lies within its register -/

theorem backingBits_gprReg : ∀ k, backingBits (gprReg k) = 32 := by decide
theorem backingBits_ptrReg : ∀ k, backingBits (ptrReg k) = 32 := by decide
theorem backingBits_segReg : ∀ k, backingBits (segReg k) = 16 := by decide
theorem backingBits_spcReg : ∀ k, backingBits (spcReg k) = 32 := by decide

theorem coversBit_lt (sp : Span) (n : Nat) (h : coversBit sp n = true) : n < 32 := by
  cases sp <;> simp only [coversBit, Bool.and_eq_true, decide_eq_true_eq] at h <;> omega

/-- The 16-bit class is named by word views alone (R31), so no view reaches past the bits of its register. -/
theorem viewAt_fits (o : RegOrder) (id : Byte) (w : View) (h : viewAt o id = some w) (n : Nat)
    (hn : coversBit w.span n = true) : n < backingBits w.reg := by
  have h32 := coversBit_lt w.span n hn
  obtain ⟨x, hx, rfl⟩ := Option.map_eq_some_iff.1 h
  unfold resolve at hx
  split at hx
  · cases hx; rwa [slotReg, backingBits_gprReg]
  split at hx
  · cases hx; rwa [slotReg, backingBits_ptrReg]
  split at hx
  · cases hx; rw [slotReg, backingBits_segReg]; exact of_decide_eq_true hn
  split at hx
  · cases hx; rwa [slotReg, backingBits_spcReg]
  · cases hx

/-- No index of a class is `ROP` (R35). -/
theorem slotReg_ne_rop (o : RegOrder) (x : Slot) : slotReg o x ≠ .rop := by
  have hg : ∀ k, gprReg k ≠ .rop := by decide
  have hp : ∀ k, ptrReg k ≠ .rop := by decide
  have hs : ∀ k, segReg k ≠ .rop := by decide
  have hc : ∀ k, spcReg k ≠ .rop := by decide
  cases x with
  | gpr k => exact hg _
  | ptr k => exact hp _
  | seg k => exact hs _
  | spc k => exact hc _

/-- No id names `ROP`, in any register order (R35). -/
theorem viewAt_ne_rop (o : RegOrder) (id : Byte) (w : View) (h : viewAt o id = some w) : w.reg ≠ .rop := by
  obtain ⟨x, _, rfl⟩ := Option.map_eq_some_iff.1 h
  exact slotReg_ne_rop o x.slot

/-! ### Numbers from bits -/

/-- Words with the same bits from `k` on have the same multiple of `2^k` below them. -/
theorem toNat_div_two_pow_congr {m : Nat} (v u : BitVec m) (k : Nat)
    (h : ∀ n, k ≤ n → v.getLsbD n = u.getLsbD n) : v.toNat / 2 ^ k = u.toNat / 2 ^ k := by
  refine Nat.eq_of_testBit_eq fun n => ?_
  rw [Nat.testBit_div_two_pow, Nat.testBit_div_two_pow]
  exact h _ (Nat.le_add_left k n)

/-- Words with the same bits below `k` have the same remainder by `2^k`. -/
theorem toNat_mod_two_pow_congr {m : Nat} (v u : BitVec m) (k : Nat)
    (h : ∀ n, n < k → v.getLsbD n = u.getLsbD n) : v.toNat % 2 ^ k = u.toNat % 2 ^ k := by
  refine Nat.eq_of_testBit_eq fun n => ?_
  rw [Nat.testBit_mod_two_pow, Nat.testBit_mod_two_pow]
  by_cases hn : n < k
  · simpa [hn, BitVec.testBit_toNat] using h n hn
  · simp [hn]

/-- The number of a span (R28, R36). -/
theorem readSpan_toNat (v : Word32) (sp : Span) :
    (readSpan v sp).toNat = match sp with
      | .dword => v.toNat
      | .word => v.toNat % 2 ^ 16
      | .lowByte => v.toNat % 2 ^ 8
      | .highByte => v.toNat / 2 ^ 8 % 2 ^ 8 := by
  cases sp <;> simp [readSpan, RegVal.toNat, BitVec.extractLsb'_toNat, Nat.shiftRight_eq_div_pow]

/-- The number the merge of R37 step 4 gives: the value at the span, the old register around it. -/
theorem mergeSpan_toNat (old v : Word32) (sp : Span) (x : RegVal) (h : mergeSpan old sp x = some v) :
    v.toNat = match (generalizing := false) sp with
      | .dword => x.toNat
      | .word => old.toNat / 2 ^ 16 * 2 ^ 16 + x.toNat
      | .lowByte => old.toNat / 2 ^ 8 * 2 ^ 8 + x.toNat
      | .highByte => old.toNat / 2 ^ 16 * 2 ^ 16 + x.toNat * 2 ^ 8 + old.toNat % 2 ^ 8 := by
  have hx : x.toNat = _ := readSpan_mergeSpan old v sp x h ▸ readSpan_toNat v sp
  have hout := mergeSpan_outside old v sp x h
  cases sp with
  | dword => exact hx.symm
  | word =>
    have hhigh := toNat_div_two_pow_congr v old 16 fun n hn => hout n (by simpa [coversBit] using hn)
    simp only at hx ⊢
    omega
  | lowByte =>
    have hhigh := toNat_div_two_pow_congr v old 8 fun n hn => hout n (by simpa [coversBit] using hn)
    simp only at hx ⊢
    omega
  | highByte =>
    have hhigh := toNat_div_two_pow_congr v old 16 fun n hn => hout n (by simp [coversBit, hn])
    have hlow := toNat_mod_two_pow_congr v old 8 fun n hn => hout n (by simp [coversBit, hn])
    simp only at hx ⊢
    omega

/-! ### Register reads -/

/-- A refused read raises before the id is looked at (R36 step 1, R39). -/
theorem readReg_refused (id : Byte) (s : State) (hc : s.canAccess id .read = false) :
    readReg id s = .error .illegalOperation := by
  simp [readReg, hc]

/-- A permitted read of an invalid id raises (R36 step 2). -/
theorem readReg_unresolved (id : Byte) (s : State) (hc : s.canAccess id .read = true) (hr : resolve id = none) :
    readReg id s = .error .invalidOperation := by
  simp [readReg, hc, (view_none_iff s id).2 hr]

/-- Settles O21: the two refusals of a read, and the number of the span. -/
theorem registerReadChecksThenSelects : Obligations.RegisterReadChecksThenSelects := by
  refine fun s id => ⟨readReg_refused id s, readReg_unresolved id s, fun w hc hw => ?_⟩
  exact ⟨_, readReg_of id s w hc hw, readView_width _ _, readSpan_toNat _ _⟩

/-! ### Register writes -/

/-- A refused write raises before the id is looked at (R37, R39). -/
theorem writeReg_refused (id : Byte) (x : RegVal) (s : State) (hc : s.canAccess id .write = false) :
    writeReg id x s = .error .illegalOperation := by
  simp [writeReg, hc]

/-- A permitted write is the store (R37). -/
theorem writeReg_permitted (id : Byte) (x : RegVal) (s : State) (hc : s.canAccess id .write = true) :
    writeReg id x s = storeReg id x s := by
  simp [writeReg, hc]

/-- A store to an invalid id raises (R37 step 2). -/
theorem storeReg_unresolved (id : Byte) (x : RegVal) (s : State) (hr : resolve id = none) :
    storeReg id x s = .error .invalidOperation := by
  simp [storeReg, (view_none_iff s id).2 hr]

/-- A store of another width raises (R37 step 3). -/
theorem storeReg_width_ne (id : Byte) (x : RegVal) (s : State) (w : View) (hw : s.view id = some w)
    (hx : x.width ≠ w.span.width) : storeReg id x s = .error .invalidOperation := by
  have hnone : s.regs.writeView w x = none :=
    Option.eq_none_iff_forall_ne_some.2 fun g hg => hx (writeView_some _ _ _ _ hg).1
  simp [storeReg, hw, hnone]

/-- A merge stays within a register that holds the whole span, so setting the register keeps the merged value. -/
theorem get_set_mergeSpan (g : Regs) (w : View) (x : RegVal) (v : Word32)
    (hfit : ∀ n, coversBit w.span n = true → n < backingBits w.reg)
    (hv : mergeSpan (g.get w.reg) w.span x = some v) : (g.set w.reg v).get w.reg = v := by
  refine BitVec.eq_of_getLsbD_eq fun n _ => ?_
  rw [get_set_self]
  by_cases hb : n < backingBits w.reg
  · simp [hb]
  · have hc : coversBit w.span n = false := Bool.eq_false_iff.2 fun hc => hb (hfit n hc)
    simp [hb, mergeSpan_outside _ _ _ _ hv n hc, get_high g w.reg n (Nat.le_of_not_lt hb)]

/-- Settles O22: the three refusals of a write, and the number of the merge. -/
theorem registerWriteChecksThenMerges : Obligations.RegisterWriteChecksThenMerges := by
  intro s id x
  refine ⟨writeReg_refused id x s, fun hc hr => ?_, fun w hc hw => ⟨fun hx => ?_, fun hx => ?_⟩⟩
  · rw [writeReg_permitted id x s hc, storeReg_unresolved id x s hr]
  · rw [writeReg_permitted id x s hc, storeReg_width_ne id x s w hw hx]
  · obtain ⟨g, hg⟩ := writeView_isSome s.regs w x hx
    obtain ⟨_, v, hv, rfl⟩ := writeView_some _ _ _ _ hg
    refine ⟨_, by rw [writeReg_permitted id x s hc, storeReg_of id x s w _ hw hg], rfl,
      fun r hr => get_set_other s.regs w.reg r v hr, ?_⟩
    rw [get_set_mergeSpan s.regs w x v (viewAt_fits _ id w hw) hv]
    exact mergeSpan_toNat _ _ _ _ hv

/-- Settles O23: the merge reads back and leaves the bits outside the span, and no other register is written. -/
theorem writesKeepUntouchedBytes : Obligations.WritesKeepUntouchedBytes := by
  intro s t id x h
  obtain ⟨_, w, g, hw, hg, rfl⟩ := writeReg_ok id x s t h
  refine ⟨w, hw, ?_, fun r n hn => writeView_outside _ _ _ _ hg r n (by simpa using hn)⟩
  obtain ⟨_, v, hv, rfl⟩ := writeView_some _ _ _ _ hg
  rw [Regs.readView, get_set_mergeSpan s.regs w x v (viewAt_fits _ id w hw) hv]
  exact readSpan_mergeSpan _ _ _ _ hv

end Sys2Proof.Machine
end

section
/-! PROOFS. 10_state.md, what an instruction leaves of the state: the bits of its permitted destination views and
`FLAGS[3:0]` are all it can change (R38, R41, R46), `ROP` is among the rest (R35), and a policy makes the rest larger
(R39, R207). -/

namespace Sys2Proof.Machine

/-! ### The bits an instruction can write -/

/-- Whether an instruction can write bit `n` of register `r` from a state when it does not raise: the policy permits
the write of a destination view that holds the bit (R39), or the flag merge replaces it (R41). -/
def mayWrite (i : Instr) (s : State) (r : Backing) (n : Nat) : Prop :=
  (∃ id w, .reg id ∈ i.destinations ∧ s.view id = some w ∧ s.canAccess id .write = true ∧ w.reg = r ∧
    coversBit w.span n = true) ∨
  (mergesFlags i = true ∧ r = .flags ∧ n < 4)

/-- A bit that a permitted destination view holds is among those the instruction can write. -/
theorem mayWrite_of_view {i : Instr} {s : State} {id : Byte} {w : View} (hd : .reg id ∈ i.destinations)
    (hw : s.view id = some w) (hc : s.canAccess id .write = true) {r : Backing} {n : Nat}
    (hn : ¬ mayWrite i s r n) : (decide (w.reg = r) && coversBit w.span n) = false := by
  refine Bool.eq_false_iff.2 fun h => hn (.inl ⟨id, w, hd, hw, hc, ?_⟩)
  simpa using h

/-- The permitted writes are among the bits that the instruction touches (10_state.md R38, R41). -/
theorem touches_of_mayWrite {i : Instr} {s : State} {r : Backing} {n : Nat} (h : mayWrite i s r n) :
    touches s.params i r n = true := by
  rcases h with ⟨id, w, hd, hw, _, rfl, hn⟩ | ⟨hm, rfl, hn⟩
  · have ho : operandTouches s.params (.reg id) w.reg n = true := by
      simp [operandTouches, show viewAt s.params.regOrder id = some w from hw, hn]
    simp only [touches, Bool.or_eq_true, List.any_eq_true]
    exact .inl ⟨_, hd, ho⟩
  · simp [touches, hm, hn]

/-- The flag merge leaves every bit but `FLAGS[3:0]` (R41). -/
theorem mergeFlags_outside (f : FlagUpdate) (s : State) (r : Backing) (n : Nat) (h : ¬ (r = .flags ∧ n < 4)) :
    ((mergeFlags f s).regs.get r).getLsbD n = (s.regs.get r).getLsbD n := by
  by_cases hr : r = .flags
  · subst hr
    exact mergeNib_high _ _ _ (Nat.le_of_not_lt fun hn => h ⟨rfl, hn⟩)
  · rw [mergeFlags_get f s r hr]

/-- The frame of every instruction: trap entry, or a change of registers alone, in the bits it can write. -/
theorem ExecEffect.trap_or_frame {i : Instr} {s t : State} (h : ExecEffect i s t) :
    (∃ k, t = trapEntry k s) ∨
      (t = { s with regs := t.regs } ∧
        ∀ r n, ¬ mayWrite i s r n → (t.regs.get r).getLsbD n = (s.regs.get r).getLsbD n) := by
  cases h with
  | trap k => exact .inl ⟨k, rfl⟩
  | suppressed => exact .inr ⟨rfl, fun _ _ _ => rfl⟩
  | flagsOnly fl _ arith => exact .inr ⟨rfl, fun r n hn => mergeFlags_outside fl s r n fun hf => hn (.inr ⟨arith, hf⟩)⟩
  | moved id w x g _ _ dest view may wrote =>
    exact .inr ⟨rfl, fun r n hn => writeView_outside _ _ _ _ wrote r n (mayWrite_of_view dest view may hn)⟩
  | wrote1 id w x g fl _ arith dest view may wrote =>
    refine .inr ⟨rfl, fun r n hn => ?_⟩
    rw [mergeFlags_outside fl _ r n fun hf => hn (.inr ⟨arith, hf⟩)]
    exact writeView_outside _ _ _ _ wrote r n (mayWrite_of_view dest view may hn)
  | wrote2 lo hi w w' x x' g g' fl _ arith dest dest' view view' may may' wrote wrote' =>
    refine .inr ⟨rfl, fun r n hn => ?_⟩
    rw [mergeFlags_outside fl _ r n fun hf => hn (.inr ⟨arith, hf⟩)]
    exact (writeView_outside _ _ _ _ wrote' r n (mayWrite_of_view dest' view' may' hn)).trans
      (writeView_outside _ _ _ _ wrote r n (mayWrite_of_view dest view may hn))

/-- A register of which an instruction can write no bit keeps its value, unless trap entry writes it. -/
theorem ExecEffect.get_eq {i : Instr} {s t : State} (h : ExecEffect i s t) (r : Backing) (hrp : r ≠ .rp)
    (hrop : r ≠ .rop) (hn : ∀ n, ¬ mayWrite i s r n) : t.regs.get r = s.regs.get r := by
  rcases h.trap_or_frame with ⟨k, rfl⟩ | ⟨_, hbits⟩
  · exact trapEntry_get k s r hrp hrop
  · exact BitVec.eq_of_getLsbD_eq fun n _ => hbits r n (hn n)

/-- Settles O51: the frame of every instruction, with the merge of `FLAGS[3:0]` that the eight make. -/
theorem arithmeticFrame : Obligations.ArithmeticFrame := by
  intro i s t hm h
  have he := exec_effect i s t h
  refine ⟨fun a => by rw [he.bus], he.trap_or_frame.imp_right fun ⟨ht, hbits⟩ => ?_⟩
  rw [ht]
  refine ⟨rfl, rfl, rfl, rfl, fun r n hn => hbits r n fun hw => ?_⟩
  have htouch := touches_of_mayWrite hw
  simp only [touches, hm, Bool.true_and] at htouch
  exact Bool.eq_false_iff.1 hn htouch

/-- Settles O53: none of the five is `FLAGS`, `RP` or `ROP`, so only a destination view can change one. -/
theorem plainRegistersChangeOnlyByName : Obligations.PlainRegistersChangeOnlyByName := by
  intro i s t r hr h hnamed
  have hspecial : r ≠ .rp ∧ r ≠ .rop ∧ r ≠ .flags := by
    revert hr; cases r <;> decide
  obtain ⟨hrp, hrop, hflags⟩ := hspecial
  refine (exec_effect i s t h).get_eq r hrp hrop fun n hw => ?_
  rcases hw with ⟨id, w, hd, hw, _, hreg, _⟩ | ⟨_, hf, _⟩
  · exact hnamed id w hd hw hreg
  · exact hflags hf

/-! ### A cycle -/

/-- Fetching leaves every register but `PC` (R140). -/
theorem Fetched.get_eq {s t : State} (h : Fetched s t) (r : Backing) (hr : r ≠ .pc) :
    t.regs.get r = s.regs.get r := by
  rw [h.regs]
  cases r <;> first | rfl | contradiction

/-- No cycle changes the model arguments. -/
theorem step_params {s t : State} (h : step s = .next t) : t.params = s.params := by
  obtain ⟨u, hu, rfl | ⟨i, v, he, rfl⟩⟩ := step_cases s t h
  · simpa using hu.params
  · simpa [he.params] using hu.params

/-- What a cycle with the default upstream does to the registers after its fetch: trap entry, or a change in the bits
that its instruction can write. -/
theorem step_trap_or_frame {s t : State} (hq : s.quiet) (h : step s = .next t) :
    ∃ u, Fetched (beginCycle s) u ∧
      ((∃ k, t.regs = (trapEntry k u).regs ∧ t.report.raised = some k) ∨
        ∃ i, ∀ r n, ¬ mayWrite i u r n → (t.regs.get r).getLsbD n = (u.regs.get r).getLsbD n) := by
  obtain ⟨u, hu, rfl | ⟨i, v, he, rfl⟩⟩ := step_cases s t h
  all_goals refine ⟨u, hu, ?_⟩
  all_goals have hqu : u.quiet := by simpa [State.quiet, hu.params] using hq
  · exact .inl ⟨_, endCycle_regs _ (by simpa [State.quiet] using hqu), by simp⟩
  · have hregs := endCycle_regs v (by rwa [State.quiet, he.params])
    rcases he.trap_or_frame with ⟨k, rfl⟩ | ⟨_, hbits⟩
    · exact .inl ⟨k, hregs, by simp⟩
    · exact .inr ⟨i, by rwa [hregs]⟩

/-- With the default upstream, a cycle keeps a register that neither the fetch nor trap entry writes, and of which no
instruction can write a bit after the fetch. -/
theorem step_get_eq {s t : State} (hq : s.quiet) (h : step s = .next t) (r : Backing) (hpc : r ≠ .pc) (hrp : r ≠ .rp)
    (hrop : r ≠ .rop) (hn : ∀ i u n, Fetched (beginCycle s) u → ¬ mayWrite i u r n) :
    t.regs.get r = s.regs.get r := by
  obtain ⟨u, hu, ⟨k, ht, _⟩ | ⟨i, hbits⟩⟩ := step_trap_or_frame hq h
  all_goals refine Eq.trans ?_ (hu.get_eq r hpc)
  · rw [ht, trapEntry_get k u r hrp hrop]
  · exact BitVec.eq_of_getLsbD_eq fun n _ => hbits r n (hn i u n hu)

/-! ### `ROP` is written by trap entry alone -/

theorem rop_eq_of_get_eq {g g' : Regs} (h : g.get .rop = g'.get .rop) : g.rop = g'.rop := by
  simpa [Regs.get] using congrArg (BitVec.setWidth 8) h

/-- No instruction can write a bit of `ROP`, which no id names (R35). -/
theorem not_mayWrite_rop (i : Instr) (s : State) (n : Nat) : ¬ mayWrite i s .rop n := by
  rintro (⟨id, w, _, hw, _, hreg, _⟩ | ⟨_, hf, _⟩)
  · exact viewAt_ne_rop _ id w hw hreg
  · cases hf

/-- Settles O28: a cycle that raised nothing took no trap entry, and no view holds a bit of `ROP`. -/
theorem onlyTrapEntryWritesRop : Obligations.OnlyTrapEntryWritesRop := by
  refine ⟨viewAt_ne_rop, fun s t hq h hclean => ?_⟩
  obtain ⟨u, hu, ⟨k, _, hk⟩ | ⟨i, hbits⟩⟩ := step_trap_or_frame hq h
  · rw [hk] at hclean
    cases hclean
  · have hrop : t.regs.get .rop = u.regs.get .rop :=
      BitVec.eq_of_getLsbD_eq fun n _ => hbits .rop n (not_mayWrite_rop i u n)
    exact rop_eq_of_get_eq (hrop.trans (hu.get_eq .rop (by decide)))

/-! ### Runs -/

/-- A run over a cycle with a next state goes on from it. -/
theorem run_succ_of_next (M : Host.Core) (n : Nat) {s u : M.State} (h : M.step s = .next u) :
    M.run (n + 1) s = M.run n u := by
  rw [Host.Core.run, h]

/-- A run stops at a fault. -/
theorem run_succ_of_fault (M : Host.Core) (n : Nat) {s : M.State} {f : M.Fault} (h : M.step s = .fault f) :
    M.run (n + 1) s = .fault f := by
  rw [Host.Core.run, h]

/-- A run of `n + 1` cycles with a next state is a cycle and a run of `n` from its next state. -/
theorem run_succ_next (M : Host.Core) (n : Nat) {s t : M.State} (h : M.run (n + 1) s = .next t) :
    ∃ u, M.step s = .next u ∧ M.run n u = .next t := by
  rw [Host.Core.run] at h
  split at h
  · rename_i u hu
    exact ⟨u, hu, h⟩
  · cases h
  · cases h

/-- What every cycle keeps, every run keeps. -/
theorem run_keeps (M : Host.Core) (P : M.State → Prop) (hstep : ∀ s t, P s → M.step s = .next t → P t) (n : Nat) :
    ∀ s t, P s → M.run n s = .next t → P t := by
  induction n with
  | zero =>
    intro s t hs h
    cases h
    exact hs
  | succ n ih =>
    intro s t hs h
    obtain ⟨u, hu, h⟩ := run_succ_next M n h
    exact ih u t (hstep s u hs hu) h

/-! ### Isolation by policy -/

/-- Where the policy refuses every write to a register at the current level, an instruction can write no bit of it but
by the flag merge (R39, R207). -/
theorem not_mayWrite_of_writeProtected {i : Instr} {s : State} {r : Backing} {n : Nat}
    (hp : writeProtected s.params s.privilege r) (hf : ¬ (r = .flags ∧ n < 4)) : ¬ mayWrite i s r n := by
  rintro (⟨id, w, _, hw, hc, hreg, _⟩ | ⟨_, hmerge⟩)
  · rw [State.canAccess, hp id w hw hreg] at hc
    cases hc
  · exact hf hmerge

/-- The level is two bits of `FLAGS` above the flag merge (R40). -/
theorem privilege_congr {s t : State} (h : ∀ n, 4 ≤ n → t.regs.flags.getLsbD n = s.regs.flags.getLsbD n) :
    t.privilege = s.privilege := by
  refine BitVec.eq_of_getLsbD_eq fun n hn => ?_
  simp only [State.privilege, BitVec.getLsbD_extractLsb', h (6 + n) (by omega)]

theorem Fetched.privilege {s t : State} (h : Fetched s t) : t.privilege = s.privilege := by
  rw [State.privilege, h.regs]
  rfl

/-- With the default upstream, a cycle keeps the level where the policy refuses every write to `FLAGS`. -/
theorem step_privilege {s t : State} (hq : s.quiet) (hp : writeProtected s.params s.privilege .flags)
    (h : step s = .next t) : t.privilege = s.privilege := by
  obtain ⟨u, hu, ⟨k, ht, _⟩ | ⟨i, hbits⟩⟩ := step_trap_or_frame hq h
  all_goals refine Eq.trans ?_ hu.privilege
  · rw [State.privilege, ht]
    rfl
  · have hpu : writeProtected u.params u.privilege .flags := by rwa [hu.params, hu.privilege]
    exact privilege_congr fun n hn =>
      hbits .flags n (not_mayWrite_of_writeProtected hpu fun hf => absurd hf.2 (Nat.not_lt.2 hn))

/-- What isolation keeps of a state along a run: the arguments, the level and the register. -/
structure Isolated (s : State) (r : Backing) (u : State) : Prop where
  params : u.params = s.params
  level : u.privilege = s.privilege
  reg : u.regs.get r = s.regs.get r

/-- A cycle keeps the arguments, the level and the register where the policy refuses every write to `FLAGS` and to the
register (R39, R207). -/
theorem Isolated.step {s : State} {r : Backing} (hq : s.quiet)
    (hpflags : writeProtected s.params s.privilege .flags) (hpr : writeProtected s.params s.privilege r)
    (hpc : r ≠ .pc) (hflags : r ≠ .flags) (hrp : r ≠ .rp) (hrop : r ≠ .rop) (u v : State) (hu : Isolated s r u)
    (h : step u = .next v) : Isolated s r v := by
  have hqu : u.quiet := by rwa [State.quiet, hu.params]
  have hlevel : v.privilege = u.privilege := step_privilege hqu (by rwa [hu.params, hu.level]) h
  have hreg : v.regs.get r = u.regs.get r := by
    refine step_get_eq hqu h r hpc hrp hrop fun i x n hx =>
      not_mayWrite_of_writeProtected ?_ fun hf => hflags hf.1
    have hparams : x.params = s.params := hx.params.trans hu.params
    have hlevel' : x.privilege = s.privilege := hx.privilege.trans hu.level
    rwa [hparams, hlevel']
  exact ⟨(step_params h).trans hu.params, hlevel.trans hu.level, hreg.trans hu.reg⟩

/-- Settles O18: every cycle keeps the arguments, the level and the register together, hence every run does. -/
theorem policyProtectsRegisters : Obligations.PolicyProtectsRegisters := by
  intro n s t r hq hpflags hpr hpc hflags hrp hrop hrun
  have hkept : Isolated s r t :=
    run_keeps Sys2Proof.core (Isolated s r) (Isolated.step hq hpflags hpr hpc hflags hrp hrop) n s t ⟨rfl, rfl, rfl⟩
      hrun
  exact ⟨hkept.reg, hkept.level⟩

end Sys2Proof.Machine
end

section
/-! PROOFS. 10_state.md R35 and R49: `ROP` cannot be observed. Every operation of the model does the same from two
states that differ only in `ROP`, and its next states differ only in `ROP`: one commuting lemma for each, in the order
of the definitions. -/

namespace Sys2Proof.Machine

/-! ### Register accesses -/

@[simp] theorem withRop_params (s : State) (x : Byte) : (s.withRop x).params = s.params := rfl
@[simp] theorem withRop_testMode (s : State) (x : Byte) : (s.withRop x).testMode = s.testMode := rfl
@[simp] theorem withRop_canAccess (s : State) (x : Byte) (id : Byte) (k : AccessKind) :
    (s.withRop x).canAccess id k = s.canAccess id k := rfl
@[simp] theorem withRop_view (s : State) (x : Byte) (id : Byte) : (s.withRop x).view id = s.view id := rfl

theorem withRop_get (s : State) (x : Byte) (r : Backing) (h : r ≠ .rop) :
    (s.withRop x).regs.get r = s.regs.get r := by
  cases r <;> first | rfl | contradiction

theorem withRop_set (s : State) (x : Byte) (r : Backing) (v : Word32) (h : r ≠ .rop) :
    (s.withRop x).regs.set r v = { s.regs.set r v with rop := x } := by
  cases r <;> first | rfl | contradiction

/-- A register read does not see `ROP` (R35). -/
@[simp] theorem readReg_withRop (id : Byte) (s : State) (x : Byte) : readReg id (s.withRop x) = readReg id s := by
  unfold readReg
  rw [withRop_canAccess, withRop_view]
  cases hw : s.view id with
  | none => rfl
  | some w => simp only [Regs.readView, withRop_get s x w.reg (viewAt_ne_rop _ id w hw)]

@[simp] theorem readOperand_withRop (o : Operand) (s : State) (x : Byte) :
    readOperand o (s.withRop x) = readOperand o s := by
  cases o with
  | imm8 v => rfl
  | imm16 v => rfl
  | reg id => exact readReg_withRop id s x

/-- The outcome of an operation, with another `ROP` in the state it commits. -/
def outcomeWithRop (r : Except ExceptionKind State) (x : Byte) : Except ExceptionKind State :=
  r.map fun t => t.withRop x


@[simp] theorem storeReg_withRop (id : Byte) (v : RegVal) (s : State) (x : Byte) :
    storeReg id v (s.withRop x) = outcomeWithRop (storeReg id v s) x := by
  unfold storeReg
  rw [withRop_view]
  cases hw : s.view id with
  | none => rfl
  | some w =>
    have hreg := viewAt_ne_rop _ id w hw
    simp only [Regs.writeView, withRop_get s x w.reg hreg]
    cases mergeSpan (s.regs.get w.reg) w.span v with
    | none => rfl
    | some u => simp only [Option.map_some, withRop_set s x w.reg u hreg]; rfl

@[simp] theorem writeReg_withRop (id : Byte) (v : RegVal) (s : State) (x : Byte) :
    writeReg id v (s.withRop x) = outcomeWithRop (writeReg id v s) x := by
  unfold writeReg
  rw [withRop_canAccess, storeReg_withRop]
  cases s.canAccess id .write <;> rfl

/-! ### Instructions -/

theorem bind_outcomeWithRop {α : Type} (r : Except ExceptionKind α) (f g : α → Except ExceptionKind State) (x : Byte)
    (h : ∀ a, f a = outcomeWithRop (g a) x) : (r >>= f) = outcomeWithRop (r >>= g) x := by
  cases r with
  | error k => rfl
  | ok a => exact h a

/-- A commit after a commit, where each does the same from states that differ only in `ROP`. -/
theorem outcomeWithRop_bind (r : Except ExceptionKind State) (f : State → Except ExceptionKind State) (x : Byte)
    (h : ∀ t, f (t.withRop x) = outcomeWithRop (f t) x) :
    (outcomeWithRop r x >>= f) = outcomeWithRop (r >>= f) x := by
  cases r with
  | error k => rfl
  | ok t => exact h t

@[simp] theorem mergeUnlessGated_withRop (m : Bool) (f : FlagUpdate) (s : State) (x : Byte) :
    mergeUnlessGated m f (s.withRop x) = (mergeUnlessGated m f s).withRop x := by
  unfold mergeUnlessGated
  rw [withRop_params]
  split <;> rfl

theorem movCommon_withRop (src dest : Operand) (sx : Bool) (s : State) (x : Byte) :
    movCommon src dest sx (s.withRop x) = outcomeWithRop (movCommon src dest sx s) x := by
  cases dest with
  | imm8 v => rfl
  | imm16 v => rfl
  | reg id =>
    simp only [movCommon, readOperand_withRop]
    refine bind_outcomeWithRop _ _ _ x fun a => ?_
    cases viewWidth id with
    | none => rfl
    | some m =>
      simp only [withRop_testMode, writeReg_withRop]
      split <;> rfl

theorem commit2_withRop (id : Byte) (r : RegVal) (f : FlagUpdate) (s : State) (x : Byte) :
    commit2 id r f (s.withRop x) = outcomeWithRop (commit2 id r f s) x := by
  simp only [commit2, withRop_testMode, writeReg_withRop, mergeUnlessGated_withRop]
  split
  · rfl
  · exact outcomeWithRop_bind _ _ x fun _ => rfl

theorem arith2_withRop (f : RegVal → RegVal → Bool → Option (RegVal × FlagUpdate)) (cin : Bool) (src dest : Operand)
    (s : State) (x : Byte) : arith2 f cin src dest (s.withRop x) = outcomeWithRop (arith2 f cin src dest s) x := by
  cases dest with
  | imm8 v => rfl
  | imm16 v => rfl
  | reg id =>
    simp only [arith2, readOperand_withRop, readReg_withRop, commit2_withRop]
    refine bind_outcomeWithRop _ _ _ x fun b => bind_outcomeWithRop _ _ _ x fun a => ?_
    split
    · split <;> rfl
    · rfl

theorem commit3_withRop (lo hi : Byte) (vlo vhi : RegVal) (f : FlagUpdate) (s : State) (x : Byte) :
    commit3 lo hi vlo vhi f (s.withRop x) = outcomeWithRop (commit3 lo hi vlo vhi f s) x := by
  simp only [commit3, withRop_testMode, withRop_canAccess, storeReg_withRop, mergeUnlessGated_withRop]
  split
  · rfl
  split
  · rfl
  split
  · rfl
  · refine outcomeWithRop_bind _ _ x fun t => ?_
    rw [storeReg_withRop]
    exact outcomeWithRop_bind _ _ x fun _ => rfl

theorem arith3Mul_withRop (m : RegVal → RegVal → Option (RegVal × RegVal × FlagUpdate)) (src dlo dhi : Operand)
    (s : State) (x : Byte) : arith3Mul m src dlo dhi (s.withRop x) = outcomeWithRop (arith3Mul m src dlo dhi s) x := by
  unfold arith3Mul
  split
  · simp only [readOperand_withRop, readReg_withRop, commit3_withRop]
    refine bind_outcomeWithRop _ _ _ x fun b => bind_outcomeWithRop _ _ _ x fun a => ?_
    split
    · split <;> rfl
    · rfl
  · rfl

theorem arith3Div_withRop (d : RegVal → RegVal → RegVal → Option (RegVal × RegVal × FlagUpdate))
    (src dlo dhi : Operand) (s : State) (x : Byte) :
    arith3Div d src dlo dhi (s.withRop x) = outcomeWithRop (arith3Div d src dlo dhi s) x := by
  unfold arith3Div
  split
  · simp only [readOperand_withRop, readReg_withRop, commit3_withRop]
    refine bind_outcomeWithRop _ _ _ x fun b => bind_outcomeWithRop _ _ _ x fun vl =>
      bind_outcomeWithRop _ _ _ x fun vh => ?_
    split
    · split <;> rfl
    · rfl
  · rfl

/-- Trap entry writes `ROP` over whatever it held (R199). -/
theorem trapEntry_withRop (k : ExceptionKind) (s : State) (x : Byte) : trapEntry k (s.withRop x) = trapEntry k s := rfl

theorem withRop_rop (s : State) : s.withRop s.regs.rop = s := rfl

/-- The end of an instruction: a commit leaves the other `ROP`, a raise none. -/
theorem finish_withRop (s : State) (r : Except ExceptionKind State) (x : Byte) :
    ∃ t y, finish s r = .next t ∧ finish (s.withRop x) (outcomeWithRop r x) = .next (t.withRop y) := by
  cases r with
  | ok t => exact ⟨t, x, rfl, rfl⟩
  | error k => exact ⟨trapEntry k s, (trapEntry k s).regs.rop, rfl, rfl⟩

/-- An instruction from two states that differ only in `ROP` ends in states that differ only in `ROP`. -/
theorem exec_withRop (i : Instr) (s : State) (x : Byte) :
    ∃ t y, exec i s = .next t ∧ exec i (s.withRop x) = .next (t.withRop y) := by
  have hmov := fun src dest sx => movCommon_withRop src dest sx s x ▸ finish_withRop s (movCommon src dest sx s) x
  have hop2 := fun f cin src dest => arith2_withRop f cin src dest s x ▸ finish_withRop s (arith2 f cin src dest s) x
  have hmul := fun m src l h => arith3Mul_withRop m src l h s x ▸ finish_withRop s (arith3Mul m src l h s) x
  have hdiv := fun d src l h => arith3Div_withRop d src l h s x ▸ finish_withRop s (arith3Div d src l h s) x
  cases i with
  | mov src dest => exact hmov src dest false
  | movsx src dest => exact hmov src dest true
  | add src dest => exact hop2 addVal false src dest
  | adc src dest => exact hop2 addVal s.carry src dest
  | sub src dest => exact hop2 subVal false src dest
  | sbb src dest => exact hop2 subVal s.carry src dest
  | mul src dlo dhi => exact hmul mulVal src dlo dhi
  | imul src dlo dhi => exact hmul imulVal src dlo dhi
  | div src dlo dhi => exact hdiv divVal src dlo dhi
  | idiv src dlo dhi => exact hdiv idivVal src dlo dhi

/-! ### Fetch -/

/-- How the operand loop ends, with another `ROP` in the state it ends in. -/
def LoopResult.withRop : LoopResult → Byte → LoopResult
  | .done ops s, x => .done ops (s.withRop x)
  | .invalid s, x => .invalid (s.withRop x)
  | .stuck, _ => .stuck

/-- The result of the fetch, with another `ROP` in its state. -/
def FetchResult.withRop : FetchResult → Byte → FetchResult
  | .instr i s, x => .instr i (s.withRop x)
  | .raised s, x => .raised (s.withRop x)
  | .stuck, _ => .stuck

theorem fetch8_withRop (s : State) (x : Byte) : fetch8 (s.withRop x) = ((fetch8 s).1, (fetch8 s).2.withRop x) := rfl

theorem operandLoop_withRop (fuel : Nat) (x : Byte) :
    ∀ ops s, operandLoop fuel ops (s.withRop x) = (operandLoop fuel ops s).withRop x := by
  induction fuel with
  | zero => exact fun _ _ => rfl
  | succ fuel ih =>
    intro ops s
    simp only [operandLoop, fetch8_withRop]
    cases classify (fetch8 s).1 with
    | terminator => rfl
    | imm8 => exact ih _ _
    | imm16 => exact ih _ _
    | reg => exact ih _ _
    | invalid => rfl

theorem fetchInstr_withRop (s : State) (x : Byte) : fetchInstr (s.withRop x) = (fetchInstr s).withRop x := by
  simp only [fetchInstr, fetch8_withRop, operandLoop_withRop]
  cases operandLoop operandFuel [] (fetch8 s).2 with
  | stuck => rfl
  | invalid t => rfl
  | done ops t =>
    simp only [LoopResult.withRop, withRop_params]
    cases dispatch t.params.opc (fetch8 s).1 ops <;> rfl

/-! ### Cycles and runs -/

theorem beginCycle_withRop (s : State) (x : Byte) : beginCycle (s.withRop x) = (beginCycle s).withRop x := rfl

/-- The default upstream sees no register (R201). -/
theorem endCycle_withRop (s : State) (x : Byte) (h : s.quiet) : endCycle (s.withRop x) = (endCycle s).withRop x := by
  rw [endCycle, endCycle, tellUpstream_quiet _ (by simpa [State.quiet] using h),
    tellUpstream_quiet _ (by simpa [State.quiet] using h)]
  rfl

/-- A cycle from two states that differ only in `ROP` is stuck from both, or ends in states that differ only in
`ROP`. -/
theorem step_withRop (s : State) (x : Byte) (hq : s.quiet) :
    (step s = .fault .stuck ∧ step (s.withRop x) = .fault .stuck) ∨
      ∃ t y, step s = .next t ∧ step (s.withRop x) = .next (t.withRop y) := by
  have hfetch := fetchInstr_withRop (beginCycle s) x
  rw [← beginCycle_withRop] at hfetch
  cases hf : fetchInstr (beginCycle s) with
  | stuck =>
    rw [hf] at hfetch
    exact .inl ⟨step_of_stuck s hf, step_of_stuck _ hfetch⟩
  | raised u =>
    rw [hf] at hfetch
    refine .inr ⟨_, (endCycle (trapEntry .invalidOperation u)).regs.rop, step_of_raised s u hf, ?_⟩
    rw [step_of_raised _ _ hfetch, trapEntry_withRop, withRop_rop]
  | instr i u =>
    rw [hf] at hfetch
    obtain ⟨v, y, hv, hv'⟩ := exec_withRop i u x
    have hqv : v.quiet := by
      rw [State.quiet, (exec_effect i u v hv).params, ((fetchInstr_fetched _).2 i u hf).params]
      exact hq
    refine .inr ⟨_, y, step_of_instr s u v i hf hv, ?_⟩
    rw [step_of_instr _ _ _ i hfetch hv', endCycle_withRop v y hqv]

/-- Settles O19, by induction on the number of cycles: each cycle has the same outcome from both states and leaves a
difference in `ROP` alone. -/
theorem ropIsUnobservable : Obligations.RopIsUnobservable := by
  intro n
  induction n with
  | zero =>
    intro s x _
    exact ⟨fun t h => by cases h; exact ⟨x, rfl⟩, fun f h => by cases h⟩
  | succ n ih =>
    intro s x hq
    rcases step_withRop s x hq with ⟨hs, hs'⟩ | ⟨u, y, hu, hu'⟩
    · have hrun := run_succ_of_fault Sys2Proof.core n hs
      have hrun' := run_succ_of_fault Sys2Proof.core n hs'
      refine ⟨fun t h => ?_, fun f h => ?_⟩
      · cases hrun.symm.trans h
      · exact hrun'.trans (hrun.symm.trans h)
    · rw [run_succ_of_next Sys2Proof.core n hu, run_succ_of_next Sys2Proof.core n hu']
      exact ih u y (by rwa [State.quiet, step_params hu])

end Sys2Proof.Machine
end

section
/-! PROOFS. 10_state.md R39 and 60_exceptions.md R192: a refused register access raises `IllegalOperation`. For each
shared operation, what it raises where one of its accesses does, in the order of its checks (R195); the instructions
then raise it by `finish`. -/

namespace Sys2Proof.Machine

theorem bind_of_ok {α β : Type} {r : Except ExceptionKind α} {a : α} (h : r = .ok a)
    (f : α → Except ExceptionKind β) : (r >>= f) = f a := by
  rw [h]
  rfl

theorem bind_of_error {α β : Type} {r : Except ExceptionKind α} {k : ExceptionKind} (h : r = .error k)
    (f : α → Except ExceptionKind β) : (r >>= f) = .error k := by
  rw [h]
  rfl

/-- An instruction that raises ends in trap entry from its start state (R196, R198). -/
theorem finish_error {s : State} {r : Except ExceptionKind State} {k : ExceptionKind} (h : r = .error k) :
    finish s r = .next (trapEntry k s) := by
  rw [h]
  rfl

/-! ### Moves -/

theorem movCommon_source_error {src : Operand} {s : State} {k : ExceptionKind} (hx : readOperand src s = .error k)
    (id : Byte) (sx : Bool) : movCommon src (.reg id) sx s = .error k := by
  rw [movCommon, bind_of_error hx]

/-- Outside test mode a move to a valid view raises where its write is refused (R166, R192). -/
theorem movCommon_write_refused {src : Operand} {s : State} {x : RegVal} {id : Byte} (hx : readOperand src s = .ok x)
    (ht : s.testMode = false) (hc : s.canAccess id .write = false) (hr : (resolve id).isSome = true) (sx : Bool) :
    movCommon src (.reg id) sx s = .error .illegalOperation := by
  obtain ⟨sel, hsel⟩ := Option.isSome_iff_exists.1 hr
  rw [movCommon, bind_of_ok hx]
  simp [viewWidth, hsel, ht, writeReg_refused id _ s hc]

/-! ### Two-operand instructions -/

section
variable {f : RegVal → RegVal → Bool → Option (RegVal × FlagUpdate)} {src : Operand} {s : State} {id : Byte}
  {x y : RegVal} {k : ExceptionKind}

theorem arith2_source_error (hx : readOperand src s = .error k) (cin : Bool) :
    arith2 f cin src (.reg id) s = .error k := by
  rw [arith2, bind_of_error hx]

theorem arith2_dest_error (hx : readOperand src s = .ok x) (hy : readReg id s = .error k) (cin : Bool) :
    arith2 f cin src (.reg id) s = .error k := by
  rw [arith2, bind_of_ok hx, bind_of_error hy]

/-- Where there is a result, a two-operand instruction ends as its commit does (R178). -/
theorem arith2_eq_commit2 (hx : readOperand src s = .ok x) (hy : readReg id s = .ok y) (hw : y.width = x.width)
    {cin : Bool} {r : RegVal} {fl : FlagUpdate} (hf : f y x cin = some (r, fl)) :
    arith2 f cin src (.reg id) s = commit2 id r fl s := by
  rw [arith2, bind_of_ok hx, bind_of_ok hy]
  simp [hw, hf]

end

theorem commit2_refused {s : State} {id : Byte} (ht : s.testMode = false) (hc : s.canAccess id .write = false)
    (r : RegVal) (fl : FlagUpdate) : commit2 id r fl s = .error .illegalOperation := by
  simp only [commit2, ht, Bool.false_eq_true, if_false]
  exact bind_of_error (writeReg_refused id r s hc) _

/-- `add` and `sub` have a result at equal widths (R110). -/
theorem lift2_of_width_eq (f : {n : Nat} → BitVec n → BitVec n → Bool → BitVec n × FlagUpdate) {a b : RegVal}
    (c : Bool) (h : a.width = b.width) : ∃ r fl, lift2 f a b c = some (r, fl) := by
  cases a <;> cases b <;> first | exact ⟨_, _, rfl⟩ | cases h

/-! ### Three-operand instructions -/

/-- A refused write of either destination raises before the first write (R170; log 13). -/
theorem commit3_refused {s : State} {lo hi : Byte} (ht : s.testMode = false)
    (hc : s.canAccess lo .write = false ∨ s.canAccess hi .write = false) (vlo vhi : RegVal) (fl : FlagUpdate) :
    commit3 lo hi vlo vhi fl s = .error .illegalOperation := by
  cases hlo : s.canAccess lo .write with
  | false => simp [commit3, ht, hlo]
  | true =>
    have hhi : s.canAccess hi .write = false := hc.resolve_left (by simp [hlo])
    simp [commit3, ht, hlo, hhi]

section
variable {m : RegVal → RegVal → Option (RegVal × RegVal × FlagUpdate)} {src : Operand} {s : State} {lo hi : Byte}
  {x y : RegVal} {k : ExceptionKind}

theorem arith3Mul_source_error (hx : readOperand src s = .error k) :
    arith3Mul m src (.reg lo) (.reg hi) s = .error k := by
  rw [arith3Mul, bind_of_error hx]

theorem arith3Mul_low_error (hx : readOperand src s = .ok x) (hy : readReg lo s = .error k) :
    arith3Mul m src (.reg lo) (.reg hi) s = .error k := by
  rw [arith3Mul, bind_of_ok hx, bind_of_error hy]

/-- Where there is a product, a multiply ends as its commit does (R183). -/
theorem arith3Mul_eq_commit3 (hx : readOperand src s = .ok x) (hy : readReg lo s = .ok y) (hw : y.width = x.width)
    (hhi : viewWidth hi = some y.width) {vlo vhi : RegVal} {fl : FlagUpdate} (hm : m y x = some (vlo, vhi, fl)) :
    arith3Mul m src (.reg lo) (.reg hi) s = commit3 lo hi vlo vhi fl s := by
  rw [arith3Mul, bind_of_ok hx, bind_of_ok hy, if_pos ⟨hw, hhi⟩, hm]

end

/-- A multiply has a product at equal widths (R110). -/
theorem liftMul_of_width_eq (f : {n : Nat} → BitVec n → BitVec n → BitVec n × BitVec n × FlagUpdate) {a b : RegVal}
    (h : a.width = b.width) : ∃ lo hi fl, liftMul f a b = some (lo, hi, fl) := by
  cases a <;> cases b <;> first | exact ⟨_, _, _, rfl⟩ | cases h

section
variable {d : RegVal → RegVal → RegVal → Option (RegVal × RegVal × FlagUpdate)} {src : Operand} {s : State}
  {lo hi : Byte} {x y z : RegVal} {k : ExceptionKind}

theorem arith3Div_source_error (hx : readOperand src s = .error k) :
    arith3Div d src (.reg lo) (.reg hi) s = .error k := by
  rw [arith3Div, bind_of_error hx]

theorem arith3Div_low_error (hx : readOperand src s = .ok x) (hy : readReg lo s = .error k) :
    arith3Div d src (.reg lo) (.reg hi) s = .error k := by
  rw [arith3Div, bind_of_ok hx, bind_of_error hy]

theorem arith3Div_high_error (hx : readOperand src s = .ok x) (hy : readReg lo s = .ok y)
    (hz : readReg hi s = .error k) : arith3Div d src (.reg lo) (.reg hi) s = .error k := by
  rw [arith3Div, bind_of_ok hx, bind_of_ok hy, bind_of_error hz]

/-- Where there is a quotient, a divide ends as its commit does (R183). -/
theorem arith3Div_eq_commit3 (hx : readOperand src s = .ok x) (hy : readReg lo s = .ok y) (hz : readReg hi s = .ok z)
    (hyx : y.width = x.width) (hzx : z.width = x.width) {q r : RegVal} {fl : FlagUpdate}
    (hd : d y z x = some (q, r, fl)) : arith3Div d src (.reg lo) (.reg hi) s = commit3 lo hi q r fl s := by
  rw [arith3Div, bind_of_ok hx, bind_of_ok hy, bind_of_ok hz, if_pos ⟨hyx, hzx⟩, hd]

end

/-- A divide has a result at equal widths only (R110). -/
theorem liftDiv_operand_widths
    (f : {n : Nat} → BitVec n → BitVec n → BitVec n → Option (BitVec n × BitVec n × FlagUpdate)) {lo hi rhs : RegVal}
    (h : (liftDiv f lo hi rhs).isSome = true) : lo.width = rhs.width ∧ hi.width = rhs.width := by
  cases lo <;> cases hi <;> cases rhs <;> first | exact ⟨rfl, rfl⟩ | cases h

/-! ### Refused reads -/

/-- A refused read of the source raises in every instruction whose destinations are registers (R195). -/
theorem exec_source_refused {i : Instr} {s : State} {id : Byte} (hd : ∀ o ∈ i.destinations, ∃ d, o = .reg d)
    (hsrc : i.operands.head? = some (.reg id)) (hc : s.canAccess id .read = false) :
    exec i s = .next (trapEntry .illegalOperation s) := by
  have hread : ∀ {src : Operand}, some src = some (.reg id) → readOperand src s = .error .illegalOperation := by
    rintro _ ⟨⟩
    exact readReg_refused id s hc
  have hone : ∀ {dest : Operand}, (∀ o ∈ [dest], ∃ d, o = .reg d) → ∃ d, dest = .reg d :=
    fun h => h _ List.mem_cons_self
  have htwo : ∀ {dlo dhi : Operand}, (∀ o ∈ [dlo, dhi], ∃ d, o = .reg d) → ∃ lo hi, dlo = .reg lo ∧ dhi = .reg hi := by
    intro dlo dhi h
    obtain ⟨lo, hlo⟩ := h dlo (by simp)
    obtain ⟨hi, hhi⟩ := h dhi (by simp)
    exact ⟨lo, hi, hlo, hhi⟩
  cases i with
  | mov src dest | movsx src dest =>
    obtain ⟨d, rfl⟩ := hone hd
    exact finish_error (movCommon_source_error (hread hsrc) d _)
  | add src dest | adc src dest | sub src dest | sbb src dest =>
    obtain ⟨d, rfl⟩ := hone hd
    exact finish_error (arith2_source_error (hread hsrc) _)
  | mul src dlo dhi | imul src dlo dhi =>
    obtain ⟨lo, hi, rfl, rfl⟩ := htwo hd
    exact finish_error (arith3Mul_source_error (hread hsrc))
  | div src dlo dhi | idiv src dlo dhi =>
    obtain ⟨lo, hi, rfl, rfl⟩ := htwo hd
    exact finish_error (arith3Div_source_error (hread hsrc))

section
variable {src : Operand} {s : State} {lo hi : Byte} {x y z : RegVal}

/-- A refused read of the destination, or of the low one of two, raises in the eight arithmetic instructions. -/
theorem exec_low_read_refused (hx : readOperand src s = .ok x) (hc : s.canAccess lo .read = false) :
    ∀ i ∈ [Instr.add src (.reg lo), .adc src (.reg lo), .sub src (.reg lo), .sbb src (.reg lo),
        .mul src (.reg lo) (.reg hi), .imul src (.reg lo) (.reg hi), .div src (.reg lo) (.reg hi),
        .idiv src (.reg lo) (.reg hi)],
      exec i s = .next (trapEntry .illegalOperation s) := by
  have hy := readReg_refused lo s hc
  simp only [List.forall_mem_cons, List.not_mem_nil, false_implies, implies_true, and_true]
  exact ⟨finish_error (arith2_dest_error hx hy _), finish_error (arith2_dest_error hx hy _),
    finish_error (arith2_dest_error hx hy _), finish_error (arith2_dest_error hx hy _),
    finish_error (arith3Mul_low_error hx hy), finish_error (arith3Mul_low_error hx hy),
    finish_error (arith3Div_low_error hx hy), finish_error (arith3Div_low_error hx hy)⟩

/-- A refused read of the high destination raises in both divides. -/
theorem exec_high_read_refused (hx : readOperand src s = .ok x) (hy : readReg lo s = .ok y)
    (hc : s.canAccess hi .read = false) :
    ∀ i ∈ [Instr.div src (.reg lo) (.reg hi), .idiv src (.reg lo) (.reg hi)],
      exec i s = .next (trapEntry .illegalOperation s) := by
  have hz := readReg_refused hi s hc
  simp only [List.forall_mem_cons, List.not_mem_nil, false_implies, implies_true, and_true]
  exact ⟨finish_error (arith3Div_high_error hx hy hz), finish_error (arith3Div_high_error hx hy hz)⟩

/-! ### Refused writes -/

/-- A refused write of the destination raises in both moves. -/
theorem exec_move_write_refused (hx : readOperand src s = .ok x) (ht : s.testMode = false)
    (hc : s.canAccess lo .write = false) (hr : (resolve lo).isSome = true) :
    ∀ i ∈ [Instr.mov src (.reg lo), .movsx src (.reg lo)], exec i s = .next (trapEntry .illegalOperation s) := by
  simp only [List.forall_mem_cons, List.not_mem_nil, false_implies, implies_true, and_true]
  exact ⟨finish_error (movCommon_write_refused hx ht hc hr false),
    finish_error (movCommon_write_refused hx ht hc hr true)⟩

/-- A refused write of the destination raises in the four two-operand arithmetic instructions. -/
theorem exec_arith2_write_refused (hx : readOperand src s = .ok x) (hy : readReg lo s = .ok y) (ht : s.testMode = false)
    (hw : y.width = x.width) (hc : s.canAccess lo .write = false) :
    ∀ i ∈ [Instr.add src (.reg lo), .adc src (.reg lo), .sub src (.reg lo), .sbb src (.reg lo)],
      exec i s = .next (trapEntry .illegalOperation s) := by
  have hraise : ∀ (f : {n : Nat} → BitVec n → BitVec n → Bool → BitVec n × FlagUpdate) (c : Bool),
      arith2 (lift2 f) c src (.reg lo) s = .error .illegalOperation := by
    intro f c
    obtain ⟨r, fl, hf⟩ := lift2_of_width_eq f c hw
    exact (arith2_eq_commit2 hx hy hw hf).trans (commit2_refused ht hc r fl)
  simp only [List.forall_mem_cons, List.not_mem_nil, false_implies, implies_true, and_true]
  exact ⟨finish_error (hraise addN _), finish_error (hraise addN _), finish_error (hraise subN _),
    finish_error (hraise subN _)⟩

/-- A refused write of either destination raises in both multiplies. -/
theorem exec_multiply_write_refused (hx : readOperand src s = .ok x) (hy : readReg lo s = .ok y)
    (ht : s.testMode = false) (hw : y.width = x.width)
    (hc : s.canAccess lo .write = false ∨ s.canAccess hi .write = false) (hhi : viewWidth hi = some y.width) :
    ∀ i ∈ [Instr.mul src (.reg lo) (.reg hi), .imul src (.reg lo) (.reg hi)],
      exec i s = .next (trapEntry .illegalOperation s) := by
  have hraise : ∀ f : {n : Nat} → BitVec n → BitVec n → BitVec n × BitVec n × FlagUpdate,
      arith3Mul (liftMul f) src (.reg lo) (.reg hi) s = .error .illegalOperation := by
    intro f
    obtain ⟨vlo, vhi, fl, hm⟩ := liftMul_of_width_eq f hw
    exact (arith3Mul_eq_commit3 hx hy hw hhi hm).trans (commit3_refused ht hc vlo vhi fl)
  simp only [List.forall_mem_cons, List.not_mem_nil, false_implies, implies_true, and_true]
  exact ⟨finish_error (hraise mulN), finish_error (hraise imulN)⟩

/-- A divide that has a result raises where the write of either destination is refused. -/
theorem arith3Div_write_refused
    {f : {n : Nat} → BitVec n → BitVec n → BitVec n → Option (BitVec n × BitVec n × FlagUpdate)}
    (hx : readOperand src s = .ok x) (hy : readReg lo s = .ok y) (hz : readReg hi s = .ok z) (ht : s.testMode = false)
    (hc : s.canAccess lo .write = false ∨ s.canAccess hi .write = false) (hd : (liftDiv f y z x).isSome = true) :
    arith3Div (liftDiv f) src (.reg lo) (.reg hi) s = .error .illegalOperation := by
  obtain ⟨hyx, hzx⟩ := liftDiv_operand_widths f hd
  obtain ⟨⟨q, r, fl⟩, hqr⟩ := Option.isSome_iff_exists.1 hd
  exact (arith3Div_eq_commit3 hx hy hz hyx hzx hqr).trans (commit3_refused ht hc q r fl)

end

/-- Settles O31: the refused reads in the order of the checks, then the refused writes of each form. -/
theorem refusedAccessRaises : Obligations.RefusedAccessRaises := by
  intro s
  refine ⟨fun i id hd hsrc hc => exec_source_refused hd hsrc hc, fun src lo hi x hx => ?_⟩
  refine ⟨exec_low_read_refused hx, exec_move_write_refused hx, fun y hy => ?_⟩
  refine ⟨exec_high_read_refused hx hy, exec_arith2_write_refused hx hy, exec_multiply_write_refused hx hy, ?_⟩
  exact fun z ht hc hz => ⟨fun hd => finish_error (arith3Div_write_refused hx hy hz ht hc hd),
    fun hd => finish_error (arith3Div_write_refused hx hy hz ht hc hd)⟩

end Sys2Proof.Machine
end

section
/-! PROOFS. 20_memory.md, addresses: the flat instruction address and its windows (R60, R61), and the device lookup
(R67). -/

namespace Sys2Proof.Machine

/-! ### The flat address -/

/-- The word of `PC` lies below the shifted code offset, so the flat address is their sum without a carry out (R60). -/
theorem flat_toNat (pc : Word32) (co : Word16) : (flat 16 pc co).toNat = pc.toNat % 2 ^ 16 + co.toNat * 2 ^ 16 := by
  have hco := co.isLt
  simp only [flat, BitVec.toNat_add, BitVec.toNat_setWidth, BitVec.extractLsb'_toNat, BitVec.toNat_shiftLeft,
    Nat.shiftLeft_eq, Nat.shiftRight_zero]
  omega

/-- The two parts of the flat address share no bit, so their sum is their bitwise OR (R60). -/
theorem flat_eq_or (pc : Word32) (co : Word16) :
    flat 16 pc co = (pc.extractLsb' 0 16).setWidth 32 ||| (co.setWidth 32 <<< 16) := by
  refine BitVec.add_eq_or_of_and_eq_zero _ _ (BitVec.eq_of_getLsbD_eq fun n _ => ?_)
  rw [BitVec.getLsbD_and, BitVec.getLsbD_shiftLeft, BitVec.getLsbD_setWidth, BitVec.getLsbD_extractLsb']
  by_cases hn : n < 16 <;> simp [hn]

/-- Settles O54: the sum has no carry, in numbers and in bits. -/
theorem flatAddressFormula : Obligations.FlatAddressFormula := by
  have hmod (pc : Word32) (co : Word16) :
      (flat 16 pc co).toNat = (pc.toNat % 2 ^ 16 + co.toNat * 2 ^ 16) % 2 ^ 32 := by
    rw [← flat_toNat, Nat.mod_eq_of_lt (flat 16 pc co).isLt]
  refine ⟨fun pc co => ⟨hmod pc co, flat_eq_or pc co⟩, fun s hshift => ?_⟩
  rw [State.fetchAddr, hshift, hmod]

/-- The window of a flat address is its code offset (R61). -/
theorem flat_div (pc : Word32) (co : Word16) : (flat 16 pc co).toNat / 2 ^ 16 = co.toNat := by
  rw [flat_toNat]
  omega

/-- Every flat address is the offset of its low word in the window of its high word (R61). -/
theorem flat_of_parts (a : Addr) : flat 16 a (a.extractLsb' 16 16) = a := by
  refine BitVec.eq_of_toNat_eq ?_
  have ha := a.isLt
  rw [flat_toNat, BitVec.extractLsb'_toNat, Nat.shiftRight_eq_div_pow]
  omega

/-- Settles O55: a flat address is a quotient by `2^16`, the window, and a remainder, the offset in it. -/
theorem fetchStaysInTheWindow : Obligations.FetchStaysInTheWindow := by
  refine ⟨flat_div, fun pc co hpc => ?_, fun pc pc' co co' h => ?_, fun a => ⟨a, _, flat_of_parts a⟩⟩
  · have hsucc : (pc + 1).toNat = (pc.toNat + 1) % 2 ^ 32 := BitVec.toNat_add pc 1
    have hwrap : (pc + 1).toNat % 2 ^ 16 = 0 := by omega
    rw [flat_toNat, hwrap, Nat.zero_add]
  · refine BitVec.eq_of_toNat_eq ?_
    rw [← flat_div pc co, h, flat_div]

/-! ### The device lookup -/

/-- No range is found exactly where none holds the address (R67). -/
theorem findRange_eq_none_iff (rs : List Range) (a k : Nat) :
    findRange rs a k = none ↔ ∀ r ∈ rs, ¬(r.start ≤ a ∧ a < r.stop) := by
  induction rs generalizing k with
  | nil => simp [findRange]
  | cons q rs ih =>
    rw [findRange, List.forall_mem_cons, ← Range.contains_iff]
    by_cases hq : q.contains a = true
    · simp [hq]
    · rw [if_neg hq, ih]
      exact (and_iff_right hq).symm

/-- The range found, between those before it, none of which holds the address, and those after it (R67). -/
theorem findRange_split {rs : List Range} {a k i : Nat} {r : Range} (h : findRange rs a k = some (i, r)) :
    ∃ before after, rs = before ++ r :: after ∧ i = k + before.length ∧
      ∀ q ∈ before, ¬(q.start ≤ a ∧ a < q.stop) := by
  induction rs generalizing k with
  | nil => cases h
  | cons q rs ih =>
    rw [findRange] at h
    split at h
    · cases h
      exact ⟨[], rs, rfl, rfl, by simp⟩
    · rename_i hq
      rw [Range.contains_iff] at hq
      obtain ⟨before, after, rfl, rfl, hbefore⟩ := ih h
      refine ⟨q :: before, after, rfl, ?_, List.forall_mem_cons.2 ⟨hq, hbefore⟩⟩
      rw [List.length_cons]
      omega

/-- No device is found exactly where no range of the table holds the address (R67). -/
theorem findFrom_eq_none_iff (ds : List Device) (a i : Nat) :
    findFrom ds a i = none ↔ ∀ d ∈ ds, ∀ r ∈ d.ranges, ¬(r.start ≤ a ∧ a < r.stop) := by
  induction ds generalizing i with
  | nil => simp [findFrom]
  | cons d ds ih =>
    rw [findFrom, List.forall_mem_cons, ← findRange_eq_none_iff d.ranges a 0]
    cases hd : findRange d.ranges a 0 with
    | none => simpa using ih (i + 1)
    | some kr => simp

/-- The device found, between those before it, none of which holds the address, and those after it (R67). -/
theorem findFrom_split {ds : List Device} {a i : Nat} {h : Hit} (hf : findFrom ds a i = some h) :
    ∃ before after, ds = before ++ h.device :: after ∧ h.index = i + before.length ∧
      findRange h.device.ranges a 0 = some (h.range, h.span) ∧ h.offset = a - h.span.start ∧
      ∀ d ∈ before, ∀ r ∈ d.ranges, ¬(r.start ≤ a ∧ a < r.stop) := by
  induction ds generalizing i with
  | nil => cases hf
  | cons d ds ih =>
    rw [findFrom] at hf
    split at hf
    · rename_i k r hr
      cases hf
      exact ⟨[], ds, rfl, rfl, hr, rfl, by simp⟩
    · rename_i hnone
      rw [findRange_eq_none_iff] at hnone
      obtain ⟨before, after, rfl, hindex, hrange, hoffset, hbefore⟩ := ih hf
      refine ⟨d :: before, after, rfl, ?_, hrange, hoffset, List.forall_mem_cons.2 ⟨hnone, hbefore⟩⟩
      rw [List.length_cons]
      omega

theorem findDevice_eq_none_iff (b : Bus) (a : Addr) :
    b.findDevice a = none ↔ ∀ d ∈ b.devices, ∀ r ∈ d.ranges, ¬(r.start ≤ a.toNat ∧ a.toNat < r.stop) :=
  findFrom_eq_none_iff b.devices a.toNat 0

/-- What comes before the split of a list has the lower indices. -/
theorem mem_of_getElem?_append {α : Type} {before after : List α} {j : Nat} {x : α} (hj : j < before.length)
    (hx : (before ++ after)[j]? = some x) : x ∈ before :=
  List.mem_of_getElem? (List.getElem?_append_left hj ▸ hx)

/-- Settles O56: the table splits at the device found and its ranges at the range found. -/
theorem findDeviceIsTheFirstMatch : Obligations.FindDeviceIsTheFirstMatch := by
  refine fun b a => ⟨findDevice_eq_none_iff b a, fun h hf => ?_⟩
  obtain ⟨before, after, hdevices, hindex, hrange, hoffset, hbefore⟩ := findFrom_split hf
  obtain ⟨rbefore, rafter, hranges, hrindex, hrbefore⟩ := findRange_split hrange
  obtain ⟨hstart, hstop⟩ := (Range.contains_iff _ _).1 (findRange_contains _ _ _ _ _ hrange)
  rw [Nat.zero_add] at hindex hrindex
  refine ⟨findDevice_get b a h hf, ?_, hstart, hstop, hoffset, fun j d hj hd => ?_, fun j r hj hr => ?_⟩
  · simp [hranges, hrindex]
  · rw [hdevices] at hd
    exact hbefore d (mem_of_getElem?_append (hindex ▸ hj) hd)
  · rw [hranges] at hr
    exact hrbefore r (mem_of_getElem?_append (hrindex ▸ hj) hr)

end Sys2Proof.Machine
end

section
/-! PROOFS. 20_memory.md, accesses: unmapped addresses (R68 to R71), plain memory one byte at a time, and the 16-bit
accesses (R70 to R73, R76). -/

namespace Sys2Proof.Machine

/-! ### Unmapped addresses -/

/-- Unmapped writes are dropped (R69). -/
theorem write8_unmapped (b : Bus) (a : Addr) (v : Byte) (h : b.findDevice a = none) : b.write8 a v = b := by
  simp [Bus.write8, h]

/-- Bit 0 of an address says whether it is odd (R70). -/
theorem getLsbD_zero_iff (a : Addr) : a.getLsbD 0 = true ↔ a.toNat % 2 = 1 := by
  rw [BitVec.getLsbD, Nat.testBit_zero, decide_eq_true_iff]

theorem not_getLsbD_zero {a : Addr} (ha : a.toNat % 2 = 0) : ¬ a.getLsbD 0 = true := by
  rw [getLsbD_zero_iff, ha]
  decide

section
variable {b : Bus} {a : Addr}

/-- A 16-bit read at an odd address is two byte reads, the lower address first (R70, D23). -/
theorem read16_odd (ha : a.toNat % 2 = 1) :
    b.read16 a = (wordLE (b.read8 a).1 ((b.read8 a).2.read8 (a + 1)).1, ((b.read8 a).2.read8 (a + 1)).2) := by
  rw [Bus.read16, if_pos ((getLsbD_zero_iff a).2 ha)]

/-- A 16-bit write at an odd address is two byte writes, the lower address first (R71, D23). -/
theorem write16_odd (ha : a.toNat % 2 = 1) (v : Word16) :
    b.write16 a v = (b.write8 a (lowByte v)).write8 (a + 1) (highByte v) := by
  rw [Bus.write16, if_pos ((getLsbD_zero_iff a).2 ha)]

/-- An even 16-bit read of an unmapped address gives zero (R70). -/
theorem read16_even_unmapped (ha : a.toNat % 2 = 0) (hf : b.findDevice a = none) : b.read16 a = (0x0000, b) := by
  rw [Bus.read16, if_neg (not_getLsbD_zero ha), hf]

/-- An even 16-bit write to an unmapped address is dropped (R71). -/
theorem write16_even_unmapped (ha : a.toNat % 2 = 0) (hf : b.findDevice a = none) (v : Word16) :
    b.write16 a v = b := by
  rw [Bus.write16, if_neg (not_getLsbD_zero ha), hf]

/-- An even 16-bit read is one call of the owning device (R70). -/
theorem read16_even_mapped {h : Hit} (ha : a.toNat % 2 = 0) (hf : b.findDevice a = some h) :
    b.read16 a = b.devRead16 h := by
  rw [Bus.read16, if_neg (not_getLsbD_zero ha), hf]

/-- An even 16-bit write is one call of the owning device (R71). -/
theorem write16_even_mapped {h : Hit} (ha : a.toNat % 2 = 0) (hf : b.findDevice a = some h) (v : Word16) :
    b.write16 a v = b.devWrite16 h v := by
  rw [Bus.write16, if_neg (not_getLsbD_zero ha), hf]

end

/-- Settles O57: the byte accesses find no device, and a 16-bit access is two of them or finds none itself. -/
theorem unmappedReadsZeroAndDropsWrites : Obligations.UnmappedReadsZeroAndDropsWrites := by
  intro b a v v2 ha
  rw [← findDevice_eq_none_iff] at ha
  refine ⟨read8_unmapped b a ha, write8_unmapped b a v ha, fun hnext => ?_⟩
  rw [← findDevice_eq_none_iff] at hnext
  rcases Nat.mod_two_eq_zero_or_one a.toNat with heven | hodd
  · exact ⟨read16_even_unmapped heven ha, write16_even_unmapped heven ha v2⟩
  · rw [read16_odd hodd, write16_odd hodd, read8_unmapped b a ha, read8_unmapped b _ hnext,
      write8_unmapped b a _ ha, write8_unmapped b _ _ hnext]
    exact ⟨rfl, rfl⟩

/-! ### Plain memory -/

section
variable {b : Bus} {a : Addr} {h : Hit}

/-- The range of a hit holds the address, and the offset counts from its start (R67). -/
theorem findDevice_span (hf : b.findDevice a = some h) :
    h.span.start ≤ a.toNat ∧ a.toNat < h.span.stop ∧ h.span.start + h.offset = a.toNat := by
  obtain ⟨_, _, _, _, hrange, hoffset, _⟩ := findFrom_split hf
  obtain ⟨hstart, hstop⟩ := (Range.contains_iff _ _).1 (findRange_contains _ _ _ _ _ hrange)
  exact ⟨hstart, hstop, by omega⟩

/-- A plain-memory device keeps the byte at the address that hit it (log 5). -/
theorem findDevice_flat (hf : b.findDevice a = some h) : h.flat = a := by
  obtain ⟨_, _, hoffset⟩ := findDevice_span hf
  rw [Hit.flat, hoffset, BitVec.ofNat_toNat, BitVec.setWidth_eq]

/-- The next byte is in the range of a hit exactly where the range goes on past the address (R73 (a)). -/
theorem findDevice_hasNext (hf : b.findDevice a = some h) : h.hasNext = decide (a.toNat + 1 < h.span.stop) := by
  obtain ⟨_, _, hoffset⟩ := findDevice_span hf
  rw [Hit.hasNext, hoffset]

theorem read8_memory (hf : b.findDevice a = some h) (hk : h.device.kind = .memory) :
    b.read8 a = (b.mem.read a, b) := by
  simp [Bus.read8, hf, Bus.devRead, hk, findDevice_flat hf]

theorem write8_memory (hf : b.findDevice a = some h) (hk : h.device.kind = .memory) (v : Byte) :
    b.write8 a v = { b with mem := b.mem.write a v } := by
  simp [Bus.write8, hf, Bus.devWrite, hk, findDevice_flat hf]

end

/-- The lookup does not see the contents of memory (R67). -/
theorem findDevice_withMem (b : Bus) (m : Memory) (a : Addr) :
    Bus.findDevice { b with mem := m } a = b.findDevice a := rfl

/-- A byte of the store reaches no read but the one of its own address. -/
theorem read8_withMem_congr (b : Bus) (m : Memory) (c : Addr) (hm : m.read c = b.mem.read c) :
    (Bus.read8 { b with mem := m } c).1 = (b.read8 c).1 := by
  cases hc : b.findDevice c with
  | none => rw [read8_unmapped { b with mem := m } c hc, read8_unmapped b c hc]
  | some h =>
    cases hk : h.device.kind with
    | memory => rw [read8_memory (b := { b with mem := m }) hc hk, read8_memory hc hk, hm]
    | external n => simp [Bus.read8, findDevice_withMem, hc, Bus.devRead, hk]

/-- Settles O59: a write to plain memory is one write of the store, which a read of another address does not see. -/
theorem plainMemoryReadsBack : Obligations.PlainMemoryReadsBack := by
  intro b a v h hwf hf hk
  rw [write8_memory hf hk]
  refine ⟨?_, fun c hc => read8_withMem_congr b _ c (read_write_other _ _ _ _ hc)⟩
  rw [read8_memory (b := { b with mem := b.mem.write a v }) hf hk, read_write_self _ _ _ hwf]

/-! ### The 16-bit accesses -/

/-- The number of a little-endian pair (R76). -/
theorem wordLE_toNat (lo hi : Byte) : (wordLE lo hi).toNat = lo.toNat + 256 * hi.toNat := by
  have hlo := lo.isLt
  have hhi := hi.isLt
  exact Nat.mod_eq_of_lt (by omega)

/-- The ranges of the table, by its devices and by its shape. -/
theorem shape_ranges (b : Bus) : b.shape.flatMap Prod.snd = b.devices.flatMap Device.ranges := by
  simp [Bus.shape, Device.shape, List.flatMap_map]

/-- Where the range of a hit goes on, a well-formed table has the next address hit the same device (R66, R67). -/
theorem findDevice_next {b : Bus} {a : Addr} {h : Hit} (ht : tableWf b.shape) (hf : b.findDevice a = some h)
    (hnext : a.toNat + 1 < h.span.stop) : ∃ h', b.findDevice (a + 1) = some h' ∧ h'.device = h.device := by
  obtain ⟨hwf, hdisjoint⟩ := ht
  rw [shape_ranges] at hwf hdisjoint
  obtain ⟨hstart, hstop, _⟩ := findDevice_span hf
  have hheld (c : Nat) (hc : h.span.contains c = true) := findFrom_same _ _ c _ _ hdisjoint hf hc
  obtain ⟨_, hmem, _, _⟩ := hheld a.toNat ((Range.contains_iff _ _).2 ⟨hstart, hstop⟩)
  obtain ⟨_, hspace, _⟩ := (Range.wf_iff _).1 (hwf _ hmem)
  have hsucc : (a + 1).toNat = (a.toNat + 1) % 2 ^ 32 := BitVec.toNat_add a 1
  obtain ⟨hfound, _⟩ := hheld (a + 1).toNat ((Range.contains_iff _ _).2 (by omega))
  exact ⟨_, hfound, rfl⟩

section
variable {b : Bus} {a : Addr} {h : Hit}

/-- The one call of an external device for an even 16-bit read (R70, R74). -/
theorem read16_even_external {m : Nat} (ha : a.toNat % 2 = 0) (hf : b.findDevice a = some h)
    (hk : h.device.kind = .external m) :
    b.read16 a = ((Config.devRead16 m h.device.state h.offset h.range).1,
      b.setDeviceState h (Config.devRead16 m h.device.state h.offset h.range).2) := by
  simp [read16_even_mapped ha hf, Bus.devRead16, hk]

/-- The one call of an external device for an even 16-bit write (R71, R74). -/
theorem write16_even_external {m : Nat} (ha : a.toNat % 2 = 0) (hf : b.findDevice a = some h)
    (hk : h.device.kind = .external m) (v : Word16) :
    b.write16 a v = b.setDeviceState h (Config.devWrite16 m h.device.state v h.offset h.range) := by
  simp [write16_even_mapped ha hf, Bus.devWrite16, hk]

/-- Inside a range of plain memory an even 16-bit read is two bytes of the store (log 5). -/
theorem read16_even_memory (ha : a.toNat % 2 = 0) (hf : b.findDevice a = some h) (hk : h.device.kind = .memory)
    (hnext : a.toNat + 1 < h.span.stop) : b.read16 a = (wordLE (b.mem.read a) (b.mem.read (a + 1)), b) := by
  simp [read16_even_mapped ha hf, Bus.devRead16, hk, findDevice_hasNext hf, hnext, findDevice_flat hf]

/-- Inside a range of plain memory an even 16-bit write is two writes of the store (log 5). -/
theorem write16_even_memory (ha : a.toNat % 2 = 0) (hf : b.findDevice a = some h) (hk : h.device.kind = .memory)
    (hnext : a.toNat + 1 < h.span.stop) (v : Word16) :
    b.write16 a v = { b with mem := (b.mem.write a (lowByte v)).write (a + 1) (highByte v) } := by
  simp [write16_even_mapped ha hf, Bus.devWrite16, hk, findDevice_hasNext hf, hnext, findDevice_flat hf]

/-- At the end of a range of plain memory an even 16-bit read has the stored byte below a free one (log 6). -/
theorem read16_even_memory_end (ha : a.toNat % 2 = 0) (hf : b.findDevice a = some h) (hk : h.device.kind = .memory)
    (hend : h.span.stop ≤ a.toNat + 1) :
    (b.read16 a).1 = wordLE (b.mem.read a) (Config.pastEndByte h.device.state a.toNat) := by
  simp [read16_even_mapped ha hf, Bus.devRead16, hk, findDevice_hasNext hf, Nat.not_lt.2 hend, findDevice_flat hf]

/-- At the end of a range of plain memory an even 16-bit write keeps the lower byte alone (log 6). -/
theorem write16_even_memory_end (ha : a.toNat % 2 = 0) (hf : b.findDevice a = some h) (hk : h.device.kind = .memory)
    (hend : h.span.stop ≤ a.toNat + 1) (v : Word16) :
    b.write16 a v = { b with mem := b.mem.write a (lowByte v) } := by
  simp [write16_even_mapped ha hf, Bus.devWrite16, hk, findDevice_hasNext hf, Nat.not_lt.2 hend, findDevice_flat hf]

end

/-- Settles O58, by the parity of the address, what owns it, and whether its range goes on. -/
theorem sixteenBitAccesses : Obligations.SixteenBitAccesses := by
  refine fun b a v => ⟨fun hodd => ?_, fun heven => ⟨fun hf => ?_, fun h hf => ⟨fun m hk => ?_, fun hk ht =>
    ⟨fun hnext => ?_, fun hend => ?_⟩⟩⟩⟩
  · rw [read16_odd hodd, wordLE_toNat]
    exact ⟨rfl, rfl, write16_odd hodd v⟩
  · exact ⟨read16_even_unmapped heven hf, write16_even_unmapped heven hf v⟩
  · rw [read16_even_external heven hf hk, write16_even_external heven hf hk]
    exact ⟨rfl, rfl, rfl⟩
  · obtain ⟨h', hf', hdev⟩ := findDevice_next ht hf hnext
    have hk' : h'.device.kind = .memory := hdev ▸ hk
    rw [read16_even_memory heven hf hk hnext, write16_even_memory heven hf hk hnext, read8_memory hf hk,
      read8_memory hf' hk', wordLE_toNat, write8_memory hf hk,
      write8_memory (b := { b with mem := b.mem.write a _ }) hf' hk']
    exact ⟨rfl, rfl, rfl⟩
  · rw [read16_even_memory_end heven hf hk hend, write16_even_memory_end heven hf hk hend, read8_memory hf hk,
      write8_memory hf hk, wordLE_toNat]
    have hlow := (b.mem.read a).isLt
    exact ⟨by simp only; omega, rfl⟩

end Sys2Proof.Machine
end

section
/-! PROOFS. 20_memory.md R65 and R66: what the bus operations, a cycle and construction keep of the device table, the
memory and the model arguments. -/

namespace Sys2Proof.Machine

/-- Settles O60: each operation keeps the shape, and the reads and the poll keep the memory itself. -/
theorem busOperationsKeepTheForm : Obligations.BusOperationsKeepTheForm := by
  intro b a v v2 hwf
  have hsame {b' : Bus} (hkept : b'.shape = b.shape ∧ b'.mem = b.mem) : b'.mem.wf ∧ b'.shape = b.shape :=
    ⟨hkept.2 ▸ hwf, hkept.1⟩
  have hwritten {b' : Bus} (hkept : b'.shape = b.shape ∧ (b.mem.wf → b'.mem.wf)) :
      b'.mem.wf ∧ b'.shape = b.shape :=
    ⟨hkept.2 hwf, hkept.1⟩
  simp only [List.forall_mem_cons, List.not_mem_nil, false_implies, implies_true, and_true]
  exact ⟨hsame (read8_keeps b a), hsame (read16_keeps b a), hwritten (write8_keeps b a v),
    hwritten (write16_keeps b a v2), hsame (clockAll_keeps b)⟩

/-- A cycle ends with the poll, on the bus that its fetch left: no instruction and no trap entry touches it (R75). -/
theorem step_bus {s t : State} (h : step s = .next t) :
    ∃ u, Fetched (beginCycle s) u ∧ t.bus = u.bus.clockAll.2 := by
  obtain ⟨u, hu, rfl | ⟨i, v, he, rfl⟩⟩ := step_cases s t h
  · exact ⟨u, hu, by simp⟩
  · exact ⟨u, hu, by simp [he.bus]⟩

/-- No cycle changes the shape of the device table or a byte of plain memory (R65, R75). -/
theorem step_shape_mem {s t : State} (h : step s = .next t) :
    t.bus.shape = s.bus.shape ∧ t.bus.mem = s.bus.mem := by
  obtain ⟨u, hu, hbus⟩ := step_bus h
  obtain ⟨hshape, hmem⟩ := clockAll_keeps u.bus
  rw [hbus]
  exact ⟨hshape.trans hu.shape, hmem.trans hu.mem⟩

/-- Settles O15: the arguments by `step_params`, the bus by `step_shape_mem`. -/
theorem stepKeepsTheConfiguration : Obligations.StepKeepsTheConfiguration :=
  fun _ _ h => ⟨step_params h, step_shape_mem h⟩

/-- Settles O13: well-formedness is of the memory, the table's shape and the arguments, which no cycle changes. -/
theorem stepKeepsTheInvariant : Obligations.StepKeepsTheInvariant := by
  intro s t ⟨hmem, htable, hparams⟩ h
  obtain ⟨hshape', hmem'⟩ := step_shape_mem h
  exact ⟨hmem' ▸ hmem, hshape' ▸ htable, step_params h ▸ hparams⟩

/-- The defaults of R9 pass the check of construction (R66). -/
theorem reset_inv : State.reset.inv := by decide

/-- Settles O14: construction answers exactly the initial state of well-formed arguments. -/
theorem resetIsWellFormed : Obligations.ResetIsWellFormed := by
  refine ⟨reset_inv, (construct_some _ _ _ _).2 ⟨reset_inv, rfl⟩, fun g b p => ?_⟩
  refine ⟨⟨fun h => ?_, fun h => ?_⟩, fun s h => ?_⟩
  · obtain ⟨s, hs⟩ := Option.isSome_iff_exists.1 h
    exact ((construct_some g b p s).1 hs).1
  · exact Option.isSome_iff_exists.2 ⟨_, (construct_some g b p _).2 ⟨h, rfl⟩⟩
  · obtain ⟨hwf, rfl⟩ := (construct_some g b p s).1 h
    exact ⟨hwf, rfl, rfl, rfl⟩

end Sys2Proof.Machine
end

section
/-! PROOFS. 30_encoding.md: the decoder and the encoder are each other's inverse. What the decoder accepts is said once,
as an `↔` for the operand items (R91 to R95), for dispatch (R97 to R101) and for a whole instruction (R90); the round
trips read it in its two directions. -/

namespace Sys2Proof.Machine

/-! ### Operand items -/

/-- The bytes go on with a terminator (R92). -/
def BeginsWithTerminator (bytes : List Byte) : Prop := ∃ t tail, bytes = t :: tail ∧ t.msb = true

/-- The bytes of a well-formed item put the item in front of what the bytes after them decode to (R91, R93, R94). -/
theorem decodeOperands_encodeOperand_append {x : Operand} (hx : x.wf = true) (rest : List Byte) :
    decodeOperands (encodeOperand x ++ rest) = (decodeOperands rest).map (Prod.map (x :: ·) id) := by
  have himm8 : classify 0x70 = .imm8 := by decide
  have himm16 : classify 0x71 = .imm16 := by decide
  cases x with
  | imm8 v =>
    simp only [encodeOperand, List.cons_append, List.nil_append, decodeOperands, himm8]
    cases decodeOperands rest <;> rfl
  | imm16 v =>
    simp only [encodeOperand, List.cons_append, List.nil_append, decodeOperands, himm16, wordLE_parts]
    cases decodeOperands rest <;> rfl
  | reg id =>
    rw [encodeOperand, List.singleton_append, decodeOperands.eq_def]
    simp only [classify_reg id hx]
    cases decodeOperands rest <;> rfl

/-- Where an item stands in front, the bytes decode exactly when the bytes after the item do. -/
theorem decodeOperands_encodeOperand_append_eq_ok_iff {x : Operand} (hx : x.wf = true) {rest tail : List Byte}
    {ops : List Operand} :
    decodeOperands (encodeOperand x ++ rest) = .ok (ops, tail) ↔
      ∃ ops', decodeOperands rest = .ok (ops', tail) ∧ ops = x :: ops' := by
  rw [decodeOperands_encodeOperand_append hx]
  cases decodeOperands rest with
  | error e => simp [Except.map]
  | ok p => simp [Except.map, Prod.ext_iff, eq_comm, and_comm]

/-- Operands end where a terminator stands, with nothing consumed (R92). -/
theorem decodeOperands_of_beginsWithTerminator {bytes : List Byte} (h : BeginsWithTerminator bytes) :
    decodeOperands bytes = .ok ([], bytes) := by
  obtain ⟨t, tail, rfl, ht⟩ := h
  exact decodeOperands_terminator t tail (classify_terminator t ht)

/-- Bytes whose operands decode go on with a terminator or with the bytes of a well-formed item (R91 to R95). -/
theorem decodeOperands_ok_cases {bytes : List Byte} {r : List Operand × List Byte} (h : decodeOperands bytes = .ok r) :
    BeginsWithTerminator bytes ∨ ∃ x rest, bytes = encodeOperand x ++ rest ∧ x.wf = true := by
  cases bytes with
  | nil => cases h
  | cons b rest =>
    obtain ⟨hterm, himm8, himm16, hreg⟩ := classify_spec b
    cases hc : classify b with
    | terminator => exact .inl ⟨b, rest, rfl, hterm hc⟩
    | imm8 =>
      match rest with
      | [] => simp [decodeOperands, hc] at h
      | ib :: rest => exact .inr ⟨.imm8 ib, rest, by rw [himm8 hc]; rfl, rfl⟩
    | imm16 =>
      match rest with
      | [] | [_] => simp [decodeOperands, hc] at h
      | lo :: hi :: rest =>
        refine .inr ⟨.imm16 (wordLE lo hi), rest, ?_, rfl⟩
        simp [encodeOperand, lowByte_wordLE, highByte_wordLE, himm16 hc]
    | reg => exact .inr ⟨.reg b, rest, rfl, hreg hc⟩
    | invalid => rw [decodeOperands_invalid b rest hc] at h; cases h

/-- Bytes decode to operands exactly where they are the encoding of these operands, all well formed, before a
terminator (R90 to R95). -/
theorem decodeOperands_eq_ok_iff {bytes tail : List Byte} {ops : List Operand} :
    decodeOperands bytes = .ok (ops, tail) ↔
      bytes = ops.flatMap encodeOperand ++ tail ∧ ops.all Operand.wf = true ∧ BeginsWithTerminator tail := by
  constructor
  · intro h
    induction ops generalizing bytes with
    | nil =>
      rcases decodeOperands_ok_cases h with ht | ⟨x, rest, rfl, hx⟩
      · cases (decodeOperands_of_beginsWithTerminator ht).symm.trans h
        exact ⟨rfl, rfl, ht⟩
      · obtain ⟨_, _, hnil⟩ := (decodeOperands_encodeOperand_append_eq_ok_iff hx).1 h
        cases hnil
    | cons y ops ih =>
      rcases decodeOperands_ok_cases h with ht | ⟨x, rest, rfl, hx⟩
      · cases (decodeOperands_of_beginsWithTerminator ht).symm.trans h
      · obtain ⟨_, hrest, hcons⟩ := (decodeOperands_encodeOperand_append_eq_ok_iff hx).1 h
        cases hcons
        obtain ⟨rfl, hops, ht⟩ := ih hrest
        exact ⟨by simp, by simp [hx, hops], ht⟩
  · rintro ⟨rfl, hops, ht⟩
    induction ops with
    | nil => exact decodeOperands_of_beginsWithTerminator ht
    | cons x ops ih =>
      obtain ⟨hx, hops⟩ := Bool.and_eq_true_iff.1 hops
      rw [List.flatMap_cons, List.append_assoc, decodeOperands_encodeOperand_append_eq_ok_iff hx]
      exact ⟨ops, ih hops, rfl⟩

/-! ### Dispatch and the whole instruction -/

/-- Dispatch answers exactly the instruction whose mnemonic the opcode stands for and whose operands are given (R97 to
R101). -/
theorem dispatch_eq_ok_iff {o : OpcodeMap} {op : Byte} {ops : List Operand} {i : Instr} :
    dispatch o op ops = .ok i ↔ o.lookup op = some i.mnemonic ∧ ops = i.operands := by
  constructor
  · intro h
    cases hm : o.lookup op with
    | none => simp [dispatch, hm] at h
    | some m =>
      cases ha : assemble m ops with
      | none => simp [dispatch, hm, ha] at h
      | some j =>
        simp only [dispatch, hm, ha] at h
        cases h
        obtain ⟨rfl, rfl⟩ := assemble_some m ops i ha
        exact ⟨rfl, rfl⟩
  · rintro ⟨hm, rfl⟩
    simp [dispatch, hm, assemble_self]

/-- Bytes decode to an instruction exactly where they are an opcode byte of its mnemonic and the encoding of its
operands, all well formed, before a terminator (R90 to R101). -/
theorem decode_eq_ok_iff {o : OpcodeMap} {bytes rest : List Byte} {i : Instr} :
    decode o bytes = .ok (i, rest) ↔
      (∃ op, bytes = op :: (i.operands.flatMap encodeOperand ++ rest) ∧ o.lookup op = some i.mnemonic) ∧
        i.wf = true ∧ BeginsWithTerminator rest := by
  constructor
  · intro h
    cases bytes with
    | nil => cases h
    | cons op bytes =>
      cases hops : decodeOperands bytes with
      | error e => simp [decode, hops] at h
      | ok r =>
        obtain ⟨ops, tail⟩ := r
        cases hi : dispatch o op ops with
        | error e => simp [decode, hops, hi] at h
        | ok j =>
          simp only [decode, hops, hi] at h
          cases h
          obtain ⟨hm, rfl⟩ := dispatch_eq_ok_iff.1 hi
          obtain ⟨rfl, hwf, ht⟩ := decodeOperands_eq_ok_iff.1 hops
          exact ⟨⟨op, rfl, hm⟩, hwf, ht⟩
  · rintro ⟨⟨op, rfl, hm⟩, hwf, ht⟩
    have hops := decodeOperands_eq_ok_iff.2 ⟨rfl, hwf, ht⟩
    have hi := dispatch_eq_ok_iff.2 ⟨hm, rfl⟩
    simp [decode, hops, hi]

/-- Settles O1: what the decoder accepts, from the encoding to the instruction; a well-formed map looks up the
mnemonic of its own byte. -/
theorem decodeInvertsEncode : Obligations.DecodeInvertsEncode :=
  fun o i t rest ho hi ht => decode_eq_ok_iff.2 ⟨⟨_, rfl, lookup_byteOf o i.mnemonic ho⟩, hi, t, rest, rfl, ht⟩

/-- Settles O2: what the decoder accepts, from the instruction to its bytes; a looked-up byte is the mnemonic's own. -/
theorem decodedBytesAreTheEncoding : Obligations.DecodedBytesAreTheEncoding := by
  intro o bytes rest i h
  obtain ⟨⟨op, rfl, hm⟩, hwf, ht⟩ := decode_eq_ok_iff.1 h
  obtain rfl := lookup_some o op _ hm
  exact ⟨rfl, hwf, ht⟩

/-! ### The worked encodings and the reserved bytes -/

/-- With the default opcodes the encoding of an instruction and the terminator 0x80 decode to it (R97, R106). -/
theorem decode_default_encode (i : Instr) (hi : i.wf = true) :
    decode .default (encode .default i ++ [0x80]) = .ok (i, [0x80]) :=
  decodeInvertsEncode .default i 0x80 [] (by decide) hi (by decide)

/-- Settles O3: each row is the encoding of its instruction, which decodes back. -/
theorem workedEncodingsDecode : Obligations.WorkedEncodingsDecode :=
  ⟨decode_default_encode (.mov (.imm8 0xff) (.reg 0x07)) (by decide),
    decode_default_encode (.mov (.reg 0x01) (.reg 0x08)) (by decide),
    decode_default_encode (.movsx (.imm16 0xfff6) (.reg 0x08)) (by decide),
    decode_default_encode (.add (.reg 0x06) (.reg 0x02)) (by decide),
    decode_default_encode (.imul (.imm8 0x34) (.reg 0x02) (.reg 0x03)) (by decide),
    decode_default_encode (.mov (.imm8 0x80) (.reg 0x02)) (by decide),
    decode_default_encode (.mov (.imm16 0x0004) (.reg 0x2c)) (by decide)⟩

/-- The reserved operand bytes are no terminator, no byte that begins an immediate and no register id (R102, R103). -/
theorem classify_reserved : ∀ b : Byte,
    (0x1a ≤ b ∧ b ≤ 0x1f) ∨ (0x24 ≤ b ∧ b ≤ 0x27) ∨ (0x30 ≤ b ∧ b ≤ 0x6f) ∨ (0x72 ≤ b ∧ b ≤ 0x7f) →
    classify b = .invalid := by decide

/-- A fetched byte that is no item ends the operand loop in the state after that one fetch (R146). -/
theorem operandLoop_of_invalid (fuel : Nat) (ops : List Operand) (s : State)
    (h : classify (fetch8 s).1 = .invalid) : operandLoop (fuel + 1) ops s = .invalid (fetch8 s).2 := by
  simp only [operandLoop, h]

/-- Settles O4: a reserved byte is no item, and the loop fails at the one that it fetches. -/
theorem reservedOperandBytesFail : Obligations.ReservedOperandBytesFail := by
  rintro fuel ops s _ rfl hreserved
  exact operandLoop_of_invalid fuel ops s (classify_reserved _ hreserved)

end Sys2Proof.Machine
end

section
/-! PROOFS. 40_regval_alu.md R112 and R113: truncating an extension gives the value back. -/

namespace Sys2Proof.Machine

theorem trunc_zext {n m : Nat} (h : n ≤ m) (v : BitVec n) : trunc n (zext m v) = v := by
  simp [trunc, zext, h]

/-- Below the old width a sign extension has the bits of the value. -/
theorem trunc_sext {n m : Nat} (h : n ≤ m) (v : BitVec n) : trunc n (sext m v) = v := by
  refine BitVec.eq_of_getLsbD_eq fun i hi => ?_
  rw [trunc, sext, BitVec.getLsbD_setWidth, BitVec.getLsbD_signExtend]
  simp [hi, hi.trans_le h]

/-- Truncating either extension gives the value back (R113). -/
theorem trunc_extension {n m : Nat} (h : n ≤ m) (v : BitVec n) (sx : Bool) :
    trunc n (if sx then sext m v else zext m v) = v := by
  cases sx with
  | false => exact trunc_zext h v
  | true => exact trunc_sext h v

/-- On tagged values: the identity where the width stays, the law of the bit vectors where it grows (R112, R113). -/
theorem truncVal_of_extendVal {x y : RegVal} {m : Width} {sx : Bool} (h : extendVal x m sx = some y) :
    truncVal y x.width = x := by
  unfold extendVal at h
  split at h <;> cases h
  · rfl
  · exact congrArg RegVal.byte (trunc_extension (by decide) _ sx)
  · exact congrArg RegVal.byte (trunc_extension (by decide) _ sx)
  · rfl
  · exact congrArg RegVal.word (trunc_extension (by decide) _ sx)
  · rfl

/-- Settles O41: the two extensions of a bit vector, and the cases of `extend` on tagged values. -/
theorem extendThenTruncateIsIdentity : Obligations.ExtendThenTruncateIsIdentity :=
  ⟨fun _ _ v h => ⟨trunc_sext h v, trunc_zext h v⟩, fun _ _ _ _ h => truncVal_of_extendVal h⟩

end Sys2Proof.Machine
end

section
/-! PROOFS. 40_regval_alu.md, `add_N` and `sub_N`: the result, the unsigned wraparound and the flags (R114, R115), and
the two readings of signed overflow (R116). Both functions are about one exact signed number, of which the result is
the low bits; `sub_N` overflows as the addition of the complement does. -/

namespace Sys2Proof.Machine

/-! ### The exact signed number and its low bits -/

theorem outOfRange_eq_true_iff (n : Nat) (x : Int) :
    outOfRange n x = true ↔ ¬(-(2 : Int) ^ (n - 1) ≤ x ∧ x ≤ 2 ^ (n - 1) - 1) := by
  simp only [outOfRange, Bool.or_eq_true, decide_eq_true_eq]
  omega

/-- A number of at most `n + 1` signed bits is out of the `n`-bit range exactly where the top bit of its low `n` bits
is not its sign. -/
theorem outOfRange_iff_msb_ofInt_ne {n : Nat} (hn : 0 < n) {x : Int} (hlo : -(2 : Int) ^ n ≤ x) (hhi : x < 2 ^ n) :
    outOfRange n x = true ↔ (BitVec.ofInt n x).msb ≠ decide (x < 0) := by
  have hpow : (2 : Int) ^ n = 2 * 2 ^ (n - 1) := by rw [← pow_succ', Nat.sub_add_cancel hn]
  have hmsb : (BitVec.ofInt n x).msb = decide ((2 : Int) ^ (n - 1) ≤ x % 2 ^ n) := by
    rw [BitVec.msb_eq_decide, BitVec.toNat_ofInt, decide_eq_decide, Int.le_toNat (Int.emod_nonneg _ (by positivity))]
    push_cast
    rfl
  rw [outOfRange_eq_true_iff, hmsb, ne_eq, decide_eq_decide]
  by_cases hx : x < 0
  · have hmod : x % 2 ^ n = x + 2 ^ n := by
      rw [← Int.add_emod_right, Int.emod_eq_of_lt (by omega) (by omega)]
    omega
  · rw [Int.emod_eq_of_lt (by omega) hhi]
    omega

theorem msb_complement {n : Nat} (hn : 0 < n) (b : BitVec n) : (~~~b).msb = !b.msb := by
  simp [hn]

theorem toInt_complement {n : Nat} (hn : 0 < n) (b : BitVec n) : (~~~b).toInt = -b.toInt - 1 := by
  have hb := b.isLt
  rw [BitVec.toInt_eq_msb_cond, BitVec.toInt_eq_msb_cond, msb_complement hn, BitVec.toNat_not]
  cases b.msb <;> simp only [Bool.not_true, Bool.not_false, if_true, Bool.false_eq_true, if_false] <;> omega

/-! ### The flags and the results -/

section
variable {n : Nat} (a b : BitVec n) (c : Bool)

@[simp] theorem addN_carry : (addN a b c).2.carry = decide (2 ^ n ≤ a.toNat + b.toNat + c.toNat) := rfl
@[simp] theorem addN_zero : (addN a b c).2.zero = decide ((addN a b c).1 = 0) := rfl
@[simp] theorem addN_negative : (addN a b c).2.negative = (addN a b c).1.msb := rfl
@[simp] theorem addN_overflow : (addN a b c).2.overflow = outOfRange n (a.toInt + b.toInt + c.toNat) := rfl

theorem addN_toNat : (addN a b c).1.toNat = (a.toNat + b.toNat + c.toNat) % 2 ^ n := BitVec.toNat_ofNat _ _

/-- The result is the low bits of the signed sum as of the unsigned one (R114). -/
theorem addN_eq_ofInt : (addN a b c).1 = BitVec.ofInt n (a.toInt + b.toInt + c.toNat) := by
  simp [addN, BitVec.ofInt_add, BitVec.ofNat_add]

@[simp] theorem subN_carry : (subN a b c).2.carry = decide ((a.toNat : Int) - b.toNat - c.toNat < 0) := rfl
@[simp] theorem subN_zero : (subN a b c).2.zero = decide ((subN a b c).1 = 0) := rfl
@[simp] theorem subN_negative : (subN a b c).2.negative = (subN a b c).1.msb := rfl
@[simp] theorem subN_overflow : (subN a b c).2.overflow = outOfRange n (a.toInt - b.toInt - c.toNat) := rfl

theorem subN_toNat : ((subN a b c).1.toNat : Int) = ((a.toNat : Int) - b.toNat - c.toNat) % 2 ^ n := by
  have hnonneg : 0 ≤ ((a.toNat : Int) - b.toNat - c.toNat) % 2 ^ n := Int.emod_nonneg _ (by positivity)
  simp [subN, hnonneg]

end

/-! ### Addition -/

/-- The sum of operands of different signs is in range (R116). -/
theorem addN_overflow_iff_signs {n : Nat} (hn : 0 < n) (a b : BitVec n) (c : Bool) :
    (addN a b c).2.overflow = true ↔ a.msb = b.msb ∧ (addN a b c).1.msb ≠ a.msb := by
  have hpow : (2 : Int) ^ n = 2 * 2 ^ (n - 1) := by rw [← pow_succ', Nat.sub_add_cancel hn]
  have ha := a.le_toInt
  have ha' := a.toInt_lt
  have hb := b.le_toInt
  have hb' := b.toInt_lt
  have hc := c.toNat_le
  by_cases hsigns : a.msb = b.msb
  · have hsum : decide (a.toInt + b.toInt + c.toNat < 0) = a.msb := by
      rw [BitVec.msb_eq_toInt, BitVec.msb_eq_toInt, decide_eq_decide] at hsigns
      rw [BitVec.msb_eq_toInt, decide_eq_decide]
      omega
    rw [addN_overflow, outOfRange_iff_msb_ofInt_ne hn (by omega) (by omega), hsum, addN_eq_ofInt]
    exact (and_iff_right hsigns).symm
  · have hrange : ¬outOfRange n (a.toInt + b.toInt + c.toNat) = true := by
      rw [BitVec.msb_eq_toInt, BitVec.msb_eq_toInt, decide_eq_decide] at hsigns
      rw [outOfRange_eq_true_iff, not_not]
      omega
    simp [hrange, hsigns]

/-- Settles O37: the flags by definition, the signed overflow of R116 by the signs of the operands. -/
theorem addResultAndFlagLaw : Obligations.AddResultAndFlagLaw := by
  intro n a b c hn
  refine ⟨addN_toNat a b c, by simp, by simp, addN_negative a b c, ?_, addN_overflow_iff_signs hn a b c⟩
  rw [addN_overflow, outOfRange_eq_true_iff]

/-! ### Subtraction -/

/-- The exact signed difference is the exact sum with the complement and the complemented borrow. -/
theorem signed_sub_eq_add_complement {n : Nat} (hn : 0 < n) (a b : BitVec n) (c : Bool) :
    a.toInt - b.toInt - c.toNat = a.toInt + (~~~b).toInt + (!c).toNat := by
  rw [toInt_complement hn]
  cases c <;> simp <;> omega

theorem subN_eq_addN_complement {n : Nat} (hn : 0 < n) (a b : BitVec n) (c : Bool) :
    (subN a b c).1 = (addN a (~~~b) (!c)).1 ∧ (subN a b c).2.overflow = (addN a (~~~b) (!c)).2.overflow := by
  have hexact := signed_sub_eq_add_complement hn a b c
  have hlow : (subN a b c).1 = BitVec.ofInt n (a.toInt - b.toInt - c.toNat) := by
    simp [subN, Int.sub_eq_add_neg, BitVec.ofInt_add, BitVec.ofInt_neg]
  exact ⟨by rw [hlow, hexact, addN_eq_ofInt], by rw [subN_overflow, hexact, addN_overflow]⟩

theorem subN_overflow_iff_signs {n : Nat} (hn : 0 < n) (a b : BitVec n) (c : Bool) :
    (subN a b c).2.overflow = true ↔ a.msb ≠ b.msb ∧ (subN a b c).1.msb ≠ a.msb := by
  obtain ⟨hresult, hoverflow⟩ := subN_eq_addN_complement hn a b c
  rw [hoverflow, hresult, addN_overflow_iff_signs hn, msb_complement hn, Bool.eq_not]

/-- Settles O38: the flags by definition, the signed overflow by the addition of the complement. -/
theorem subResultAndFlags : Obligations.SubResultAndFlags := by
  intro n a b c hn
  refine ⟨subN_toNat a b c, by simp, by simp, subN_negative a b c, ?_, subN_overflow_iff_signs hn a b c⟩
  rw [subN_overflow, outOfRange_eq_true_iff]

end Sys2Proof.Machine
end

section
/-! PROOFS. 40_regval_alu.md, the divides: where `div_N` and `idiv_N` are absent (R123, R126), that they undo the
multiplies (R127), and the instructions that raise where they are absent (43_arith.md R181, R182). -/

namespace Sys2Proof.Machine

/-! ### Divide undoes multiply -/

/-- Merging the two halves of a word gives it back (R12). -/
theorem mergeHalves_splitHalves {n : Nat} (w : BitVec (2 * n)) :
    mergeHalves (splitHalves w).1 (splitHalves w).2 = w := by
  have hw : w.toNat < 2 ^ n * 2 ^ n := by rw [← pow_add, ← two_mul]; exact w.isLt
  have hhigh : w.toNat / 2 ^ n < 2 ^ n := Nat.div_lt_of_lt_mul hw
  apply BitVec.eq_of_toNat_eq
  simp only [mergeHalves, splitHalves, BitVec.toNat_ofNat, BitVec.extractLsb'_toNat, Nat.shiftRight_eq_div_pow,
    pow_zero, Nat.div_one, Nat.mod_eq_of_lt hhigh, Nat.div_add_mod', Nat.mod_eq_of_lt w.isLt]

/-- `div_N` where the divisor is not zero (R122). -/
theorem divN_of_ne_zero {n : Nat} (lo hi : BitVec n) {rhs : BitVec n} (h : rhs ≠ 0) :
    ∃ f, divN lo hi rhs = some (BitVec.ofNat n ((mergeHalves lo hi).toNat / rhs.toNat),
      BitVec.ofNat n ((mergeHalves lo hi).toNat % rhs.toNat), f) :=
  ⟨_, if_neg h⟩

/-- `idiv_N` outside its two absent cases (R124). -/
theorem idivN_of_dividend_ne_min {n : Nat} (lo hi : BitVec n) {rhs : BitVec n} (h : rhs ≠ 0)
    (hmin : (mergeHalves lo hi).toInt ≠ -(2 : Int) ^ (2 * n - 1)) :
    ∃ f, idivN lo hi rhs = some (BitVec.ofInt n ((mergeHalves lo hi).toInt.tdiv rhs.toInt),
      BitVec.ofInt n ((mergeHalves lo hi).toInt.tmod rhs.toInt), f) :=
  ⟨_, (if_neg h).trans (if_neg fun hboth => hmin hboth.1)⟩

theorem mergeHalves_mulN_toNat {n : Nat} (a b : BitVec n) :
    (mergeHalves (mulN a b).1 (mulN a b).2.1).toNat = a.toNat * b.toNat := by
  have hlt : a.toNat * b.toNat < 2 ^ (2 * n) := by
    rw [two_mul, pow_add]
    exact Nat.mul_lt_mul'' a.isLt b.isLt
  simp only [mulN, mergeHalves_splitHalves, BitVec.toNat_ofNat, Nat.mod_eq_of_lt hlt]

/-- A signed product stays a factor two inside the double-width range, so it is not the smallest number (R126). -/
theorem mergeHalves_imulN_toInt {n : Nat} (hn : 0 < n) (a b : BitVec n) :
    (mergeHalves (imulN a b).1 (imulN a b).2.1).toInt = a.toInt * b.toInt ∧
      a.toInt * b.toInt ≠ -(2 : Int) ^ (2 * n - 1) := by
  have hpow : (2 : Int) ^ (2 * n - 1) = 2 * 2 ^ (n * 2 - 2) := by
    rw [← pow_succ']
    congr 1
    omega
  have hpos : (0 : Int) < 2 ^ (n * 2 - 2) := by positivity
  have hlo := BitVec.le_toInt_mul_toInt (x := a) (y := b)
  have hhi := BitVec.toInt_mul_toInt_le (x := a) (y := b)
  refine ⟨?_, by omega⟩
  simp only [imulN, mergeHalves_splitHalves, signedVal]
  exact BitVec.toInt_ofInt_eq_self (by omega) (by omega) (by omega)

/-- Settles O39: the merged product is the exact one, which the divisor divides without remainder. -/
theorem divideInvertsMultiply : Obligations.DivideInvertsMultiply := by
  intro n a b hb
  constructor
  · obtain ⟨f, hf⟩ := divN_of_ne_zero (mulN a b).1 (mulN a b).2.1 hb
    have hpos : 0 < b.toNat := Nat.pos_of_ne_zero fun h => hb (BitVec.eq_of_toNat_eq h)
    rw [mergeHalves_mulN_toNat, Nat.mul_div_cancel _ hpos, Nat.mul_mod_left, BitVec.ofNat_toNat,
      BitVec.setWidth_eq] at hf
    exact ⟨f, hf⟩
  · have hn : 0 < n := Nat.pos_of_ne_zero fun h => hb (by subst h; exact BitVec.of_length_zero)
    obtain ⟨hproduct, hmin⟩ := mergeHalves_imulN_toInt hn a b
    obtain ⟨f, hf⟩ := idivN_of_dividend_ne_min (imulN a b).1 (imulN a b).2.1 hb (hproduct ▸ hmin)
    have hne : b.toInt ≠ 0 := fun h => hb (BitVec.eq_of_toInt_eq (by simpa using h))
    rw [hproduct, Int.mul_tdiv_cancel _ hne, Int.mul_tmod_left, BitVec.ofInt_toInt] at hf
    exact ⟨f, hf⟩

/-! ### Where a divide is absent -/

theorem divN_zero_divisor {n : Nat} (lo hi : BitVec n) : divN lo hi 0 = none := if_pos rfl

theorem idivN_zero_divisor {n : Nat} (lo hi : BitVec n) : idivN lo hi 0 = none := by
  rw [idivN, if_pos rfl]

/-- `-2^(2N-1)` by `-1` has no quotient (R126). -/
theorem idivN_min_by_neg_one {n : Nat} {lo hi rhs : BitVec n} (hlo : lo.toNat = 0) (hhi : hi.toNat = 2 ^ (n - 1))
    (hrhs : rhs.toNat = 2 ^ n - 1) : idivN lo hi rhs = none := by
  have hn : 0 < n := by
    refine Nat.pos_of_ne_zero fun h => ?_
    have hlt := hi.isLt
    simp [hhi, h] at hlt
  have hexp : n - 1 + n = 2 * n - 1 := by omega
  have hdividend : mergeHalves lo hi = BitVec.intMin (2 * n) :=
    BitVec.eq_of_toNat_eq (by rw [mergeHalves, hlo, hhi, add_zero, ← pow_add, hexp, BitVec.toNat_ofNat,
      BitVec.toNat_intMin])
  have hdivisor : rhs = BitVec.allOnes n := BitVec.eq_of_toNat_eq (by rw [hrhs, BitVec.toNat_allOnes])
  have hmin : signedVal (mergeHalves lo hi) = -(2 : Int) ^ (2 * n - 1) := by
    rw [hdividend]
    exact BitVec.toInt_intMin_of_pos (by omega)
  have hneg : signedVal rhs = -1 := by
    rw [hdivisor]
    exact BitVec.toInt_allOnes.trans (if_pos hn)
  simp only [idivN, hmin, hneg, and_self, if_true, ite_self]

/-- Zero by any other number is zero without remainder (R129). -/
theorem idivN_zero_dividend {n : Nat} {d : BitVec n} (hd : d ≠ 0) : ∃ f, idivN 0 0 d = some (0, 0, f) := by
  have hzero : (mergeHalves (0 : BitVec n) 0).toInt = 0 := by simp [mergeHalves]
  have hmin : (0 : Int) ≠ -(2 : Int) ^ (2 * n - 1) := (neg_ne_zero.2 (by positivity)).symm
  obtain ⟨f, hf⟩ := idivN_of_dividend_ne_min 0 0 hd (hzero ▸ hmin)
  rw [hzero, Int.zero_tdiv, Int.zero_tmod] at hf
  exact ⟨f, hf⟩

/-- Settles O40: the four signs by evaluation, the zero dividend and the zero divisor for every value. -/
theorem signedDivisionSignTable : Obligations.SignedDivisionSignTable := by
  refine ⟨by decide, by decide, by decide, by decide, fun d hd => ?_, idivN_zero_divisor⟩
  obtain ⟨f, hf⟩ := idivN_zero_dividend hd
  exact congrArg (Option.map _) hf

/-! ### The divides raise where they are absent -/

/-- A divide without a result raises, whatever the widths and the mode (R123, R183). -/
theorem arith3Div_of_eq_none {d : RegVal → RegVal → RegVal → Option (RegVal × RegVal × FlagUpdate)} {src : Operand}
    {s : State} {lo hi : Byte} {x y z : RegVal} (hx : readOperand src s = .ok x) (hy : readReg lo s = .ok y)
    (hz : readReg hi s = .ok z) (hd : d y z x = none) :
    arith3Div d src (.reg lo) (.reg hi) s = .error .invalidOperation := by
  rw [arith3Div, bind_of_ok hx, bind_of_ok hy, bind_of_ok hz, hd]
  exact ite_self _

/-- A divide on tagged values is absent where the function is, at the width of the divisor (R110). -/
theorem liftDiv_eq_none {f : {n : Nat} → BitVec n → BitVec n → BitVec n → Option (BitVec n × BitVec n × FlagUpdate)}
    {lo hi rhs : RegVal}
    (hf : ∀ x y z : BitVec rhs.width.bits, x.toNat = lo.toNat → y.toNat = hi.toNat → z.toNat = rhs.toNat →
      f x y z = none) : liftDiv f lo hi rhs = none := by
  unfold liftDiv
  split
  · exact Option.map_eq_none_iff.2 (hf _ _ _ rfl rfl rfl)
  · exact Option.map_eq_none_iff.2 (hf _ _ _ rfl rfl rfl)
  · exact Option.map_eq_none_iff.2 (hf _ _ _ rfl rfl rfl)
  · rfl

theorem divVal_zero_divisor (lo hi : RegVal) {rhs : RegVal} (h : rhs.toNat = 0) : divVal lo hi rhs = none :=
  liftDiv_eq_none fun x y z _ _ hz => by
    obtain rfl : z = 0 := BitVec.eq_of_toNat_eq (hz.trans h)
    exact divN_zero_divisor x y

theorem idivVal_zero_divisor (lo hi : RegVal) {rhs : RegVal} (h : rhs.toNat = 0) : idivVal lo hi rhs = none :=
  liftDiv_eq_none fun x y z _ _ hz => by
    obtain rfl : z = 0 := BitVec.eq_of_toNat_eq (hz.trans h)
    exact idivN_zero_divisor x y

/-- The quotient that does not exist, at the width of the divisor (R126). -/
theorem idivVal_min_by_neg_one {lo hi rhs : RegVal} (hlo : lo.toNat = 0) (hhi : hi.toNat = 2 ^ (rhs.width.bits - 1))
    (hrhs : rhs.toNat = 2 ^ rhs.width.bits - 1) : idivVal lo hi rhs = none :=
  liftDiv_eq_none fun _ _ _ hx hy hz =>
    idivN_min_by_neg_one (hx.trans hlo) (hy.trans hhi) (hz.trans hrhs)

/-- Settles O47: both functions are absent, and a divide without a result raises. -/
theorem divisionByZeroRaises : Obligations.DivisionByZeroRaises := by
  refine ⟨fun n lo hi => ⟨divN_zero_divisor lo hi, idivN_zero_divisor lo hi⟩, ?_⟩
  intro s src lo hi vl vh b hb hvl hvh hzero
  exact ⟨finish_error (arith3Div_of_eq_none hb hvl hvh (divVal_zero_divisor vl vh hzero)),
    finish_error (arith3Div_of_eq_none hb hvl hvh (idivVal_zero_divisor vl vh hzero))⟩

/-- Settles O48: `idiv` is absent at this dividend and divisor, and a divide without a result raises. -/
theorem idivOverflowRaises : Obligations.IdivOverflowRaises := by
  intro s src lo hi vl vh b hb hvl hvh _ _ hlo hhi hrhs
  exact finish_error (arith3Div_of_eq_none hb hvl hvh (idivVal_min_by_neg_one hlo hhi hrhs))

end Sys2Proof.Machine
end

section
/-! PROOFS. 41_fetch_decode.md, a cycle from its bytes: the fetch ends as the decoder says of the bytes it read. One
lemma runs the operand loop over the encoding of operand items (R142 to R145), one for each end of the loop adds the
last byte (R143, R146); a cycle then executes or takes trap entry (R147 to R151). -/

namespace Sys2Proof.Machine

/-! ### Several byte fetches -/

theorem fetchMany_eq_cons_iff {n : Nat} {s t : State} {b : Byte} {bytes : List Byte} :
    fetchMany n s = (b :: bytes, t) ↔
      ∃ m, n = m + 1 ∧ (fetch8 s).1 = b ∧ fetchMany m (fetch8 s).2 = (bytes, t) := by
  cases n <;> simp [fetchMany, Prod.ext_iff, and_assoc]

theorem fetchMany_eq_nil_iff {n : Nat} {s t : State} : fetchMany n s = ([], t) ↔ n = 0 ∧ s = t := by
  cases n <;> simp [fetchMany]

theorem fetchMany_eq_singleton {n : Nat} {s t : State} {b : Byte} (h : fetchMany n s = ([b], t)) :
    (fetch8 s).1 = b ∧ (fetch8 s).2 = t := by
  obtain ⟨m, -, hb, hrest⟩ := fetchMany_eq_cons_iff.1 h
  exact ⟨hb, (fetchMany_eq_nil_iff.1 hrest).2⟩

@[simp] theorem fetchMany_params (n : Nat) (s : State) : (fetchMany n s).2.params = s.params := by
  induction n generalizing s with
  | zero => rfl
  | succ n ih => exact ih (fetch8 s).2

/-! ### The operand loop over the bytes it reads -/

section
variable {n : Nat} {s t : State} {rest : List Byte}

/-- The loop takes one round over the bytes of a well-formed item, collects the item, and the bytes after it are still
to be fetched (R142, R144, R145). -/
theorem operandLoop_encodeOperand {x : Operand} (hx : x.wf = true)
    (h : fetchMany n s = (encodeOperand x ++ rest, t)) :
    ∃ m u, fetchMany m u = (rest, t) ∧
      ∀ fuel ops, operandLoop (fuel + 1) ops s = operandLoop fuel (x :: ops) u := by
  have himm8 : classify 0x70 = .imm8 := by decide
  have himm16 : classify 0x71 = .imm16 := by decide
  cases x with
  | imm8 v =>
    obtain ⟨_, -, htag, h⟩ := fetchMany_eq_cons_iff.1 h
    obtain ⟨m, -, hv, h⟩ := fetchMany_eq_cons_iff.1 h
    exact ⟨m, _, h, fun fuel ops => by simp only [operandLoop, htag, himm8, hv]⟩
  | imm16 v =>
    obtain ⟨_, -, htag, h⟩ := fetchMany_eq_cons_iff.1 h
    obtain ⟨_, -, hlo, h⟩ := fetchMany_eq_cons_iff.1 h
    obtain ⟨m, -, hhi, h⟩ := fetchMany_eq_cons_iff.1 h
    exact ⟨m, _, h, fun fuel ops => by simp only [operandLoop, htag, himm16, hlo, hhi, wordLE_parts]⟩
  | reg id =>
    obtain ⟨m, -, hid, h⟩ := fetchMany_eq_cons_iff.1 h
    exact ⟨m, _, h, fun fuel ops => by simp only [operandLoop, hid, classify_reg id hx]⟩

/-- The loop over the bytes of well-formed items: one unit of fuel for each, the last collected first. -/
theorem operandLoop_encodeOperands {xs : List Operand} (hxs : xs.all Operand.wf = true)
    (h : fetchMany n s = (xs.flatMap encodeOperand ++ rest, t)) :
    ∃ m u, fetchMany m u = (rest, t) ∧
      ∀ fuel ops, operandLoop (fuel + xs.length) ops s = operandLoop fuel (xs.reverse ++ ops) u := by
  induction xs generalizing n s with
  | nil => exact ⟨n, s, h, fun _ _ => rfl⟩
  | cons x xs ih =>
    obtain ⟨hx, hxs⟩ := Bool.and_eq_true_iff.1 hxs
    rw [List.flatMap_cons, List.append_assoc] at h
    obtain ⟨_, v, h, hitem⟩ := operandLoop_encodeOperand hx h
    obtain ⟨m, u, h, hitems⟩ := ih hxs h
    refine ⟨m, u, h, fun fuel ops => ?_⟩
    calc operandLoop (fuel + (x :: xs).length) ops s
        = operandLoop (fuel + xs.length) (x :: ops) v := hitem _ _
      _ = operandLoop fuel (xs.reverse ++ x :: ops) u := hitems _ _
      _ = operandLoop fuel ((x :: xs).reverse ++ ops) u := by simp

end

section
variable {n fuel : Nat} {s t : State} {xs : List Operand} {b : Byte}

/-- Where a single byte is left after the items and the fuel is not used up, one round of the loop is left, the one
that fetches the byte. -/
theorem operandLoop_last (hxs : xs.all Operand.wf = true) (hfuel : xs.length < fuel)
    (h : fetchMany n s = (xs.flatMap encodeOperand ++ [b], t)) :
    ∃ k u, (fetch8 u).1 = b ∧ (fetch8 u).2 = t ∧ operandLoop fuel [] s = operandLoop (k + 1) xs.reverse u := by
  obtain ⟨_, u, hlast, hloop⟩ := operandLoop_encodeOperands hxs h
  obtain ⟨hb, ht⟩ := fetchMany_eq_singleton hlast
  obtain ⟨k, rfl⟩ : ∃ k, fuel = k + 1 + xs.length := ⟨fuel - xs.length - 1, by omega⟩
  exact ⟨k, u, hb, ht, by simpa using hloop (k + 1) []⟩

/-- Items before a terminator: the loop gives the items, with `PC` back at the terminator (R143). -/
theorem operandLoop_of_fetched_terminator (hxs : xs.all Operand.wf = true) (hfuel : xs.length < fuel)
    (hb : b.msb = true) (h : fetchMany n s = (xs.flatMap encodeOperand ++ [b], t)) :
    operandLoop fuel [] s = .done xs (t.withPc (t.regs.pc - 1)) := by
  obtain ⟨k, u, rfl, rfl, hloop⟩ := operandLoop_last hxs hfuel h
  simp only [hloop, operandLoop, classify_terminator _ hb, List.reverse_reverse]

/-- Items before a byte that is none: the loop fails in the state after the fetch of that byte (R146). -/
theorem operandLoop_of_fetched_invalid (hxs : xs.all Operand.wf = true) (hfuel : xs.length < fuel)
    (hb : classify b = .invalid) (h : fetchMany n s = (xs.flatMap encodeOperand ++ [b], t)) :
    operandLoop fuel [] s = .invalid t := by
  obtain ⟨k, u, rfl, rfl, hloop⟩ := operandLoop_last hxs hfuel h
  rw [hloop, operandLoop_of_invalid k _ u hb]

end

/-! ### The outcome of the fetch, by its bytes -/

section
variable {n : Nat} {s t : State} {op b : Byte} {ops : List Operand}

/-- An opcode, items and a terminator: what the fetch has at dispatch, on arguments that no byte fetch changes (R141 to
R143). -/
theorem operandLoop_of_fetched_instruction (hops : ops.all Operand.wf = true) (hfuel : ops.length < operandFuel)
    (hb : b.msb = true) (h : fetchMany n s = (op :: (ops.flatMap encodeOperand ++ [b]), t)) :
    (fetch8 s).1 = op ∧ operandLoop operandFuel [] (fetch8 s).2 = .done ops (t.withPc (t.regs.pc - 1)) ∧
      t.params = s.params := by
  have hparams : t.params = s.params := by simpa [h] using fetchMany_params n s
  obtain ⟨_, -, hop, h⟩ := fetchMany_eq_cons_iff.1 h
  exact ⟨hop, operandLoop_of_fetched_terminator hops hfuel hb h, hparams⟩

/-- An opcode, items and a terminator that dispatch to an instruction: it is fetched, with `PC` at the terminator (R148,
R151). -/
theorem fetchInstr_of_dispatch_ok {i : Instr} (hops : ops.all Operand.wf = true) (hfuel : ops.length < operandFuel)
    (hb : b.msb = true) (hi : dispatch s.params.opc op ops = .ok i)
    (h : fetchMany n s = (op :: (ops.flatMap encodeOperand ++ [b]), t)) :
    fetchInstr s = .instr i (t.withPc (t.regs.pc - 1)) := by
  obtain ⟨hop, hloop, hparams⟩ := operandLoop_of_fetched_instruction hops hfuel hb h
  simp only [fetchInstr, hloop, hop, withPc_params, hparams, hi]

/-- An opcode, items and a terminator that do not dispatch: the fetch raises, with `PC` at the terminator (R148). -/
theorem fetchInstr_of_dispatch_error {e : DecodeError} (hops : ops.all Operand.wf = true)
    (hfuel : ops.length < operandFuel) (hb : b.msb = true) (he : dispatch s.params.opc op ops = .error e)
    (h : fetchMany n s = (op :: (ops.flatMap encodeOperand ++ [b]), t)) :
    fetchInstr s = .raised (t.withPc (t.regs.pc - 1)) := by
  obtain ⟨hop, hloop, hparams⟩ := operandLoop_of_fetched_instruction hops hfuel hb h
  simp only [fetchInstr, hloop, hop, withPc_params, hparams, he]

/-- Items before a byte that is none: the fetch raises with `PC` past that byte, whatever the opcode (R146, R147). -/
theorem fetchInstr_of_fetched_invalid (hops : ops.all Operand.wf = true) (hfuel : ops.length < operandFuel)
    (hb : classify b = .invalid) (h : fetchMany n s = (op :: (ops.flatMap encodeOperand ++ [b]), t)) :
    fetchInstr s = .raised t := by
  obtain ⟨_, -, -, h⟩ := fetchMany_eq_cons_iff.1 h
  simp only [fetchInstr, operandLoop_of_fetched_invalid hops hfuel hb h]

end

/-! ### The cycle -/

theorem operands_length_lt_operandFuel (i : Instr) : i.operands.length < operandFuel := by
  cases i <;> simp [Instr.operands, operandFuel]

/-- Settles O5: bytes that decode are an opcode, the instruction's operand items and the terminator; over these the
fetch gives the instruction, which answers a next state. -/
theorem stepRunsDecodedInstruction : Obligations.StepRunsDecodedInstruction := by
  intro n s t bytes i term hfetch hdecode
  obtain ⟨⟨op, rfl, hop⟩, hwf, _, _, hterm, hmsb⟩ := decode_eq_ok_iff.1 hdecode
  cases hterm
  have hinstr := fetchInstr_of_dispatch_ok (s := beginCycle s) hwf (operands_length_lt_operandFuel i) hmsb
    (dispatch_eq_ok_iff.2 ⟨hop, rfl⟩) hfetch
  obtain ⟨u, hu⟩ := exec_answers i (t.withPc (t.regs.pc - 1))
  exact ⟨u, hu, step_of_instr s _ u i hinstr hu⟩

/-- On plain memory, bytes that stand from `PC` on in the window are the bytes fetched, and only `PC` changes
(R140). -/
theorem fetchMany_of_plain_bytes {s : State} {bytes : List Byte} (hplain : s.bus.plain = true)
    (hbytes : ∀ k b, bytes[k]? = some b →
      (s.bus.read8 (flat s.params.segShift (s.regs.pc + BitVec.ofNat 32 k) s.regs.codeOfs)).1 = b) :
    fetchMany bytes.length s = (bytes, s.withPc (s.regs.pc + BitVec.ofNat 32 bytes.length)) := by
  rw [fetchMany_plain _ _ hplain]
  refine Prod.ext (List.ext_getElem (by simp) fun k _ hk => ?_) rfl
  rw [List.getElem_map, List.getElem_range]
  exact hbytes k _ (List.getElem?_eq_getElem hk)

@[simp] theorem withPc_withPc (s : State) (p q : Word32) : (s.withPc p).withPc q = s.withPc q := rfl

/-- One byte past an instruction and one byte back (R143). -/
theorem pc_after_terminator (pc : Word32) (k : Nat) : pc + BitVec.ofNat 32 (k + 1) - 1 = pc + BitVec.ofNat 32 k := by
  rw [BitVec.ofNat_add, ← BitVec.add_assoc]
  exact BitVec.add_sub_cancel _ _

/-- Settles O6: the bytes that stand at `PC` are fetched and decode back to the instruction, so the step runs it; the
terminator's fetch is taken back. -/
theorem plainMemoryStepRunsEncodedInstruction : Obligations.PlainMemoryStepRunsEncodedInstruction := by
  intro s i term hplain hopc hwf hmsb hbytes
  have hfetch := fetchMany_of_plain_bytes (s := beginCycle s) hplain hbytes
  have hdecode := decodeInvertsEncode s.params.opc i term [] hopc hwf hmsb
  obtain ⟨u, hu, hstep⟩ := stepRunsDecodedInstruction _ s _ _ i term hfetch hdecode
  rw [withPc_regs, withPc_withPc, List.length_append, List.length_singleton, pc_after_terminator] at hu
  exact ⟨u, hu, hstep⟩

/-- Operands end in an error at a byte that is no item, after any well-formed items (R94, R102). -/
theorem decodeOperands_items_invalid {xs : List Operand} {b : Byte} (hxs : xs.all Operand.wf = true)
    (hb : classify b = .invalid) (rest : List Byte) :
    decodeOperands (xs.flatMap encodeOperand ++ b :: rest) = .error (.invalidRegister b) := by
  induction xs with
  | nil => exact decodeOperands_invalid b rest hb
  | cons x xs ih =>
    obtain ⟨hx, hxs⟩ := Bool.and_eq_true_iff.1 hxs
    rw [List.flatMap_cons, List.append_assoc, decodeOperands_encodeOperand_append hx, ih hxs]
    rfl

/-- Settles O7: over well-formed items before the invalid id both the decoder and the fetch end at that byte. -/
theorem decodeFailureTakesTrapEntry : Obligations.DecodeFailureTakesTrapEntry := by
  intro n s t op b ops hops hfuel hb hfetch
  refine ⟨?_, step_of_raised s t (fetchInstr_of_fetched_invalid hops hfuel hb hfetch)⟩
  simp only [decode, decodeOperands_items_invalid hops hb]

/-- Settles O8: over well-formed items before a terminator both the decoder and the fetch end in the dispatch, which
fails in one of two ways. -/
theorem dispatchFailureTakesTrapEntry : Obligations.DispatchFailureTakesTrapEntry := by
  intro n s t op term ops e hops hfuel hmsb he hfetch
  refine ⟨dispatch_error _ op ops e he, ?_,
    step_of_raised s _ (fetchInstr_of_dispatch_error hops hfuel hmsb he hfetch)⟩
  have hitems := decodeOperands_eq_ok_iff.2 ⟨rfl, hops, term, [], rfl, hmsb⟩
  simp only [decode, hitems, he]

end Sys2Proof.Machine
end

section
/-! PROOFS. 42_mov.md: the conversion table (R164), what the moves write (R160, R161), what test mode leaves of them
(R162), and their frame (R163). Both moves are `mov_common` (R166), so each fact is proved of it once, for either
extension. -/

namespace Sys2Proof.Machine

/-! ### The width conversion -/

/-- Truncation keeps the low bits (R164). -/
theorem trunc_eq_extractLsb' {n m : Nat} (h : m ≤ n) (v : BitVec n) : trunc m v = v.extractLsb' 0 m :=
  BitVec.setWidth_eq_extractLsb' h

/-- Settles O32: an extension is a row of the definition; a narrower width takes the low bits. -/
theorem conversionTable : Obligations.ConversionTable := by
  intro sx b h d
  have word_to_byte : convVal (.word h) .w8 sx = .byte (h.extractLsb' 0 8) :=
    congrArg RegVal.byte (trunc_eq_extractLsb' (by decide) h)
  have dword_to_byte : convVal (.dword d) .w8 sx = .byte (d.extractLsb' 0 8) :=
    congrArg RegVal.byte (trunc_eq_extractLsb' (by decide) d)
  have dword_to_word : convVal (.dword d) .w16 sx = .word (d.extractLsb' 0 16) :=
    congrArg RegVal.word (trunc_eq_extractLsb' (by decide) d)
  exact ⟨rfl, rfl, rfl, rfl, rfl, word_to_byte, rfl, rfl, rfl, dword_to_byte, dword_to_word, rfl⟩

/-! ### The two moves as one operation -/

theorem exec_mov (src dest : Operand) (s : State) : exec (.mov src dest) s = finish s (movCommon src dest false s) :=
  rfl

theorem exec_movsx (src dest : Operand) (s : State) : exec (.movsx src dest) s = finish s (movCommon src dest true s) :=
  rfl

/-- An instruction that raises nothing ends in the state it commits (R196). -/
theorem finish_ok {s t : State} {r : Except ExceptionKind State} (h : r = .ok t) : finish s r = .next t := by
  rw [h]
  rfl

/-- A move touches the bits of its destination view and no flag (R163). -/
theorem touches_move {i : Instr} {src dest : Operand} (hi : i = .mov src dest ∨ i = .movsx src dest) (p : Params) :
    touches p i = operandTouches p dest := by
  funext r n
  rcases hi with rfl | rfl <;> simp [touches, Instr.destinations, Instr.operands, mergesFlags]

/-! ### The frame -/

/-- The frame of every instruction in the terms of the statements: trap entry, or a change of no more than the bits it
touches. -/
theorem ExecEffect.trap_or_sameExcept {i : Instr} {s t : State} (h : ExecEffect i s t) :
    (∃ k, t = trapEntry k s) ∨ sameExcept (touches s.params i) s t := by
  refine h.trap_or_frame.imp_right fun ⟨ht, hbits⟩ => ?_
  rw [ht]
  exact ⟨rfl, rfl, rfl, rfl, fun r n hn => hbits r n fun hw => Bool.eq_false_iff.1 hn (touches_of_mayWrite hw)⟩

/-- Settles O35: the frame of every instruction, where a move touches its destination view alone. -/
theorem moveFrame : Obligations.MoveFrame := by
  intro src dest s t i hi h
  have he := exec_effect i s t h
  refine ⟨fun a => by rw [he.bus], ?_⟩
  have hframe := he.trap_or_sameExcept
  rwa [touches_move hi] at hframe

/-! ### Outside test mode: the converted value is written -/

section
variable {s : State} {src : Operand} {id : Byte} {w : View} {x : RegVal}

/-- A permitted write of the view's width completes: the view reads as the value, and nothing outside it changes
(10_state.md R37, R38). -/
theorem writeReg_completes (hw : s.view id = some w) (hc : s.canAccess id .write = true)
    (hx : x.width = w.span.width) :
    ∃ t, writeReg id x s = .ok t ∧ t.regs.readView w = x ∧ sameExcept (operandTouches s.params (.reg id)) s t := by
  obtain ⟨g, hg⟩ := writeView_isSome s.regs w x hx
  have hwrite : writeReg id x s = .ok { s with regs := g } :=
    (writeReg_permitted id x s hc).trans (storeReg_of id x s w g hw hg)
  obtain ⟨w', hw', hread, hkeep⟩ := writesKeepUntouchedBytes s _ id x hwrite
  obtain rfl : w = w' := Option.some.inj (hw.symm.trans hw')
  have hat : viewAt s.params.regOrder id = some w := hw
  refine ⟨_, hwrite, hread, rfl, rfl, rfl, rfl, fun r n hn => hkeep r n ?_⟩
  simpa [operandTouches, hat] using hn

/-- Outside test mode a move is the write of its converted source (R166). -/
theorem movCommon_eq_writeReg (ht : s.testMode = false) (hx : readOperand src s = .ok x) (hw : s.view id = some w)
    (sx : Bool) : movCommon src (.reg id) sx s = writeReg id (convVal x w.span.width sx) s := by
  rw [movCommon, bind_of_ok hx]
  simp [viewWidth_eq s, hw, ht]

/-- A move with a readable source and a permitted write completes, with the converted value and its frame. -/
theorem finish_movCommon_completes (ht : s.testMode = false) (hx : readOperand src s = .ok x)
    (hw : s.view id = some w) (hc : s.canAccess id .write = true) (sx : Bool) :
    ∃ t, finish s (movCommon src (.reg id) sx s) = .next t ∧ t.regs.readView w = convVal x w.span.width sx ∧
      sameExcept (operandTouches s.params (.reg id)) s t := by
  obtain ⟨t, hwrite, hread, hkeep⟩ := writeReg_completes hw hc (convVal_width x w.span.width sx)
  exact ⟨t, finish_ok ((movCommon_eq_writeReg ht hx hw sx).trans hwrite), hread, hkeep⟩

end

/-- Settles O33: both moves write the converted source, and touch their destination view alone. -/
theorem movesWriteTheConvertedValue : Obligations.MovesWriteTheConvertedValue := by
  intro s src id w x ht hx hw hc
  rw [touches_move (.inl rfl), touches_move (.inr rfl), exec_mov, exec_movsx]
  exact ⟨finish_movCommon_completes ht hx hw hc false, finish_movCommon_completes ht hx hw hc true⟩

/-! ### In test mode: the checks are made and nothing is written -/

/-- In test mode a move with a readable source to a valid id commits its start state (R162). -/
theorem movCommon_testMode {s : State} {src : Operand} {id : Byte} {x : RegVal} (ht : s.testMode = true)
    (hr : (resolve id).isSome = true) (hx : readOperand src s = .ok x) (sx : Bool) :
    movCommon src (.reg id) sx s = .ok s := by
  obtain ⟨sel, hsel⟩ := Option.isSome_iff_exists.1 hr
  rw [movCommon, bind_of_ok hx]
  simp [viewWidth, hsel, ht]

/-- A move to an immediate raises before it reads its source (R166). -/
theorem movCommon_immediate {dest : Operand} (hd : ∀ id, dest ≠ .reg id) (src : Operand) (sx : Bool) (s : State) :
    movCommon src dest sx s = .error .invalidOperation := by
  cases dest with
  | imm8 v => rfl
  | imm16 v => rfl
  | reg id => exact absurd rfl (hd id)

/-- Settles O34: the state as it was, the source's exception, or the immediate destination's, in either extension. -/
theorem testModeSuppressesMoves : Obligations.TestModeSuppressesMoves := by
  intro s src dest ht
  rw [exec_mov, exec_movsx]
  refine ⟨?_, ?_, fun hd => ?_⟩
  · rintro id x rfl hr hx
    exact ⟨finish_ok (movCommon_testMode ht hr hx false), finish_ok (movCommon_testMode ht hr hx true)⟩
  · rintro id k rfl hx
    exact ⟨finish_error (movCommon_source_error hx id false), finish_error (movCommon_source_error hx id true)⟩
  · exact ⟨finish_error (movCommon_immediate hd src false s), finish_error (movCommon_immediate hd src true s)⟩

end Sys2Proof.Machine
end

section
/-! PROOFS. 40_regval_alu.md, results in numbers: what the six ALU functions answer (R114 to R126) as the unsigned and
signed numbers of their results, and the same functions on tagged values (R110). A tagged value is a bit vector at its
width, so each fact is proved once, for every width. -/

namespace Sys2Proof.Machine

/-! ### The flags read from a result -/

theorem eq_zero_iff_toNat {n : Nat} (v : BitVec n) : v = 0#n ↔ v.toNat = 0 := by
  rw [← BitVec.toNat_inj, BitVec.toNat_ofNat, Nat.zero_mod]

theorem msb_iff_toInt_neg {n : Nat} (v : BitVec n) : v.msb = true ↔ v.toInt < 0 := by
  rw [BitVec.msb_eq_toInt, decide_eq_true_eq]

/-- An exact signed result is in range exactly where its low bits read as the result (R114, R115). -/
theorem outOfRange_eq_false_iff_toInt {n : Nat} (hn : 0 < n) (x : Int) :
    outOfRange n x = false ↔ (BitVec.ofInt n x).toInt = x := by
  rw [← Bool.not_eq_true, outOfRange_eq_true_iff, not_not]
  constructor
  · rintro ⟨hlo, hhi⟩
    exact BitVec.toInt_ofInt_eq_self hn hlo (by omega)
  · intro h
    have hlo := (BitVec.ofInt n x).le_toInt
    have hhi := (BitVec.ofInt n x).toInt_lt
    omega

/-- The result of `sub_N` is the low bits of the signed difference as of the unsigned one (R115). -/
theorem subN_eq_ofInt {n : Nat} (hn : 0 < n) (a b : BitVec n) (c : Bool) :
    (subN a b c).1 = BitVec.ofInt n (a.toInt - b.toInt - c.toNat) := by
  rw [(subN_eq_addN_complement hn a b c).1, addN_eq_ofInt, signed_sub_eq_add_complement hn]

/-! ### The two halves of a double-width number -/

/-- Two halves merge without loss (R12). -/
theorem mergeHalves_toNat {n : Nat} (lo hi : BitVec n) :
    (mergeHalves lo hi).toNat = hi.toNat * 2 ^ n + lo.toNat := by
  have hlt : hi.toNat * 2 ^ n + lo.toNat < 2 ^ (2 * n) := by
    calc hi.toNat * 2 ^ n + lo.toNat < hi.toNat * 2 ^ n + 2 ^ n := Nat.add_lt_add_left lo.isLt _
      _ = (hi.toNat + 1) * 2 ^ n := (Nat.succ_mul _ _).symm
      _ ≤ 2 ^ n * 2 ^ n := Nat.mul_le_mul_right _ hi.isLt
      _ = 2 ^ (2 * n) := by rw [← pow_add, two_mul]
  rw [mergeHalves, BitVec.toNat_ofNat, Nat.mod_eq_of_lt hlt]

theorem toInt_cast {n m : Nat} (h : n = m) (v : BitVec n) : (v.cast h).toInt = v.toInt := by
  subst h
  rfl

/-- The sign of a merge is that of its high half (R12, R124). -/
theorem mergeHalves_toInt {n : Nat} (lo hi : BitVec n) :
    (mergeHalves lo hi).toInt = hi.toInt * 2 ^ n + lo.toNat := by
  have happend : mergeHalves lo hi = (hi ++ lo).cast (two_mul n).symm := by
    refine BitVec.eq_of_toNat_eq ?_
    rw [mergeHalves_toNat, BitVec.toNat_cast, BitVec.toNat_append, ← Nat.shiftLeft_add_eq_or_of_lt lo.isLt,
      Nat.shiftLeft_eq]
  rw [happend, toInt_cast, BitVec.toInt_append, mul_comm]
  split
  · next h =>
    obtain rfl := eq_of_beq h
    simp [BitVec.of_length_zero]
  · rfl

/-! ### Products -/

/-- The halves of the unsigned product make its low `2N` bits (R118). -/
theorem mulN_halves {n : Nat} (a b : BitVec n) :
    (((mulN a b).2.1.toNat * 2 ^ n + (mulN a b).1.toNat : Nat) : Int) = (a.toNat : Int) * b.toNat % 2 ^ (2 * n) := by
  rw [← mergeHalves_toNat, mulN, mergeHalves_splitHalves, BitVec.toNat_ofNat]
  push_cast
  rfl

/-- The halves of the signed product make its low `2N` bits (R119). -/
theorem imulN_halves {n : Nat} (a b : BitVec n) :
    (((imulN a b).2.1.toNat * 2 ^ n + (imulN a b).1.toNat : Nat) : Int) = a.toInt * b.toInt % 2 ^ (2 * n) := by
  rw [← mergeHalves_toNat, imulN, mergeHalves_splitHalves, BitVec.toNat_ofInt,
    Int.toNat_of_nonneg (Int.emod_nonneg _ (by positivity))]
  push_cast
  rfl

/-! ### Quotients -/

/-- `div_N` by another divisor than zero: the quotient is cut to the width, the remainder fits (R122, R125). -/
theorem divN_result {n : Nat} (lo hi : BitVec n) {rhs : BitVec n} (h : rhs.toNat ≠ 0) :
    ∃ q r, divN lo hi rhs = some (q, r, divFlags q r) ∧
      q.toNat = (hi.toNat * 2 ^ n + lo.toNat) / rhs.toNat % 2 ^ n ∧
      r.toNat = (hi.toNat * 2 ^ n + lo.toNat) % rhs.toNat := by
  have hrem : (mergeHalves lo hi).toNat % rhs.toNat < 2 ^ n := (Nat.mod_lt _ (Nat.pos_of_ne_zero h)).trans rhs.isLt
  refine ⟨_, _, if_neg (mt (eq_zero_iff_toNat rhs).1 h), ?_, ?_⟩
  · rw [BitVec.toNat_ofNat, mergeHalves_toNat]
  · rw [BitVec.toNat_ofNat, Nat.mod_eq_of_lt hrem, mergeHalves_toNat]

/-- A signed remainder is nearer to zero than the divisor, so it fits the divisor's width (R124). -/
theorem tmod_toInt_fits {n : Nat} (hn : 0 < n) (d : Int) {rhs : BitVec n} (h : rhs.toInt ≠ 0) :
    (BitVec.ofInt n (d.tmod rhs.toInt)).toInt = d.tmod rhs.toInt := by
  have hlt : (d.tmod rhs.toInt).natAbs < rhs.toInt.natAbs := by
    rw [Int.natAbs_tmod]
    exact Nat.mod_lt _ (Int.natAbs_pos.2 h)
  have hlo := rhs.le_toInt
  have hhi := rhs.toInt_lt
  exact BitVec.toInt_ofInt_eq_self hn (by omega) (by omega)

/-- `idiv_N` outside its two absent cases: the quotient is rounded toward zero and cut to the width, the remainder is
exact (R124 to R126). -/
theorem idivN_result {n : Nat} (hn : 0 < n) (lo hi : BitVec n) {rhs : BitVec n} {d : Int} (h : rhs.toNat ≠ 0)
    (hd : d = hi.toInt * 2 ^ n + lo.toNat) (hmin : ¬(d = -2 ^ (2 * n - 1) ∧ rhs.toInt = -1)) :
    ∃ q r, idivN lo hi rhs = some (q, r, divFlags q r) ∧
      (q.toNat : Int) = d.tdiv rhs.toInt % 2 ^ n ∧ r.toInt = d.tmod rhs.toInt := by
  have hne : rhs ≠ 0 := mt (eq_zero_iff_toNat rhs).1 h
  have hdividend : (mergeHalves lo hi).toInt = d := (mergeHalves_toInt lo hi).trans hd.symm
  refine ⟨BitVec.ofInt n (d.tdiv rhs.toInt), BitVec.ofInt n (d.tmod rhs.toInt), ?_, ?_,
    tmod_toInt_fits hn d fun hz => hne (BitVec.eq_of_toInt_eq (by simpa using hz))⟩
  · simp only [idivN, signedVal, hdividend, if_neg hne, if_neg hmin]
  · rw [BitVec.toNat_ofInt, Int.toNat_of_nonneg (Int.emod_nonneg _ (by positivity))]
    push_cast
    rfl

/-! ### Tagged values are bit vectors at a width -/

/-- The value `(N, v)` (R11). -/
def tagged : (m : Width) → BitVec m.bits → RegVal
  | .w8, v => .byte v
  | .w16, v => .word v
  | .w32, v => .dword v

@[simp] theorem tagged_width (m : Width) (v : BitVec m.bits) : (tagged m v).width = m := by cases m <;> rfl
@[simp] theorem tagged_toNat (m : Width) (v : BitVec m.bits) : (tagged m v).toNat = v.toNat := by cases m <;> rfl
@[simp] theorem signedOf_tagged (m : Width) (v : BitVec m.bits) : signedOf (tagged m v) = v.toInt := by cases m <;> rfl

theorem exists_eq_tagged {x : RegVal} {m : Width} (h : x.width = m) : ∃ v, x = tagged m v := by
  subst h
  cases x <;> exact ⟨_, rfl⟩

theorem exists_eq_tagged_pair {x y : RegVal} (h : x.width = y.width) :
    ∃ m v u, x = tagged m v ∧ y = tagged m u := by
  obtain ⟨v, hv⟩ := exists_eq_tagged h
  obtain ⟨u, hu⟩ := exists_eq_tagged (rfl : y.width = y.width)
  exact ⟨_, v, u, hv, hu⟩

theorem width_bits_pos (m : Width) : 0 < m.bits := by cases m <;> decide

section
variable (m : Width) (x y z : BitVec m.bits)

theorem lift2_tagged (f : {n : Nat} → BitVec n → BitVec n → Bool → BitVec n × FlagUpdate) (c : Bool) :
    lift2 f (tagged m x) (tagged m y) c = some (tagged m (f x y c).1, (f x y c).2) := by
  cases m <;> rfl

theorem liftMul_tagged (f : {n : Nat} → BitVec n → BitVec n → BitVec n × BitVec n × FlagUpdate) :
    liftMul f (tagged m x) (tagged m y) = some (tagged m (f x y).1, tagged m (f x y).2.1, (f x y).2.2) := by
  cases m <;> rfl

theorem liftDiv_tagged {f : {n : Nat} → BitVec n → BitVec n → BitVec n → Option (BitVec n × BitVec n × FlagUpdate)}
    {q r : BitVec m.bits} {fl : FlagUpdate} (h : f x y z = some (q, r, fl)) :
    liftDiv f (tagged m x) (tagged m y) (tagged m z) = some (tagged m q, tagged m r, fl) := by
  cases m <;> exact congrArg (Option.map _) h

end

end Sys2Proof.Machine
end

section
/-! PROOFS. 43_arith.md, what the eight arithmetic instructions commit (R173 to R183), and the computed jump (R185). A
commit is proved once for each operand form, of any ALU function; an instruction then adds what its function answers. -/

namespace Sys2Proof.Machine

/-! ### The instructions by their operand form -/

theorem exec_add (src dest : Operand) (s : State) :
    exec (.add src dest) s = finish s (arith2 addVal false src dest s) := rfl
theorem exec_adc (src dest : Operand) (s : State) :
    exec (.adc src dest) s = finish s (arith2 addVal s.carry src dest s) := rfl
theorem exec_sub (src dest : Operand) (s : State) :
    exec (.sub src dest) s = finish s (arith2 subVal false src dest s) := rfl
theorem exec_sbb (src dest : Operand) (s : State) :
    exec (.sbb src dest) s = finish s (arith2 subVal s.carry src dest s) := rfl
theorem exec_mul (src dlo dhi : Operand) (s : State) :
    exec (.mul src dlo dhi) s = finish s (arith3Mul mulVal src dlo dhi s) := rfl
theorem exec_imul (src dlo dhi : Operand) (s : State) :
    exec (.imul src dlo dhi) s = finish s (arith3Mul imulVal src dlo dhi s) := rfl
theorem exec_div (src dlo dhi : Operand) (s : State) :
    exec (.div src dlo dhi) s = finish s (arith3Div divVal src dlo dhi s) := rfl
theorem exec_idiv (src dlo dhi : Operand) (s : State) :
    exec (.idiv src dlo dhi) s = finish s (arith3Div idivVal src dlo dhi s) := rfl

/-! ### Commits outside test mode -/

theorem readReg_width {id : Byte} {s : State} {x : RegVal} {w : View} (hx : readReg id s = .ok x)
    (hw : s.view id = some w) : x.width = w.span.width := by
  obtain ⟨_, w', hw', rfl⟩ := readReg_ok id s x hx
  obtain rfl : w = w' := Option.some.inj (hw.symm.trans hw')
  exact readView_width _ _

section
variable {s : State} {src : Operand} {lo hi : Byte} {wl wh : View} {a b h vl vh : RegVal} {fl : FlagUpdate}

/-- A permitted write of the view's width commits, and the flags are merged after it (R173, R178). -/
theorem commit2_completes (ht : s.testMode = false) (hw : s.view lo = some wl) (hc : s.canAccess lo .write = true)
    (hv : vl.width = wl.span.width) (fl : FlagUpdate) :
    ∃ g, s.regs.writeView wl vl = some g ∧ commit2 lo vl fl s = .ok (mergeFlags fl { s with regs := g }) := by
  obtain ⟨g, hg⟩ := writeView_isSome s.regs wl vl hv
  have hwrite : writeReg lo vl s = .ok { s with regs := g } :=
    (writeReg_permitted lo vl s hc).trans (storeReg_of lo vl s wl g hw hg)
  refine ⟨g, hg, ?_⟩
  simp only [commit2, ht, Bool.false_eq_true, if_false]
  exact bind_of_ok hwrite _

/-- A two-operand instruction with readable operands, a result and a permitted write completes (R178). -/
theorem arith2_completes {f : RegVal → RegVal → Bool → Option (RegVal × FlagUpdate)} {cin : Bool}
    (ht : s.testMode = false) (hb : readOperand src s = .ok b) (ha : readReg lo s = .ok a) (hab : a.width = b.width)
    (hw : s.view lo = some wl) (hc : s.canAccess lo .write = true) (hf : f a b cin = some (vl, fl))
    (hv : vl.width = a.width) :
    ∃ g, s.regs.writeView wl vl = some g ∧
      finish s (arith2 f cin src (.reg lo) s) = .next (mergeFlags fl { s with regs := g }) := by
  obtain ⟨g, hg, hcommit⟩ := commit2_completes ht hw hc (hv.trans (readReg_width ha hw)) fl
  exact ⟨g, hg, finish_ok ((arith2_eq_commit2 hb ha hab hf).trans hcommit)⟩

/-- Two permitted writes of their views' widths commit, the low one first, and the flags are merged after them (R173,
R183). -/
theorem commit3_completes (ht : s.testMode = false) (hwl : s.view lo = some wl) (hwh : s.view hi = some wh)
    (hcl : s.canAccess lo .write = true) (hch : s.canAccess hi .write = true) (hvl : vl.width = wl.span.width)
    (hvh : vh.width = wh.span.width) (fl : FlagUpdate) :
    ∃ g g', s.regs.writeView wl vl = some g ∧ g.writeView wh vh = some g' ∧
      commit3 lo hi vl vh fl s = .ok (mergeFlags fl { s with regs := g' }) := by
  obtain ⟨g, hg⟩ := writeView_isSome s.regs wl vl hvl
  obtain ⟨g', hg'⟩ := writeView_isSome g wh vh hvh
  have hlow : storeReg lo vl s = .ok { s with regs := g } := storeReg_of lo vl s wl g hwl hg
  have hhigh : storeReg hi vh { s with regs := g } = .ok { s with regs := g' } := storeReg_of hi vh _ wh g' hwh hg'
  refine ⟨g, g', hg, hg', ?_⟩
  simp only [commit3, ht, hcl, hch, Bool.not_true, Bool.false_eq_true, if_false]
  exact (bind_of_ok hlow _).trans (bind_of_ok hhigh _)

/-- A multiply with readable operands, a product and permitted writes completes (R183). -/
theorem arith3Mul_completes {m : RegVal → RegVal → Option (RegVal × RegVal × FlagUpdate)} (ht : s.testMode = false)
    (hb : readOperand src s = .ok b) (ha : readReg lo s = .ok a) (hab : a.width = b.width)
    (hwl : s.view lo = some wl) (hwh : s.view hi = some wh) (hhi : wh.span.width = a.width)
    (hcl : s.canAccess lo .write = true) (hch : s.canAccess hi .write = true) (hm : m a b = some (vl, vh, fl))
    (hvl : vl.width = a.width) (hvh : vh.width = a.width) :
    ∃ g g', s.regs.writeView wl vl = some g ∧ g.writeView wh vh = some g' ∧
      finish s (arith3Mul m src (.reg lo) (.reg hi) s) = .next (mergeFlags fl { s with regs := g' }) := by
  obtain ⟨g, g', hg, hg', hcommit⟩ :=
    commit3_completes ht hwl hwh hcl hch (hvl.trans (readReg_width ha hwl)) (hvh.trans hhi.symm) fl
  have hview : viewWidth hi = some a.width := by rw [viewWidth_eq s, hwh, Option.map_some, hhi]
  exact ⟨g, g', hg, hg', finish_ok ((arith3Mul_eq_commit3 hb ha hab hview hm).trans hcommit)⟩

/-- A divide with readable operands, a quotient and permitted writes completes (R183). -/
theorem arith3Div_completes {d : RegVal → RegVal → RegVal → Option (RegVal × RegVal × FlagUpdate)}
    (ht : s.testMode = false) (hb : readOperand src s = .ok b) (ha : readReg lo s = .ok a) (hh : readReg hi s = .ok h)
    (hab : a.width = b.width) (hhb : h.width = b.width) (hwl : s.view lo = some wl) (hwh : s.view hi = some wh)
    (hcl : s.canAccess lo .write = true) (hch : s.canAccess hi .write = true) (hd : d a h b = some (vl, vh, fl))
    (hvl : vl.width = b.width) (hvh : vh.width = b.width) :
    ∃ g g', s.regs.writeView wl vl = some g ∧ g.writeView wh vh = some g' ∧
      finish s (arith3Div d src (.reg lo) (.reg hi) s) = .next (mergeFlags fl { s with regs := g' }) := by
  obtain ⟨g, g', hg, hg', hcommit⟩ := commit3_completes ht hwl hwh hcl hch
    ((hvl.trans hab.symm).trans (readReg_width ha hwl)) ((hvh.trans hhb.symm).trans (readReg_width hh hwh)) fl
  exact ⟨g, g', hg, hg', finish_ok ((arith3Div_eq_commit3 hb ha hh hab hhb hd).trans hcommit)⟩

end

/-! ### Addition and subtraction -/

/-- Settles O42: the commit of the two-operand form, with the sum and the flags of `add_N` at the operands' width. -/
theorem addAndAdcCommitTheSum : Obligations.AddAndAdcCommitTheSum := by
  intro s src id w a b ht hb ha hab hw hc i c hi
  obtain ⟨m, x, y, rfl, rfl⟩ := exists_eq_tagged_pair hab
  have hexec : exec i s = finish s (arith2 addVal c src (.reg id) s) := by
    rcases hi with ⟨rfl, rfl⟩ | ⟨rfl, rfl⟩
    · exact exec_add ..
    · exact exec_adc ..
  obtain ⟨g, hg, hnext⟩ := arith2_completes ht hb ha hab hw hc (lift2_tagged m x y addN c) (by simp)
  refine ⟨_, _, g, hg, hexec.trans hnext, ?_⟩
  simp only [tagged_width, tagged_toNat, signedOf_tagged, true_and]
  refine ⟨addN_toNat x y c, by simp, by simp [eq_zero_iff_toNat], msb_iff_toInt_neg _, ?_⟩
  rw [addN_overflow, outOfRange_eq_false_iff_toInt (width_bits_pos m), addN_eq_ofInt]

/-- Settles O43: the commit of the two-operand form, with the difference and the flags of `sub_N` at the operands'
width. -/
theorem subAndSbbCommitTheDifference : Obligations.SubAndSbbCommitTheDifference := by
  intro s src id w a b ht hb ha hab hw hc i c hi
  obtain ⟨m, x, y, rfl, rfl⟩ := exists_eq_tagged_pair hab
  have hexec : exec i s = finish s (arith2 subVal c src (.reg id) s) := by
    rcases hi with ⟨rfl, rfl⟩ | ⟨rfl, rfl⟩
    · exact exec_sub ..
    · exact exec_sbb ..
  obtain ⟨g, hg, hnext⟩ := arith2_completes ht hb ha hab hw hc (lift2_tagged m x y subN c) (by simp)
  refine ⟨_, _, g, hg, hexec.trans hnext, ?_⟩
  simp only [tagged_width, tagged_toNat, signedOf_tagged, true_and]
  refine ⟨subN_toNat x y c, ?_, by simp [eq_zero_iff_toNat], msb_iff_toInt_neg _, ?_⟩
  · rw [subN_carry, decide_eq_true_eq]
    omega
  · rw [subN_overflow, outOfRange_eq_false_iff_toInt (width_bits_pos m), subN_eq_ofInt (width_bits_pos m)]

/-! ### Multiplication -/

/-- Settles O44: the commit of the multiply form. Both functions split a double-width product and take the flags of
R120 from its halves. -/
theorem mulAndImulCommitTheProduct : Obligations.MulAndImulCommitTheProduct := by
  intro s src lo hi wl wh a b ht hb ha hab hwl hwh hhi hcl hch i p hip
  obtain ⟨m, x, y, rfl, rfl⟩ := exists_eq_tagged_pair hab
  simp only [tagged_toNat, signedOf_tagged] at hip
  obtain ⟨f, vl, vh, hexec, hf, hhalves⟩ : ∃ f vl vh, exec i s = finish s (arith3Mul f src (.reg lo) (.reg hi) s) ∧
      f (tagged m x) (tagged m y) = some (tagged m vl, tagged m vh, mulFlags vl vh) ∧
      ((vh.toNat * 2 ^ m.bits + vl.toNat : Nat) : Int) = p % 2 ^ (2 * m.bits) := by
    rcases hip with ⟨rfl, rfl⟩ | ⟨rfl, rfl⟩
    · exact ⟨mulVal, _, _, exec_mul .., liftMul_tagged m x y mulN, mulN_halves x y⟩
    · exact ⟨imulVal, _, _, exec_imul .., liftMul_tagged m x y imulN, imulN_halves x y⟩
  obtain ⟨g, g', hg, hg', hnext⟩ :=
    arith3Mul_completes ht hb ha hab hwl hwh hhi hcl hch hf (by simp) (by simp)
  refine ⟨_, _, _, g, g', hg, hg', hexec.trans hnext, ?_⟩
  simp only [tagged_width, tagged_toNat, signedOf_tagged, true_and]
  exact ⟨hhalves, rfl, msb_iff_toInt_neg vh, by simp [mulFlags, eq_zero_iff_toNat],
    by simp [mulFlags, eq_zero_iff_toNat]⟩

/-! ### Division -/

/-- The flags of both divides in numbers (40_regval_alu.md R125). -/
theorem divFlags_in_numbers {n : Nat} (q r : BitVec n) :
    (divFlags q r).carry = false ∧ (divFlags q r).overflow = false ∧ ((divFlags q r).zero = true ↔ r.toNat = 0) ∧
      ((divFlags q r).negative = true ↔ q.toInt < 0) :=
  ⟨rfl, rfl, by simp [divFlags, eq_zero_iff_toNat], msb_iff_toInt_neg q⟩

/-- Settles O45: the commit of the divide form, with what `div_N` answers at the operands' width. -/
theorem divCommitsQuotientAndRemainder : Obligations.DivCommitsQuotientAndRemainder := by
  intro s src lo hi wl wh vl vh b ht hb hvl hvh hlb hhb hwl hwh hcl hch hne
  obtain ⟨m, x, z, rfl, rfl⟩ := exists_eq_tagged_pair hlb
  obtain ⟨y, rfl⟩ := exists_eq_tagged (hhb.trans (tagged_width m z))
  simp only [tagged_toNat] at hne
  obtain ⟨q, r, hdiv, hq, hr⟩ := divN_result x y hne
  obtain ⟨g, g', hg, hg', hnext⟩ := arith3Div_completes (d := divVal) ht hb hvl hvh hlb hhb hwl hwh hcl hch
    (liftDiv_tagged m x y z hdiv) (by simp) (by simp)
  refine ⟨_, _, _, g, g', hg, hg', (exec_div ..).trans hnext, ?_⟩
  simp only [tagged_width, tagged_toNat, signedOf_tagged, true_and]
  exact ⟨hq, hr, divFlags_in_numbers q r⟩

/-- Settles O46: the commit of the divide form, with what `idiv_N` answers at the operands' width. -/
theorem idivCommitsQuotientAndRemainder : Obligations.IdivCommitsQuotientAndRemainder := by
  intro s src lo hi wl wh vl vh b d ht hb hvl hvh hlb hhb hwl hwh hcl hch hne hd hmin
  obtain ⟨m, x, z, rfl, rfl⟩ := exists_eq_tagged_pair hlb
  obtain ⟨y, rfl⟩ := exists_eq_tagged (hhb.trans (tagged_width m z))
  simp only [tagged_toNat, tagged_width, signedOf_tagged] at hne hd hmin
  obtain ⟨q, r, hdiv, hq, hr⟩ := idivN_result (width_bits_pos m) x y hne hd hmin
  obtain ⟨g, g', hg, hg', hnext⟩ := arith3Div_completes (d := idivVal) ht hb hvl hvh hlb hhb hwl hwh hcl hch
    (liftDiv_tagged m x y z hdiv) (by simp) (by simp)
  refine ⟨_, _, _, g, g', hg, hg', (exec_idiv ..).trans hnext, ?_⟩
  simp only [tagged_width, tagged_toNat, signedOf_tagged, true_and]
  exact ⟨hq, hr, divFlags_in_numbers q r⟩

/-! ### Computed control transfer -/

/-- Settles O52: the sum with `PC.w`, merged below `PC[31:16]`, is the offset of the next fetch in the same window. -/
theorem addToPcIsAComputedJump : Obligations.AddToPcIsAComputedJump := by
  intro s src x hshift horder ht hx hread hwrite
  have hview : s.view 0x2c = some ⟨.pc, .word⟩ := by
    rw [State.view, horder]
    decide
  have hpc : readReg 0x2c s = .ok (.word (s.regs.pc.extractLsb' 0 16)) := readReg_of _ s _ hread hview
  obtain ⟨r, fl, g, hg, hexec, _, hsum, _⟩ :=
    addAndAdcCommitTheSum s src 0x2c _ _ _ ht hx hpc rfl hview hwrite _ _ (.inl ⟨rfl, rfl⟩)
  obtain ⟨_, v, hv, rfl⟩ := writeView_some _ _ _ _ hg
  have hjump : v.toNat = s.regs.pc.toNat / 2 ^ 16 * 2 ^ 16 + r.toNat := mergeSpan_toNat _ _ _ _ hv
  have hoffset : r.toNat = (s.regs.pc.toNat + x.toNat) % 2 ^ 16 := by
    simpa [RegVal.toNat, RegVal.width, Width.bits] using hsum
  rw [hoffset] at hjump
  refine ⟨_, hexec, hjump, ?_⟩
  have hfetch : (flat s.params.segShift v s.regs.codeOfs).toNat = v.toNat % 2 ^ 16 + s.regs.codeOfs.toNat * 2 ^ 16 := by
    rw [hshift, flat_toNat]
  refine hfetch.trans ?_
  omega

end Sys2Proof.Machine
end

section
/-! PROOFS. 43_arith.md, where an arithmetic instruction writes no register: operands of different widths raise (R171),
and test mode leaves the flag merge at most (R172). -/

namespace Sys2Proof.Machine

/-! ### Operands of different widths -/

section
variable {s : State} {src : Operand} {lo hi : Byte} {a b h : RegVal}

theorem arith2_width_ne (hb : readOperand src s = .ok b) (ha : readReg lo s = .ok a) (hab : a.width ≠ b.width)
    (f : RegVal → RegVal → Bool → Option (RegVal × FlagUpdate)) (cin : Bool) :
    arith2 f cin src (.reg lo) s = .error .invalidOperation := by
  rw [arith2, bind_of_ok hb, bind_of_ok ha, if_neg hab]

theorem arith3Mul_width_ne (hb : readOperand src s = .ok b) (ha : readReg lo s = .ok a)
    (hne : a.width ≠ b.width ∨ viewWidth hi ≠ some a.width)
    (m : RegVal → RegVal → Option (RegVal × RegVal × FlagUpdate)) :
    arith3Mul m src (.reg lo) (.reg hi) s = .error .invalidOperation := by
  rw [arith3Mul, bind_of_ok hb, bind_of_ok ha, if_neg (not_and_or.2 hne)]

theorem arith3Div_width_ne (hb : readOperand src s = .ok b) (ha : readReg lo s = .ok a) (hh : readReg hi s = .ok h)
    (hne : a.width ≠ b.width ∨ h.width ≠ b.width)
    (d : RegVal → RegVal → RegVal → Option (RegVal × RegVal × FlagUpdate)) :
    arith3Div d src (.reg lo) (.reg hi) s = .error .invalidOperation := by
  rw [arith3Div, bind_of_ok hb, bind_of_ok ha, bind_of_ok hh, if_neg (not_and_or.2 hne)]

end

/-- Settles O49: each operand form raises at its width check, before its ALU function is asked. -/
theorem widthMismatchRaises : Obligations.WidthMismatchRaises := by
  intro s src lo hi a h b wh hb ha
  simp only [List.forall_mem_cons, List.not_mem_nil, false_implies, implies_true, and_true]
  refine ⟨fun hab => ?_, fun hwh hne => ?_, fun hh hne => ?_⟩
  · have hraise := fun f cin => finish_error (s := s) (arith2_width_ne hb ha hab f cin)
    exact ⟨hraise addVal false, hraise addVal s.carry, hraise subVal false, hraise subVal s.carry⟩
  · have hview : viewWidth hi = some wh.span.width := by rw [viewWidth_eq s, hwh, Option.map_some]
    have hne' : a.width ≠ b.width ∨ viewWidth hi ≠ some a.width := by simpa [hview] using hne
    have hraise := fun m => finish_error (s := s) (arith3Mul_width_ne hb ha hne' m)
    exact ⟨hraise mulVal, hraise imulVal⟩
  · have hraise := fun d => finish_error (s := s) (arith3Div_width_ne hb ha hh hne d)
    exact ⟨hraise divVal, hraise idivVal⟩

/-! ### In test mode: the flags at most -/

/-- In test mode the flag merge is made unless the argument gates it (R172). -/
theorem mergeUnlessGated_true (fl : FlagUpdate) (s : State) :
    mergeUnlessGated true fl s = if s.params.testModeGatesFlags then s else mergeFlags fl s := by
  rw [mergeUnlessGated, Bool.true_and]

section
variable {s : State} {src : Operand} {lo hi : Byte} {a b h vl vh : RegVal} {fl : FlagUpdate}

/-- In test mode phase 4 of a two-operand instruction is the flag merge alone (R172, R178). -/
theorem commit2_testMode (ht : s.testMode = true) (id : Byte) (r : RegVal) (fl : FlagUpdate) :
    commit2 id r fl s = .ok (if s.params.testModeGatesFlags then s else mergeFlags fl s) := by
  rw [commit2, if_pos ht, mergeUnlessGated_true]

/-- In test mode phase 4 of a three-operand instruction is the flag merge alone (R172, R183). -/
theorem commit3_testMode (ht : s.testMode = true) (lo hi : Byte) (vl vh : RegVal) (fl : FlagUpdate) :
    commit3 lo hi vl vh fl s = .ok (if s.params.testModeGatesFlags then s else mergeFlags fl s) := by
  rw [commit3, if_pos ht, mergeUnlessGated_true]

/-- In test mode a two-operand instruction with readable operands of equal width completes (R172). -/
theorem arith2_testMode (ht : s.testMode = true) (hb : readOperand src s = .ok b) (ha : readReg lo s = .ok a)
    (hab : a.width = b.width) (f : {n : Nat} → BitVec n → BitVec n → Bool → BitVec n × FlagUpdate) (cin : Bool) :
    ∃ r fl, lift2 f a b cin = some (r, fl) ∧ finish s (arith2 (lift2 f) cin src (.reg lo) s) =
      .next (if s.params.testModeGatesFlags then s else mergeFlags fl s) := by
  obtain ⟨r, fl, hf⟩ := lift2_of_width_eq f cin hab
  exact ⟨r, fl, hf, finish_ok ((arith2_eq_commit2 hb ha hab hf).trans (commit2_testMode ht lo r fl))⟩

/-- In test mode a multiply with readable operands of equal width completes (R172). -/
theorem arith3Mul_testMode (ht : s.testMode = true) (hb : readOperand src s = .ok b) (ha : readReg lo s = .ok a)
    (hab : a.width = b.width) (hhi : viewWidth hi = some a.width)
    (f : {n : Nat} → BitVec n → BitVec n → BitVec n × BitVec n × FlagUpdate) :
    ∃ vl vh fl, liftMul f a b = some (vl, vh, fl) ∧ finish s (arith3Mul (liftMul f) src (.reg lo) (.reg hi) s) =
      .next (if s.params.testModeGatesFlags then s else mergeFlags fl s) := by
  obtain ⟨vl, vh, fl, hf⟩ := liftMul_of_width_eq f hab
  exact ⟨vl, vh, fl, hf, finish_ok ((arith3Mul_eq_commit3 hb ha hab hhi hf).trans (commit3_testMode ht lo hi vl vh fl))⟩

/-- In test mode a divide completes where its function has a result (R172). -/
theorem arith3Div_testMode {f : {n : Nat} → BitVec n → BitVec n → BitVec n → Option (BitVec n × BitVec n × FlagUpdate)}
    (ht : s.testMode = true) (hb : readOperand src s = .ok b) (ha : readReg lo s = .ok a) (hh : readReg hi s = .ok h)
    (hd : liftDiv f a h b = some (vl, vh, fl)) :
    finish s (arith3Div (liftDiv f) src (.reg lo) (.reg hi) s) =
      .next (if s.params.testModeGatesFlags then s else mergeFlags fl s) := by
  obtain ⟨hab, hhb⟩ := liftDiv_operand_widths f (Option.isSome_iff_exists.2 ⟨_, hd⟩)
  exact finish_ok ((arith3Div_eq_commit3 hb ha hh hab hhb hd).trans (commit3_testMode ht lo hi vl vh fl))

end

/-- In test mode an instruction writes no view: what is left of the effects is trap entry, no change, or the merge. -/
theorem ExecEffect.testMode_cases {i : Instr} {s t : State} (he : ExecEffect i s t) (ht : s.testMode = true)
    (hm : mergesFlags i = true) :
    (∃ k, t = trapEntry k s) ∨ (s.params.testModeGatesFlags = true ∧ t = s) ∨
      (s.params.testModeGatesFlags = false ∧ ∃ fl, t = mergeFlags fl s) := by
  cases he with
  | trap k => exact .inl ⟨k, rfl⟩
  | suppressed _ gated => exact .inr (.inl ⟨gated hm, rfl⟩)
  | flagsOnly fl _ _ ungated => exact .inr (.inr ⟨ungated, fl, rfl⟩)
  | moved id w x g test => exact absurd (ht.symm.trans test) (by decide)
  | wrote1 id w x g fl test => exact absurd (ht.symm.trans test) (by decide)
  | wrote2 lo hi w w' x x' g g' fl test => exact absurd (ht.symm.trans test) (by decide)

/-- Settles O50: each operand form in test mode, and the effects of `exec` that test mode leaves. -/
theorem testModeSuppressesArithmetic : Obligations.TestModeSuppressesArithmetic := by
  intro s ht
  simp only [List.forall_mem_cons, List.not_mem_nil, false_implies, implies_true, and_true]
  refine ⟨fun src lo hi a b hb ha hab => ⟨?_, fun hhi => ?_, fun h q r fl hh => ?_⟩,
    fun i t hm h => (exec_effect i s t h).testMode_cases ht hm⟩
  · have hop2 := arith2_testMode ht hb ha hab
    exact ⟨hop2 addN false, hop2 addN s.carry, hop2 subN false, hop2 subN s.carry⟩
  · have hmul := arith3Mul_testMode ht hb ha hab hhi
    exact ⟨hmul mulN, hmul imulN⟩
  · exact ⟨arith3Div_testMode ht hb ha hh, arith3Div_testMode ht hb ha hh⟩

end Sys2Proof.Machine
end

section
/-! PROOFS. 60_exceptions.md, trap entry (R198, R199) and the end of a cycle (R204): what a cycle with a next state did,
in the words of `fetchInstr` and `exec`, and the poll on the bus that it left. -/

namespace Sys2Proof.Machine

/-! ### Trap entry -/

/-- Decision D6 saves `PC` and the low byte of `CO` (R199). -/
theorem savedComponents_pcAndOffset (pc : Word32) (co : Word16) :
    savedComponents .pcAndOffset pc co = (pc, co.extractLsb' 0 8) := by
  rw [savedComponents_default, BitVec.setWidth_eq_extractLsb' (by decide)]

/-- Settles O25: trap entry writes the two components that its save names, and those of D6 are known. -/
theorem trapEntrySavesPcAndCodeOffset : Obligations.TrapEntrySavesPcAndCodeOffset := by
  refine fun k s => ⟨fun hsave => ?_, _, _, rfl⟩
  simp only [trapEntry, hsave, savedComponents_pcAndOffset]

/-! ### A cycle with a next state, by its fetch -/

/-- A cycle with a next state raised while fetching, or executed what it fetched; then it ended (R147 to R150). -/
theorem step_next_cases {s t : State} (h : step s = .next t) :
    (∃ v, fetchInstr (beginCycle s) = .raised v ∧ t = endCycle (trapEntry .invalidOperation v)) ∨
      ∃ i v u, fetchInstr (beginCycle s) = .instr i v ∧ exec i v = .next u ∧ t = endCycle u := by
  cases hf : fetchInstr (beginCycle s) with
  | stuck =>
    rw [step_of_stuck s hf] at h
    cases h
  | raised v =>
    rw [step_of_raised s v hf] at h
    cases h
    exact .inl ⟨v, rfl, rfl⟩
  | instr i v =>
    obtain ⟨u, hu⟩ := exec_answers i v
    rw [step_of_instr s v u i hf hu] at h
    cases h
    exact .inr ⟨i, v, u, rfl, hu, rfl⟩

/-! ### The poll -/

/-- The report of a cycle: what was raised, and the results of the poll (R201, R204). -/
theorem endCycle_report (u : State) :
    (endCycle u).report = { raised := u.report.raised, clock := u.bus.devices.map (fun d => d.clock.1) } := by
  rw [endCycle, tellUpstream_report]
  rfl

/-- The bus after a cycle: each device as its poll left it, and the memory as it was (R204). -/
theorem endCycle_bus_of_mem {u : State} {m : Memory} (hmem : u.bus.mem = m) :
    (endCycle u).bus = { devices := u.bus.devices.map (fun d => d.clock.2), mem := m } := by
  rw [endCycle_bus, ← hmem]
  rfl

/-- Settles O12: neither trap entry nor an instruction touches the bus that the fetch left, and the poll comes next. -/
theorem everyCyclePollsTheClocks : Obligations.EveryCyclePollsTheClocks := by
  intro s t h
  have hfetched := fetchInstr_fetched (beginCycle s)
  rcases step_next_cases h with ⟨v, hv, rfl⟩ | ⟨i, v, u, hv, hu, rfl⟩
  · have hf := hfetched.1 v hv
    exact ⟨_, .inl ⟨v, hv, rfl⟩, rfl, hf.shape, endCycle_report _, endCycle_bus_of_mem hf.mem⟩
  · have hf := hfetched.2 i v hv
    have hbus := (exec_effect i v u hu).bus
    have hmem : u.bus.mem = s.bus.mem := hbus ▸ hf.mem
    exact ⟨u, .inr ⟨i, v, hv, hu⟩, rfl, hbus ▸ hf.shape, endCycle_report u, endCycle_bus_of_mem hmem⟩

end Sys2Proof.Machine
end

section
/-! PROOFS. 60_exceptions.md, raising: an instruction that raises commits nothing (R196), and it raises
`IllegalOperation` for one cause only (R192). Both are said of the execute stage of each operand form at once, by
walking through its checks in their order (R195). An immediate destination fails the first of them (R191 cause 3). -/

namespace Sys2Proof.Machine

/-! ### How an execute stage can end -/

/-- How the execute stage of an instruction that makes `accesses` from `s` can end: it commits with nothing reported,
it raises `InvalidOperation`, or it raises `IllegalOperation` where the policy refuses one of the accesses (R192). -/
inductive StageResult (accesses : List (Operand × AccessKind)) (s : State) : Except ExceptionKind State → Prop where
  | committed (t : State) (report : t.report = s.report) : StageResult accesses s (.ok t)
  | invalid : StageResult accesses s (.error .invalidOperation)
  | refused (id : Byte) (k : AccessKind) (access : (.reg id, k) ∈ accesses) (denied : s.canAccess id k = false) :
      StageResult accesses s (.error .illegalOperation)

section
variable {acc : List (Operand × AccessKind)} {s u : State} {id lo hi : Byte} {src : Operand}

/-- A register read goes on, or its check refused it, or the id is invalid (R36). -/
theorem StageResult.readReg_bind (ha : (.reg id, .read) ∈ acc) {f : RegVal → Except ExceptionKind State}
    (hf : ∀ x, StageResult acc s (f x)) : StageResult acc s (readReg id s >>= f) := by
  cases hc : s.canAccess id .read with
  | false =>
    rw [bind_of_error (readReg_refused id s hc)]
    exact .refused id .read ha hc
  | true =>
    cases hw : s.view id with
    | none =>
      rw [bind_of_error (readReg_unresolved id s hc ((view_none_iff s id).1 hw))]
      exact .invalid
    | some w =>
      rw [bind_of_ok (readReg_of id s w hc hw)]
      exact hf _

/-- An immediate has a value without a check (00_scope.md R14). -/
theorem StageResult.readOperand_bind (ha : (src, .read) ∈ acc) {f : RegVal → Except ExceptionKind State}
    (hf : ∀ x, StageResult acc s (f x)) : StageResult acc s (readOperand src s >>= f) := by
  cases src with
  | imm8 v => exact hf _
  | imm16 v => exact hf _
  | reg id => exact readReg_bind ha hf

/-- A store checks no capability, so it raises `InvalidOperation` only (R37 steps 2 to 4). -/
theorem StageResult.storeReg_bind (v : RegVal) {f : State → Except ExceptionKind State}
    (hf : ∀ g, StageResult acc s (f { u with regs := g })) : StageResult acc s (storeReg id v u >>= f) := by
  cases hw : u.view id with
  | none =>
    rw [bind_of_error (storeReg_unresolved id v u ((view_none_iff u id).1 hw))]
    exact .invalid
  | some w =>
    by_cases hv : v.width = w.span.width
    · obtain ⟨g, hg⟩ := writeView_isSome u.regs w v hv
      rw [bind_of_ok (storeReg_of id v u w g hw hg)]
      exact hf g
    · rw [bind_of_error (storeReg_width_ne id v u w hw hv)]
      exact .invalid

/-- A register write is a check of the level that the instruction began with, then a store (R37, R39). -/
theorem StageResult.writeReg_bind (ha : (.reg id, .write) ∈ acc) (v : RegVal)
    {f : State → Except ExceptionKind State} (hf : ∀ g, StageResult acc s (f { s with regs := g })) :
    StageResult acc s (writeReg id v s >>= f) := by
  cases hc : s.canAccess id .write with
  | false =>
    rw [bind_of_error (writeReg_refused id v s hc)]
    exact .refused id .write ha hc
  | true =>
    rw [writeReg_permitted id v s hc]
    exact storeReg_bind v hf

/-- The flag merge reports nothing, gated or not (R172). -/
theorem mergeUnlessGated_report (m : Bool) (fl : FlagUpdate) (s : State) :
    (mergeUnlessGated m fl s).report = s.report := by
  rcases mergeUnlessGated_cases m fl s with h | ⟨_, _, h⟩ <;> rw [h]
  exact mergeFlags_report fl s

/-! ### The operand forms -/

theorem movCommon_stageResult (src dest : Operand) (sx : Bool) (s : State) :
    StageResult [(src, .read), (dest, .write)] s (movCommon src dest sx s) := by
  cases dest with
  | imm8 v => exact .invalid
  | imm16 v => exact .invalid
  | reg id =>
    refine .readOperand_bind (by simp) fun x => ?_
    split
    · exact .invalid
    · split
      · exact .committed s rfl
      · rw [← bind_pure (writeReg id _ s)]
        exact .writeReg_bind (by simp) _ fun g => .committed _ rfl

theorem commit2_stageResult (ha : (.reg id, .write) ∈ acc) (r : RegVal) (fl : FlagUpdate) :
    StageResult acc s (commit2 id r fl s) := by
  unfold commit2
  split
  · exact .committed _ (mergeUnlessGated_report true fl s)
  · exact .writeReg_bind ha r fun g => .committed _ (mergeUnlessGated_report false fl _)

theorem arith2_stageResult (f : RegVal → RegVal → Bool → Option (RegVal × FlagUpdate)) (cin : Bool)
    (src dest : Operand) (s : State) :
    StageResult [(src, .read), (dest, .read), (dest, .write)] s (arith2 f cin src dest s) := by
  cases dest with
  | imm8 v => exact .invalid
  | imm16 v => exact .invalid
  | reg id =>
    refine .readOperand_bind (by simp) fun b => .readReg_bind (by simp) fun a => ?_
    split
    · split
      · exact .invalid
      · exact commit2_stageResult (by simp) _ _
    · exact .invalid

/-- Both writes are checked at the level that the instruction began with, before the first store (R170; log 13). -/
theorem commit3_stageResult (hl : (.reg lo, .write) ∈ acc) (hh : (.reg hi, .write) ∈ acc) (vlo vhi : RegVal)
    (fl : FlagUpdate) : StageResult acc s (commit3 lo hi vlo vhi fl s) := by
  cases ht : s.testMode with
  | true =>
    rw [commit3_testMode ht, ← mergeUnlessGated_true]
    exact .committed _ (mergeUnlessGated_report true fl s)
  | false =>
    cases hcl : s.canAccess lo .write with
    | false =>
      rw [commit3_refused ht (.inl hcl)]
      exact .refused lo .write hl hcl
    | true =>
      cases hch : s.canAccess hi .write with
      | false =>
        rw [commit3_refused ht (.inr hch)]
        exact .refused hi .write hh hch
      | true =>
        simp only [commit3, ht, hcl, hch, Bool.not_true, Bool.false_eq_true, if_false]
        exact .storeReg_bind vlo fun g => .storeReg_bind vhi fun g' =>
          .committed _ (mergeUnlessGated_report false fl _)

theorem arith3Mul_stageResult (m : RegVal → RegVal → Option (RegVal × RegVal × FlagUpdate)) (src dlo dhi : Operand)
    (s : State) :
    StageResult [(src, .read), (dlo, .read), (dlo, .write), (dhi, .write)] s (arith3Mul m src dlo dhi s) := by
  unfold arith3Mul
  split
  · refine .readOperand_bind (by simp) fun b => .readReg_bind (by simp) fun a => ?_
    split
    · split
      · exact .invalid
      · exact commit3_stageResult (by simp) (by simp) _ _ _
    · exact .invalid
  · exact .invalid

theorem arith3Div_stageResult (d : RegVal → RegVal → RegVal → Option (RegVal × RegVal × FlagUpdate))
    (src dlo dhi : Operand) (s : State) :
    StageResult [(src, .read), (dlo, .read), (dhi, .read), (dlo, .write), (dhi, .write)] s
      (arith3Div d src dlo dhi s) := by
  unfold arith3Div
  split
  · refine .readOperand_bind (by simp) fun b => .readReg_bind (by simp) fun vl => .readReg_bind (by simp) fun vh => ?_
    split
    · split
      · exact .invalid
      · exact commit3_stageResult (by simp) (by simp) _ _ _
    · exact .invalid
  · exact .invalid

end

/-! ### The instructions -/

/-- Every instruction ends its cycle by how its execute stage ends, for the accesses that it makes. -/
theorem exec_stageResult (i : Instr) (s : State) :
    ∃ r, exec i s = finish s r ∧ StageResult (operandAccesses i) s r := by
  cases i with
  | mov src dest => exact ⟨_, exec_mov .., movCommon_stageResult ..⟩
  | movsx src dest => exact ⟨_, exec_movsx .., movCommon_stageResult ..⟩
  | add src dest => exact ⟨_, exec_add .., arith2_stageResult ..⟩
  | adc src dest => exact ⟨_, exec_adc .., arith2_stageResult ..⟩
  | sub src dest => exact ⟨_, exec_sub .., arith2_stageResult ..⟩
  | sbb src dest => exact ⟨_, exec_sbb .., arith2_stageResult ..⟩
  | mul src dlo dhi => exact ⟨_, exec_mul .., arith3Mul_stageResult ..⟩
  | imul src dlo dhi => exact ⟨_, exec_imul .., arith3Mul_stageResult ..⟩
  | div src dlo dhi => exact ⟨_, exec_div .., arith3Div_stageResult ..⟩
  | idiv src dlo dhi => exact ⟨_, exec_idiv .., arith3Div_stageResult ..⟩

/-- What an instruction reports: nothing, or the kind of the trap entry that it is, `IllegalOperation` where one of its
accesses was refused. -/
theorem exec_report_cases {i : Instr} {s t : State} (h : exec i s = .next t) :
    t.report = s.report ∨ t = trapEntry .invalidOperation s ∨
      t = trapEntry .illegalOperation s ∧ ∃ id k, (.reg id, k) ∈ operandAccesses i ∧ s.canAccess id k = false := by
  obtain ⟨r, hexec, hr⟩ := exec_stageResult i s
  rw [hexec] at h
  cases hr with
  | committed u hreport =>
    cases h
    exact .inl hreport
  | invalid =>
    cases h
    exact .inr (.inl rfl)
  | refused id k hmem hc =>
    cases h
    exact .inr (.inr ⟨rfl, id, k, hmem, hc⟩)

/-- Settles O26: an instruction that reports a kind is trap entry. -/
theorem raisingCommitsNothing : Obligations.RaisingCommitsNothing := by
  intro i s t hclean h hraised
  rcases exec_report_cases h with hsame | ht | ⟨ht, _⟩
  · exact absurd (by rw [hsame, hclean]) hraised
  · exact ⟨_, ht⟩
  · exact ⟨_, ht⟩

/-- An instruction that raises `IllegalOperation` made an access that the policy refuses (R192). -/
theorem exec_illegal_refused {i : Instr} {s t : State} (hclean : s.report.raised = none) (h : exec i s = .next t)
    (hill : t.report.raised = some .illegalOperation) :
    ∃ id k, (.reg id, k) ∈ operandAccesses i ∧ s.canAccess id k = false := by
  rcases exec_report_cases h with hsame | rfl | ⟨_, hrefused⟩
  · rw [hsame, hclean] at hill
    cases hill
  · cases hill
  · exact hrefused

/-- Settles O27: a fetch raises the other kind, and with the default policy no access is refused. -/
theorem illegalOperationHasOneCause : Obligations.IllegalOperationHasOneCause := by
  refine ⟨fun i s t => exec_illegal_refused, fun s t hdenied h hill => ?_⟩
  rcases step_next_cases h with ⟨v, _, rfl⟩ | ⟨i, v, u, hv, hu, rfl⟩
  · rw [endCycle_raised] at hill
    cases hill
  · have hf := (fetchInstr_fetched (beginCycle s)).2 i v hv
    rw [endCycle_raised] at hill
    obtain ⟨id, k, _, hc⟩ := exec_illegal_refused (by rw [hf.report, beginCycle_raised]) hu hill
    have hpermitted : v.canAccess id k = true := canAccess_default v id k (by rw [hf.params]; exact hdenied)
    rw [hc] at hpermitted
    cases hpermitted

/-! ### Immediate destinations -/

/-- A two-operand instruction with an immediate destination raises before it reads its source (R178). -/
theorem arith2_immediate {dest : Operand} (hd : ∀ id, dest ≠ .reg id)
    (f : RegVal → RegVal → Bool → Option (RegVal × FlagUpdate)) (cin : Bool) (src : Operand) (s : State) :
    arith2 f cin src dest s = .error .invalidOperation := by
  cases dest with
  | imm8 v => rfl
  | imm16 v => rfl
  | reg id => exact absurd rfl (hd id)

section
variable {dlo dhi : Operand}

/-- A multiply with an immediate destination raises before it reads its source (R183). -/
theorem arith3Mul_immediate (hd : (∀ id, dlo ≠ .reg id) ∨ ∀ id, dhi ≠ .reg id)
    (m : RegVal → RegVal → Option (RegVal × RegVal × FlagUpdate)) (src : Operand) (s : State) :
    arith3Mul m src dlo dhi s = .error .invalidOperation := by
  unfold arith3Mul
  split
  · exact (hd.elim (fun h => h _ rfl) (fun h => h _ rfl)).elim
  · rfl

/-- A divide with an immediate destination raises before it reads its source (R183). -/
theorem arith3Div_immediate (hd : (∀ id, dlo ≠ .reg id) ∨ ∀ id, dhi ≠ .reg id)
    (d : RegVal → RegVal → RegVal → Option (RegVal × RegVal × FlagUpdate)) (src : Operand) (s : State) :
    arith3Div d src dlo dhi s = .error .invalidOperation := by
  unfold arith3Div
  split
  · exact (hd.elim (fun h => h _ rfl) (fun h => h _ rfl)).elim
  · rfl

end

/-- Settles O30, by the operand form of each instruction: its destinations are looked at first. -/
theorem immediateDestinationRaises : Obligations.ImmediateDestinationRaises := by
  intro i s hd
  cases i <;> simp only [Instr.destinations, Instr.operands, List.tail_cons, List.mem_cons, List.not_mem_nil,
    or_false, exists_eq_left, exists_eq_or_imp] at hd
  case mov src dest | movsx src dest => exact finish_error (movCommon_immediate hd src _ s)
  case add src dest | adc src dest | sub src dest | sbb src dest => exact finish_error (arith2_immediate hd _ _ src s)
  case mul src dlo dhi | imul src dlo dhi => exact finish_error (arith3Mul_immediate hd _ src s)
  case div src dlo dhi | idiv src dlo dhi => exact finish_error (arith3Div_immediate hd _ src s)

end Sys2Proof.Machine
end

section
/-! PROOFS. 60_exceptions.md R202: a handler returns with `MOV RP.w, PC.w`. The next fetch sees only the low word of
`PC`, so the low word of the saved `RP` is enough. -/

namespace Sys2Proof.Machine

theorem codeOfs_eq_of_get_eq {g g' : Regs} (h : g.get .codeOfs = g'.get .codeOfs) : g.codeOfs = g'.codeOfs := by
  simpa [Regs.get] using congrArg (BitVec.setWidth 16) h

theorem sameExcept.params {touched : Backing → Nat → Bool} {s t : State} (h : sameExcept touched s t) :
    t.params = s.params := by
  obtain ⟨_, hparams, _⟩ := h
  exact hparams

/-- A register of which no bit is touched keeps its value. -/
theorem sameExcept.get_eq {touched : Backing → Nat → Bool} {s t : State} (h : sameExcept touched s t) {r : Backing}
    (hr : ∀ n, touched r n = false) : t.regs.get r = s.regs.get r := by
  obtain ⟨_, _, _, _, hbits⟩ := h
  exact BitVec.eq_of_getLsbD_eq fun n _ => hbits r n (hr n)

/-- The fetch address is a function of the shift, the low word of `PC` and `CO` (20_memory.md R60). -/
theorem fetchAddr_congr {s t : State} (hp : t.params = s.params)
    (hpc : t.regs.pc.extractLsb' 0 16 = s.regs.pc.extractLsb' 0 16) (hco : t.regs.codeOfs = s.regs.codeOfs) :
    t.fetchAddr = s.fetchAddr := by
  simp only [State.fetchAddr, flat, hp, hpc, hco]

/-- In the listing order the ids `0x18` and `0x2c` name `RP.w` and `PC.w` (10_state.md R34). -/
theorem viewAt_listing_returnViews :
    viewAt .listing 0x18 = some ⟨.rp, .word⟩ ∧ viewAt .listing 0x2c = some ⟨.pc, .word⟩ := by decide

/-- `MOV RP.w, PC.w` completes with the low word of `RP` in `PC`, in the same window (42_mov.md R160). -/
theorem mov_rp_to_pc {s : State} (horder : s.params.regOrder = .listing) (ht : s.testMode = false)
    (hread : s.canAccess 0x18 .read = true) (hwrite : s.canAccess 0x2c .write = true) :
    ∃ t, exec (.mov (.reg 0x18) (.reg 0x2c)) s = .next t ∧ t.params = s.params ∧ t.regs.codeOfs = s.regs.codeOfs ∧
      t.regs.pc.extractLsb' 0 16 = s.regs.rp.extractLsb' 0 16 := by
  obtain ⟨hrp, hpc⟩ := viewAt_listing_returnViews
  have hview : s.view 0x2c = some ⟨.pc, .word⟩ := by rw [State.view, horder, hpc]
  have hx : readReg 0x18 s = .ok (.word (s.regs.rp.extractLsb' 0 16)) :=
    readReg_of 0x18 s ⟨.rp, .word⟩ hread (by rw [State.view, horder, hrp])
  obtain ⟨t, hexec, hvalue, hframe⟩ := (movesWriteTheConvertedValue s (.reg 0x18) 0x2c _ _ ht hx hview hwrite).1
  rw [touches_move (.inl rfl)] at hframe
  have hco : ∀ n, operandTouches s.params (.reg 0x2c) .codeOfs n = false := by
    intro n
    rw [operandTouches, horder, hpc]
    rfl
  exact ⟨t, hexec, hframe.params, codeOfs_eq_of_get_eq (hframe.get_eq hco), RegVal.word.inj hvalue⟩

/-- Settles O29: under D6 the saved `RP` is the `PC` of trap entry, and its low word is what the move brings back. -/
theorem movRpToPcReturns : Obligations.MovRpToPcReturns := by
  intro k u s horder hsave hparams hrp hco ht hread hwrite
  obtain ⟨t, hexec, htparams, htco, htpc⟩ := mov_rp_to_pc (hparams ▸ horder) ht hread hwrite
  have hsaved : s.regs.rp = u.regs.pc := by rw [hrp, trapEntry_rp, hsave, savedComponents_default]
  exact ⟨t, hexec, fetchAddr_congr (htparams.trans hparams) (htpc.trans (by rw [hsaved])) (htco.trans hco)⟩

end Sys2Proof.Machine
end

section
/-! PROOFS. 70_reset_and_hazards.md R229: test mode is sticky. What test mode keeps is said once, a relation
between states that every stage of a cycle satisfies; bit 4 of `FLAGS` is part of what is kept. -/

namespace Sys2Proof.Machine

/-- What test mode keeps of a state: the arguments, every register but `PC`, `FLAGS` and those of trap entry, and
`FLAGS` above the nibble of the flag merge (R229). -/
structure KeptInTestMode (s t : State) : Prop where
  params : t.params = s.params
  regs : ∀ r, r ≠ .pc → r ≠ .flags → r ≠ .rp → r ≠ .rop → t.regs.get r = s.regs.get r
  flags : ∀ k, 4 ≤ k → t.regs.flags.getLsbD k = s.regs.flags.getLsbD k

theorem KeptInTestMode.refl (s : State) : KeptInTestMode s s := ⟨rfl, fun _ _ _ _ _ => rfl, fun _ _ => rfl⟩

theorem KeptInTestMode.trans {s t u : State} (h : KeptInTestMode s t) (h' : KeptInTestMode t u) :
    KeptInTestMode s u where
  params := h'.params.trans h.params
  regs r hpc hflags hrp hrop := (h'.regs r hpc hflags hrp hrop).trans (h.regs r hpc hflags hrp hrop)
  flags k hk := (h'.flags k hk).trans (h.flags k hk)

/-- The test-mode bit is above the nibble (R40). -/
theorem KeptInTestMode.testMode {s t : State} (h : KeptInTestMode s t) : t.testMode = s.testMode :=
  h.flags 4 (Nat.le_refl 4)

/-! ### The stages of a cycle -/

theorem beginCycle_keptInTestMode (s : State) : KeptInTestMode s (beginCycle s) where
  params := beginCycle_params s
  regs _ _ _ _ _ := rfl
  flags _ _ := rfl

theorem Fetched.keptInTestMode {s t : State} (h : Fetched s t) : KeptInTestMode s t where
  params := h.params
  regs r hpc _ _ _ := h.get_eq r hpc
  flags k _ := by rw [h.regs]

theorem trapEntry_keptInTestMode (k : ExceptionKind) (s : State) : KeptInTestMode s (trapEntry k s) where
  params := trapEntry_params k s
  regs r _ _ hrp hrop := trapEntry_get k s r hrp hrop
  flags n _ := by rw [trapEntry_flags]

theorem mergeFlags_keptInTestMode (f : FlagUpdate) (s : State) : KeptInTestMode s (mergeFlags f s) where
  params := mergeFlags_params f s
  regs r _ hflags _ _ := mergeFlags_get f s r hflags
  flags k hk := mergeNib_high s.regs.flags f k hk

theorem endCycle_keptInTestMode {s : State} (hq : s.quiet) : KeptInTestMode s (endCycle s) where
  params := endCycle_params s
  regs r _ _ _ _ := by rw [endCycle_regs s hq]
  flags k _ := by rw [endCycle_regs s hq]

/-- In test mode an instruction writes no view: it raises, does nothing, or merges its flags (R162, R172). -/
theorem ExecEffect.keptInTestMode {i : Instr} {s t : State} (h : ExecEffect i s t) (ht : s.testMode = true) :
    KeptInTestMode s t := by
  cases h with
  | trap k => exact trapEntry_keptInTestMode k s
  | suppressed => exact .refl s
  | flagsOnly fl => exact mergeFlags_keptInTestMode fl s
  | moved id w x g test => exact absurd (ht.symm.trans test) (by decide)
  | wrote1 id w x g fl test => exact absurd (ht.symm.trans test) (by decide)
  | wrote2 lo hi w w' x x' g g' fl test => exact absurd (ht.symm.trans test) (by decide)

/-! ### Cycles and runs -/

/-- With the default upstream, a cycle that begins in test mode keeps what test mode keeps. -/
theorem step_keptInTestMode {s t : State} (hq : s.quiet) (ht : s.testMode = true) (h : step s = .next t) :
    KeptInTestMode s t := by
  obtain ⟨u, hu, hend⟩ := step_cases s t h
  have hfetch : KeptInTestMode s u := (beginCycle_keptInTestMode s).trans hu.keptInTestMode
  have hexec : ∃ v, KeptInTestMode u v ∧ t = endCycle v := by
    rcases hend with rfl | ⟨i, v, he, rfl⟩
    · exact ⟨_, trapEntry_keptInTestMode _ u, rfl⟩
    · exact ⟨v, he.keptInTestMode (hfetch.testMode.trans ht), rfl⟩
  obtain ⟨v, huv, rfl⟩ := hexec
  have hv := hfetch.trans huv
  exact hv.trans (endCycle_keptInTestMode (by rwa [State.quiet, hv.params]))

/-- Settles O17: each cycle of the run begins in test mode with the default upstream, because the ones before it kept
both. -/
theorem testModeIsSticky : Obligations.TestModeIsSticky := by
  intro n s t hq ht hrun
  have hstep (u v : State) (hu : KeptInTestMode s u) (h : step u = .next v) : KeptInTestMode s v :=
    hu.trans (step_keptInTestMode (by rwa [State.quiet, hu.params]) (hu.testMode.trans ht) h)
  have hkept : KeptInTestMode s t := run_keeps Sys2Proof.core (KeptInTestMode s) hstep n s t (.refl s) hrun
  exact ⟨hkept.testMode.trans ht, hkept.regs, hkept.flags⟩

end Sys2Proof.Machine
end

section
/-! PROOFS. 70_reset_and_hazards.md R228: the operand loop that does not end. On plain memory the loop is a partial
function on the 65,536 offsets of the window, from the place of one item to the place of the next; a partial function on
`N` places that can be followed for `N` steps can be followed for ever. -/

namespace Sys2Proof.Machine

/-! ### Following a partial function -/

section
variable {α : Type} (next : α → Option α)

/-- A partial function can be followed for a number of steps from a place. -/
def FollowedFor : Nat → α → Prop
  | 0, _ => True
  | n + 1, a => ∃ b, next a = some b ∧ FollowedFor n b

/-- A function that is total can be followed for ever. -/
theorem followedFor_of_total (h : ∀ a, (next a).isSome = true) : ∀ (n : Nat) (a : α), FollowedFor next n a
  | 0, _ => trivial
  | n + 1, a =>
    have ⟨b, hb⟩ := Option.isSome_iff_exists.1 (h a)
    ⟨b, hb, followedFor_of_total h n b⟩

/-- The places from which a partial function can not be followed for a number of steps. -/
def endsBefore (n : Nat) : Set α := {a | ¬ FollowedFor next n a}

theorem followedFor_of_succ : ∀ {n : Nat} {a : α}, FollowedFor next (n + 1) a → FollowedFor next n a
  | 0, _, _ => trivial
  | _ + 1, _, ⟨b, hb, h⟩ => ⟨b, hb, followedFor_of_succ h⟩

theorem endsBefore_monotone : Monotone (endsBefore next) :=
  monotone_nat_of_le_succ fun _ _ h hsucc => h (followedFor_of_succ next hsucc)

/-- One more step is decided by the places for one step less, so once the places stay the same they stay for ever. -/
theorem endsBefore_succ_congr {n m : Nat} (h : endsBefore next n = endsBefore next m) :
    endsBefore next (n + 1) = endsBefore next (m + 1) := by
  have hiff (b : α) : FollowedFor next n b ↔ FollowedFor next m b := not_iff_not.1 (Set.ext_iff.1 h b)
  simp only [endsBefore, FollowedFor, hiff]

/-- Among `N` places the growing sets of those where the function ends are complete after `N` steps: each set that is
not yet the last has a place that the one before has not. -/
theorem endsBefore_eq_of_card_le [Finite α] {n : Nat} (hn : Nat.card α ≤ n) :
    endsBefore next n = endsBefore next (Nat.card α) := by
  have hmono := endsBefore_monotone next
  have hcard : Monotone fun m => (endsBefore next m).ncard := fun _ _ hle => Set.ncard_le_ncard (hmono hle)
  have heq {m k : Nat} (hle : m ≤ k) (hc : (endsBefore next m).ncard = (endsBefore next k).ncard) :
      endsBefore next m = endsBefore next k := Set.eq_of_subset_of_ncard_le (hmono hle) hc.ge
  have hstep (k : Nat) (hk : (endsBefore next k).ncard = (endsBefore next (k + 1)).ncard) :
      (endsBefore next (k + 1)).ncard = (endsBefore next (k + 2)).ncard :=
    congrArg Set.ncard (endsBefore_succ_congr next (heq (Nat.le_succ k) hk))
  have hstable : (endsBefore next n).ncard = (endsBefore next (Nat.card α)).ncard :=
    Nat.stabilises_of_monotone hcard (fun _ => Set.ncard_le_card _) hstep hn
  exact (heq hn hstable.symm).symm

/-- A partial function on `N` places that can be followed for `N` steps can be followed for ever. -/
theorem followedFor_of_card [Finite α] {a : α} (h : FollowedFor next (Nat.card α) a) (n : Nat) :
    FollowedFor next n a := by
  have hsub : endsBefore next n ⊆ endsBefore next (Nat.card α) := by
    rcases Nat.le_total n (Nat.card α) with hle | hle
    · exact endsBefore_monotone next hle
    · exact (endsBefore_eq_of_card_le next hle).le
  by_contra hn
  exact hsub hn h

end

/-! ### The items of a window of plain memory -/

/-- The byte at an offset of the window of `CO` (20_memory.md R61). -/
def State.windowByte (s : State) (offset : Word16) : Byte :=
  (s.bus.read8 (flat s.params.segShift (offset.setWidth 32) s.regs.codeOfs)).1

/-- The number of bytes of an item, by the class of its first; none for a byte that ends the loop (30_encoding.md
R91). -/
def itemLength : ByteClass → Option Word16
  | .reg => some 1
  | .imm8 => some 2
  | .imm16 => some 3
  | .terminator | .invalid => none

/-- The offset of the item after the one at an offset, where there is one. -/
def State.nextItem (s : State) (offset : Word16) : Option Word16 :=
  (itemLength (classify (s.windowByte offset))).map (offset + ·)

@[simp] theorem windowByte_withPc (s : State) (pc : Word32) : (s.withPc pc).windowByte = s.windowByte := rfl

/-- The flat address depends on `PC` through its low word alone (20_memory.md R60). -/
theorem flat_setWidth (shift : Nat) (pc : Word32) (co : Word16) :
    flat shift ((pc.setWidth 16).setWidth 32) co = flat shift pc co := by
  have hlow : ((pc.setWidth 16).setWidth 32).extractLsb' 0 16 = pc.extractLsb' 0 16 := by
    rw [← BitVec.setWidth_eq_extractLsb' (by decide), ← BitVec.setWidth_eq_extractLsb' (by decide)]
    exact BitVec.setWidth_setWidth_of_le _ (by decide)
  rw [flat, hlow, flat]

/-- On plain memory a byte fetch reads the window at the low word of `PC`, and changes `PC` alone (R140). -/
theorem fetch8_plain {s : State} (hplain : s.bus.plain = true) (pc : Word32) :
    fetch8 (s.withPc pc) = (s.windowByte (pc.setWidth 16), s.withPc (pc + 1)) := by
  refine Prod.ext ?_ ?_
  · rw [State.windowByte, flat_setWidth]
    rfl
  · simp [fetch8, State.withPc, read8_plain _ _ hplain]

/-- On plain memory the loop uses up its fuel exactly where that many items follow each other in the window (R142). -/
theorem operandLoop_stuck_iff {s : State} (hplain : s.bus.plain = true) (fuel : Nat) (ops : List Operand)
    (pc : Word32) :
    operandLoop fuel ops (s.withPc pc) = .stuck ↔ FollowedFor s.nextItem fuel (pc.setWidth 16) := by
  induction fuel generalizing ops pc with
  | zero => simp [operandLoop, FollowedFor]
  | succ fuel ih =>
    have hpc (k : Word32) : (pc + k).setWidth 16 = pc.setWidth 16 + k.setWidth 16 := BitVec.setWidth_add _ _ (by decide)
    cases hc : classify (s.windowByte (pc.setWidth 16)) with
    | terminator | invalid => simp [operandLoop, fetch8_plain hplain, hc, FollowedFor, State.nextItem, itemLength]
    | reg | imm8 | imm16 =>
      simp [operandLoop, fetch8_plain hplain, hc, ih, BitVec.add_assoc, hpc, FollowedFor, State.nextItem, itemLength]

/-- The fuel of the loop is more than the places of the window: items that use it up follow each other for ever. -/
theorem followedFor_of_operandFuel {s : State} {offset : Word16} (h : FollowedFor s.nextItem operandFuel offset)
    (fuel : Nat) : FollowedFor s.nextItem fuel offset := by
  have hcard : Nat.card Word16 = 65536 := by
    rw [Nat.card_eq_fintype_card, ← FinEnum.card_eq_fintypeCard]
    exact FinEnum.card_bitVec 16
  exact followedFor_of_card _ (hcard ▸ followedFor_of_succ _ h) fuel

/-- Settles O10: the stuck cycle used up its fuel, which is more than the places of the window. -/
theorem plainMemoryStuckNeverEnds : Obligations.PlainMemoryStuckNeverEnds := by
  intro s hplain hstuck fuel
  have hfetch : (fetch8 (beginCycle s)).2 = (beginCycle s).withPc (s.regs.pc + 1) :=
    congrArg Prod.snd (fetch8_plain (s := beginCycle s) hplain s.regs.pc)
  have hloop : operandLoop operandFuel [] (fetch8 (beginCycle s)).2 = .stuck := by
    rcases onlyAnUnendingLoopStops s with ⟨t, ht⟩ | ⟨_, hloop⟩
    · rw [hstuck] at ht
      cases ht
    · exact hloop
  rw [hfetch, operandLoop_stuck_iff (s := beginCycle s) hplain] at hloop ⊢
  exact followedFor_of_operandFuel hloop fuel

/-! ### No device -/

theorem plain_of_no_device {b : Bus} (h : b.devices = []) : b.plain = true := by
  rw [Bus.plain, h, List.all_nil]

/-- With no device every byte of the window reads zero (20_memory.md R68). -/
theorem windowByte_of_no_device {s : State} (h : s.bus.devices = []) (offset : Word16) :
    s.windowByte offset = 0x00 := by
  have hnone (a : Addr) : s.bus.findDevice a = none := by rw [Bus.findDevice, h, findFrom]
  rw [State.windowByte, read8_unmapped _ _ (hnone _)]

/-- With no device every offset holds the register id `0x00`, and the next item is one byte on (R226). -/
theorem nextItem_of_no_device {s : State} (h : s.bus.devices = []) (offset : Word16) :
    s.nextItem offset = some (offset + 1) := by
  have hzero : itemLength (classify 0x00) = some 1 := by decide
  rw [State.nextItem, windowByte_of_no_device h, hzero, Option.map_some]

/-- With no device the operand loop ends for no fuel (R226, R228). -/
theorem operandLoop_of_no_device {s : State} (h : s.bus.devices = []) (fuel : Nat) (ops : List Operand) :
    operandLoop fuel ops s = .stuck := by
  have htotal (offset : Word16) : (s.nextItem offset).isSome = true := by
    rw [nextItem_of_no_device h, Option.isSome_some]
  exact (operandLoop_stuck_iff (plain_of_no_device h) fuel ops s.regs.pc).2 (followedFor_of_total _ htotal fuel _)

/-- Settles O11: fetching the opcode byte adds no device either. -/
theorem noDeviceIsStuck : Obligations.NoDeviceIsStuck := by
  intro s h
  have hfetch : (fetch8 (beginCycle s)).2.bus.devices = [] := by
    rw [fetch8_bus, beginCycle_bus, read8_plain _ _ (plain_of_no_device h), h]
  exact ⟨step_of_stuck s ((fetchInstr_stuck_iff _).2 (operandLoop_of_no_device hfetch _ _)),
    fun fuel => operandLoop_of_no_device h fuel []⟩

end Sys2Proof.Machine
end

section
/-! PROOFS. 70_reset_and_hazards.md R233: a write to `CO` moves the instruction stream to another window at once. -/

namespace Sys2Proof.Machine

/-- In the listing order the id `0x20` names `CO` (10_state.md R34). -/
theorem viewAt_listing_codeOfs : viewAt .listing 0x20 = some ⟨.codeOfs, .word⟩ := by decide

/-- Reading the view of `CO` gives `CO`. -/
theorem readView_codeOfs (g : Regs) : g.readView ⟨.codeOfs, .word⟩ = .word g.codeOfs := by
  rw [Regs.readView, Regs.get, readSpan, ← BitVec.setWidth_eq_extractLsb' (by decide),
    BitVec.setWidth_setWidth_of_le _ (by decide), BitVec.setWidth_eq]

/-- Settles O36: the move replaces `CO` and no bit of `PC`, and a flat address is the two side by side. -/
theorem movToCodeOffsetChangesWindow : Obligations.MovToCodeOffsetChangesWindow := by
  intro s v hshift horder ht hwrite
  have hview : s.view 0x20 = some ⟨.codeOfs, .word⟩ := by rw [State.view, horder, viewAt_listing_codeOfs]
  obtain ⟨t, hexec, hvalue, hframe⟩ := (movesWriteTheConvertedValue s (.imm16 v) 0x20 _ _ ht rfl hview hwrite).1
  have hco : t.regs.codeOfs = v := RegVal.word.inj ((readView_codeOfs t.regs).symm.trans hvalue)
  have hpc : t.regs.pc = s.regs.pc := by
    rw [touches_move (.inl rfl)] at hframe
    refine hframe.get_eq (r := .pc) fun n => ?_
    rw [operandTouches, horder, viewAt_listing_codeOfs]
    rfl
  refine ⟨t, hexec, hpc, ?_⟩
  rw [State.fetchAddr, hframe.params, hshift, hpc, hco, flat_toNat]
  omega

end Sys2Proof.Machine
end
